-- ==== Sys2Proof/Word.lean ====
section
/-! DEFINITION. Word.lean: the widths of the block (00_scope.md R5) and the record one `NODE` slot holds
(10_state.md R27). -/

namespace Sys2Proof

/-- A command word or a response word: `CMDW = RESPW = 32` (R5). -/
abbrev Word := BitVec 32

/-- The operand field of a command word: `OPW = 16` (R5). -/
abbrev Operand := BitVec 16

/-- A weight (a count or a sum of counts): `W = 32` (R5). -/
abbrev Weight := BitVec 32

/-- A stored symbol: `SYMW = 8` (R5). -/
abbrev Symbol := BitVec 8

/-- A node index or `NIL`: `IDXW = 9` (R5). -/
abbrev NodeIndex := BitVec 9

/-- A bit-path: the choices from the root down, `false` for `0` (left) and `true` for `1` (right) (R7, R28). -/
abbrev BitPath := List Bool

/-- One slot of the arena `NODE` (10_state.md R27): 58 bits. -/
structure NodeRec where
  weight : Weight
  sym    : Symbol
  left   : NodeIndex
  right  : NodeIndex
  deriving DecidableEq, Repr, Inhabited

end Sys2Proof
end

