-- ==== Sys2Proof/Config.lean ====
section
/-! DEFINITION. Config.lean: the implementation parameters of 00_scope.md R5, each at the value R5 gives it,
and the one value the spec leaves free. -/

namespace Sys2Proof

/-- `A = 256`, the alphabet size (R5). -/
def Config.alphabetSize : Nat := 256

/-- `TOTAL_MAX = 2^32 - 2`, the largest number of symbols that can be counted (R5). -/
def Config.totalMax : Nat := 4294967294

/-- `NN = 511`, the number of node slots in the arena (R5). -/
def Config.nodeSlots : Nat := 511

/-- `NIL = 0x1FF`, the node index that means "absent" (R5). -/
def Config.nil : NodeIndex := 0x1FF#9

/-- `MAXLEN = 255`, the longest possible bit-path (R5). -/
def Config.maxLen : Nat := 255

/-- The constant `ID` register (10_state.md R23). -/
def Config.idValue : Word := 0x48554601#32

/-- FREE VALUE (log entry 4, safe): what a slot of `NODE` that is not allocated holds. 10_state.md R27 calls it
unobservable and 93_implementation_defined.md V4 "any value"; it has no body, so no proof rests on it. -/
opaque Config.unallocatedNode : Nat → NodeRec

end Sys2Proof
end

