-- ==== Sys2Proof/Machine/State.lean ====
section
/-! DEFINITION. Machine/State.lean: all the state the spec gives the block (10_state.md), the streams beside it, what
the host presents, and the state after reset (R33, R200). -/

namespace Sys2Proof.Machine

/-- The values of `PHASE` (10_state.md R12); the value 3 never occurs, so the type leaves it out (V3). -/
inductive Phase where
  /-- 0: frequencies are being counted. -/
  | collect
  /-- 1: the tree has been built, the code table has not. -/
  | tree
  /-- 2: tree and code table built. -/
  | ready
  deriving DecidableEq, Repr

/-- The error kinds of 60_exceptions.md R170; their codes are `ErrorKind.code`. -/
inductive ErrorKind where
  | alphabetOverflow
  | symbolNotCoded
  | malformedBit
  | truncatedCode
  | illegalCommand
  | sequenceError
  | countOverflow
  | noDecodePath
  deriving DecidableEq, Repr

/-- What the host can do to the block between two commands (00_scope.md R6, 70_reset_and_hazards.md R201). -/
inductive HostEvent where
  /-- Present a command word on `cmd_in`. -/
  | cmd (w : Word)
  /-- Assert `rst`. -/
  | rst
  deriving DecidableEq, Repr

/-- The state. Registers R12 to R22, memories R26 to R28, the output streams R30 (oldest item first), and the host
events not yet taken (oldest first, log entry 1). -/
structure State where
  /-- `PHASE` (R12). -/
  phase   : Phase
  /-- `TOTAL` (R13). -/
  total   : Weight
  /-- `NNODES` (R14). -/
  nnodes  : BitVec 10
  /-- `NLEAVES` (R15). -/
  nleaves : BitVec 9
  /-- `ROOT` (R16). -/
  root    : NodeIndex
  /-- `FILLER` (R17). -/
  filler  : Bool
  /-- `FILLSYM` (R17). -/
  fillsym : Symbol
  /-- `CUR` (R18). -/
  cur     : NodeIndex
  /-- `DEPTH` (R20). -/
  depth   : BitVec 8
  /-- `ERR` (R21): `none` is code 0, no fault latched. -/
  err     : Option ErrorKind
  /-- `ERRINFO` (R22). -/
  errinfo : Word
  /-- `FREQ` (R26): the non-zero counts, symbols strictly rising (log entry 6). -/
  freq    : List (Nat × Weight)
  /-- `NODE` (R27): the allocated slots, slot 0 first (log entry 4). -/
  node    : List NodeRec
  /-- `CODE` (R28): the valid entries' paths, symbols strictly rising (log entry 5). -/
  code    : List (Nat × BitPath)
  /-- `resp_out` (R30). -/
  respOut : List Word
  /-- `bit_out` (R30). -/
  bitOut  : List Bool
  /-- `sym_out` (R30). -/
  symOut  : List Symbol
  /-- `cmd_in` and `rst` (R31): what the host presents from here on (log entry 1). -/
  hostIn  : List HostEvent
  deriving DecidableEq, Repr

/-- The builder's working state inside one `BUILD` (42_build.md R100): the arena so far, the priority queue
(hidden state, 10_state.md R29) and the filler registers. Empty before `BUILD` starts; never part of `State`. -/
structure Builder where
  node    : List NodeRec
  pq      : List Nat
  filler  : Bool
  fillsym : Symbol
  deriving DecidableEq, Repr

/-- No step stops the machine: every 32-bit word executes, faults into the latch, or is dropped (00_scope.md R8), and
an error of the spec is a next state (60_exceptions.md R171). So there is no fault to name; nothing raises one. Safe. -/
inductive Fault where
  deriving DecidableEq, Repr

inductive Refusal where
  /-- Raised by an arm of `exec` whose instruction has no meaning yet. Safe. No arm raises it. -/
  | notModelled (mnemonic : String)
  deriving DecidableEq, Repr

/-- The state after reset, every value as 10_state.md R33 lists it. At power-on nothing has been emitted (R33, R202)
and the host has presented nothing (log entry 1). -/
def State.reset : State where
  phase   := .collect
  total   := 0#32
  nnodes  := 0#10
  nleaves := 0#9
  root    := Config.nil
  filler  := false
  fillsym := 0x00#8
  cur     := Config.nil
  depth   := 0#8
  err     := none
  errinfo := 0#32
  freq    := []
  node    := []
  code    := []
  respOut := []
  bitOut  := []
  symOut  := []
  hostIn  := []

end Sys2Proof.Machine
end

