-- ==== Sys2Proof/Machine/Memory.lean ====
section
/-! DEFINITION. Machine/Memory.lean: whole-entry access to the three memories `FREQ`, `NODE`, `CODE`
(20_memory.md R40, R41). `FREQ` and `CODE` are sparse tables in one canonical form: indices strictly rising, and no
entry equal to what an unlisted index reads as; `NODE` is the list of its allocated slots. -/

namespace Sys2Proof.Machine

/-- The entry listed for an index of a sparse table. -/
def tableFind {β : Type} : List (Nat × β) → Nat → Option β
  | [], _ => none
  | (k, v) :: m, j => if j = k then some v else tableFind m j

/-- The table with index `j` listed as `v`, the indices still rising. -/
def tableInsert {β : Type} : List (Nat × β) → Nat → β → List (Nat × β)
  | [], j, v => [(j, v)]
  | (k, u) :: m, j, v =>
    if j < k then (j, v) :: (k, u) :: m
    else if j = k then (j, v) :: m
    else (k, u) :: tableInsert m j v

/-- The table with index `j` not listed. -/
def tableErase {β : Type} (m : List (Nat × β)) (j : Nat) : List (Nat × β) := m.filter fun e => e.1 != j

/-- The canonical form of a sparse table of `bound` entries: indices strictly rising and below `bound`. -/
abbrev tableWf {β : Type} (bound : Nat) (m : List (Nat × β)) : Prop :=
  (m.map Prod.fst).Pairwise (· < ·) ∧ ∀ e ∈ m, e.1 < bound

/-- `FREQ[s]` (10_state.md R26): an unlisted symbol has the count 0, its reset value. -/
def freqRead (freq : List (Nat × Weight)) (s : Nat) : Weight := (tableFind freq s).getD 0#32

/-- `FREQ[s] <- v`: a count of 0 is not listed. -/
def freqWrite (freq : List (Nat × Weight)) (s : Nat) (v : Weight) : List (Nat × Weight) :=
  if v = 0#32 then tableErase freq s else tableInsert freq s v

/-- The canonical form of `FREQ`: 256 entries, none listed with the count 0. -/
abbrev freqWf (freq : List (Nat × Weight)) : Prop :=
  tableWf Config.alphabetSize freq ∧ ∀ e ∈ freq, e.2 ≠ 0#32

/-- `CODE[s]` (10_state.md R28): `none` is an entry with `valid = 0`; a path's `len` is its length. -/
def codeRead (code : List (Nat × BitPath)) (s : Nat) : Option BitPath := tableFind code s

/-- `CODE[s] <- {valid: 1, len: len(p), path: p}`. -/
def codeWrite (code : List (Nat × BitPath)) (s : Nat) (p : BitPath) : List (Nat × BitPath) := tableInsert code s p

/-- The canonical form of `CODE`: 256 entries, every path at most `MAXLEN` long. -/
abbrev codeWf (code : List (Nat × BitPath)) : Prop :=
  tableWf Config.alphabetSize code ∧ ∀ e ∈ code, e.2.length ≤ Config.maxLen

/-- `NODE[i]` (10_state.md R27). No rule reads an unallocated slot in a reachable state; what it would hold is a free
value (log entry 4). -/
def nodeRead (node : List NodeRec) (i : Nat) : NodeRec := node[i]?.getD (Config.unallocatedNode i)

/-- `is_leaf(i)`: both children absent (10_state.md R19). -/
def isLeaf (node : List NodeRec) (i : Nat) : Bool :=
  (nodeRead node i).left == Config.nil && (nodeRead node i).right == Config.nil

/-- `NODE[i].left` for the bit 0, `NODE[i].right` for the bit 1 (45_decode.md R141). -/
def child (node : List NodeRec) (i : Nat) (b : Bool) : NodeIndex :=
  if b then (nodeRead node i).right else (nodeRead node i).left

/-- The three memories of a state are in canonical form. -/
abbrev Memory.wf (s : State) : Prop := freqWf s.freq ∧ codeWf s.code ∧ s.node.length ≤ Config.nodeSlots

end Sys2Proof.Machine
end

