-- ==== Sys2Proof/Machine/Flags.lean ====
section
/-! DEFINITION. Machine/Flags.lean: the views of the flag-like state: the `PHASE` bits, the error codes, the `ERR`
word, the computed `STATUS` word and the `err` line (10_state.md R12, R21, R24, R34; 60_exceptions.md R170, R181). -/

namespace Sys2Proof.Machine

/-- `PHASE` as its 2 bits (R12). -/
def Phase.bits : Phase → BitVec 2
  | .collect => 0#2
  | .tree => 1#2
  | .ready => 2#2

/-- `code(E)` (R170). -/
def ErrorKind.code : ErrorKind → BitVec 4
  | .alphabetOverflow => 1#4
  | .symbolNotCoded => 2#4
  | .malformedBit => 3#4
  | .truncatedCode => 4#4
  | .illegalCommand => 5#4
  | .sequenceError => 6#4
  | .countOverflow => 7#4
  | .noDecodePath => 8#4

/-- `ERR.CODE`: 0 when no fault is latched (R21). -/
def errCode (s : State) : BitVec 4 :=
  match s.err with
  | none => 0#4
  | some e => ErrorKind.code e

/-- `ERR` as a word: `ERR[31:4] = 0` (R21). -/
def errWord (s : State) : Word := (errCode s).setWidth 32

/-- `err = (ERR.CODE != 0)`, the level output (R181). -/
def errLine (s : State) : Bool := errCode s != 0#4

/-- `STATUS.TREE` (R24). -/
def treeFlag (s : State) : Bool := s.root != Config.nil

/-- `STATUS.MIDPATH` (R24). -/
def midpathFlag (s : State) : Bool := s.cur != s.root

/-- `STATUS`, assembled from other state; bits 31:6 read 0 (R24). -/
def statusWord (s : State) : Word :=
  0#26 ++ BitVec.ofBool (midpathFlag s) ++ BitVec.ofBool (errLine s) ++ BitVec.ofBool s.filler ++
    BitVec.ofBool (treeFlag s) ++ s.phase.bits

end Sys2Proof.Machine
end

