-- ==== Sys2Proof/Syntax.lean ====
section
/-! DEFINITION. Syntax.lean: the 15 commands of 30_encoding.md R62, one constructor per row of
spec/opcode_table.json. An operand is the whole 16-bit field `x`, unsigned (R61). -/

namespace Sys2Proof

inductive Instr where
  /-- `NOP` (40_control.md R80). -/
  | nop
  /-- `CLEAR` (40_control.md R81). -/
  | clear
  /-- `CLRERR` (40_control.md R82). -/
  | clrerr
  /-- `COUNT s`: `x` is an input symbol (41_count.md R91). -/
  | count (x : Operand)
  /-- `BUILD` (42_build.md R100). -/
  | build
  /-- `MKTAB` (43_codetable.md R120). -/
  | mktab
  /-- `ENC s`: `x` is an input symbol (44_encode.md R130). -/
  | enc (x : Operand)
  /-- `DECBIT b`: `x` is a bit symbol (45_decode.md R141). -/
  | decbit (x : Operand)
  /-- `DECEND` (45_decode.md R142). -/
  | decend
  /-- `DECRST` (45_decode.md R143). -/
  | decrst
  /-- `RDREG r`: `x` is a register number (46_readback.md R160). -/
  | rdreg (x : Operand)
  /-- `RDFREQ s`: `x` is a symbol index (46_readback.md R161). -/
  | rdfreq (x : Operand)
  /-- `RDNODEL i`: `x` is a node index (46_readback.md R162). -/
  | rdnodel (x : Operand)
  /-- `RDNODEW i`: `x` is a node index (46_readback.md R163). -/
  | rdnodew (x : Operand)
  /-- `RDLEN s`: `x` is a symbol index (46_readback.md R164). -/
  | rdlen (x : Operand)
  deriving DecidableEq, Repr

end Sys2Proof
end

