-- ==== Sys2Proof/WellFormed.lean ====
section
/-! DEFINITION. WellFormed.lean: which commands a legal word can spell, as far as the word alone decides it:
conditions 4 and 5 of 30_encoding.md R64. Conditions 1 to 3 hold of every command's word by its encoding; condition 6
reads `NNODES` and is checked when the command runs (R179). -/

namespace Sys2Proof

/-- R64 condition 4: a register number is `0..10`. -/
def registerNumberOk (x : Operand) : Bool := decide (x.toNat ≤ 10)

/-- R64 condition 5: a table index is `0..255`. -/
def tableIndexOk (x : Operand) : Bool := decide (x.toNat ≤ 255)

/-- The operand is in the legal range that the word alone decides (R61, R64). -/
def Instr.wellFormed : Instr → Bool
  | .nop => true
  | .clear => true
  | .clrerr => true
  | .count _ => true
  | .build => true
  | .mktab => true
  | .enc _ => true
  | .decbit _ => true
  | .decend => true
  | .decrst => true
  | .rdreg x => registerNumberOk x
  | .rdfreq x => tableIndexOk x
  | .rdnodel _ => true
  | .rdnodew _ => true
  | .rdlen x => tableIndexOk x

end Sys2Proof
end

