-- ==== Sys2Proof/Decode.lean ====
section
/-! DEFINITION. Decode.lean: the command word (30_encoding.md R60 to R64, R67): its fields, the decoder, total on
every 32-bit word and refusing by name, the encoder, and the opcode map as match and mask rows (R62). -/

namespace Sys2Proof

/-- Why a word spells no command, as far as the word alone decides it (R64 conditions 1 to 5). The reason is a name
for the reader: the block itself records only `IllegalCommand` and the word (R67). -/
inductive Illegal where
  /-- Condition 1: `w[31:24]` is none of the 15 opcodes. -/
  | reservedOpcode
  /-- Condition 2: `w[23:16]` is not zero. -/
  | reservedField
  /-- Condition 3: an operand on a command that takes none. -/
  | unexpectedOperand
  /-- Condition 4: a register number above 10. -/
  | registerNumber
  /-- Condition 5: a table index above 255. -/
  | tableIndex
  deriving DecidableEq, Repr

/-- `op = w[31:24]` (R60). -/
def opField (w : Word) : BitVec 8 := w.extractLsb' 24 8

/-- `rsv = w[23:16]` (R60). -/
def rsvField (w : Word) : BitVec 8 := w.extractLsb' 16 8

/-- `x = w[15:0]` (R60). -/
def xField (w : Word) : Operand := w.extractLsb' 0 16

/-- A command without an operand: `x` must be zero (R64 condition 3). -/
def decodeBare (i : Instr) (x : Operand) : Except Illegal Instr :=
  if x = 0#16 then .ok i else .error .unexpectedOperand

/-- A command whose operand range the word alone decides (R64 conditions 4 and 5). -/
def decodeRanged (inRange : Bool) (why : Illegal) (i : Instr) : Except Illegal Instr :=
  if inRange then .ok i else .error why

/-- The opcode map (R62) on a word whose `rsv` is zero. -/
def decodeOp (op : BitVec 8) (x : Operand) : Except Illegal Instr :=
  if op = 0x00#8 then decodeBare .nop x
  else if op = 0x01#8 then decodeBare .clear x
  else if op = 0x02#8 then decodeBare .clrerr x
  else if op = 0x10#8 then .ok (.count x)
  else if op = 0x11#8 then decodeBare .build x
  else if op = 0x12#8 then decodeBare .mktab x
  else if op = 0x20#8 then .ok (.enc x)
  else if op = 0x30#8 then .ok (.decbit x)
  else if op = 0x31#8 then decodeBare .decend x
  else if op = 0x32#8 then decodeBare .decrst x
  else if op = 0x40#8 then decodeRanged (registerNumberOk x) .registerNumber (.rdreg x)
  else if op = 0x41#8 then decodeRanged (tableIndexOk x) .tableIndex (.rdfreq x)
  else if op = 0x42#8 then .ok (.rdnodel x)
  else if op = 0x43#8 then .ok (.rdnodew x)
  else if op = 0x44#8 then decodeRanged (tableIndexOk x) .tableIndex (.rdlen x)
  else .error .reservedOpcode

/-- The decoder: every word is one of the 15 commands or illegal (R67). -/
def decode (w : Word) : Except Illegal Instr :=
  if rsvField w = 0#8 then decodeOp (opField w) (xField w) else .error .reservedField

/-- A command's opcode (R62). -/
def Instr.opcode : Instr → BitVec 8
  | .nop => 0x00#8
  | .clear => 0x01#8
  | .clrerr => 0x02#8
  | .count _ => 0x10#8
  | .build => 0x11#8
  | .mktab => 0x12#8
  | .enc _ => 0x20#8
  | .decbit _ => 0x30#8
  | .decend => 0x31#8
  | .decrst => 0x32#8
  | .rdreg _ => 0x40#8
  | .rdfreq _ => 0x41#8
  | .rdnodel _ => 0x42#8
  | .rdnodew _ => 0x43#8
  | .rdlen _ => 0x44#8

/-- A command's operand field: zero where it takes none (R61). -/
def Instr.operand : Instr → Operand
  | .nop => 0#16
  | .clear => 0#16
  | .clrerr => 0#16
  | .count x => x
  | .build => 0#16
  | .mktab => 0#16
  | .enc x => x
  | .decbit x => x
  | .decend => 0#16
  | .decrst => 0#16
  | .rdreg x => x
  | .rdfreq x => x
  | .rdnodel x => x
  | .rdnodew x => x
  | .rdlen x => x

/-- The word that spells a command: the fields `op`, `rsv` and `x` in their places (R60). -/
def encode (i : Instr) : Word := i.opcode ++ 0#8 ++ i.operand

/-- One row of the opcode map, as `match` and `mask` (R62). -/
structure OpcodeRow where
  value   : Word
  mask    : Word
  deriving DecidableEq, Repr

/-- The mask of a command without an operand (R62). -/
def bareMask : Word := 0xFFFFFFFF#32

/-- The mask of a command with an operand: `rsv` must be zero and `x` is free (R62). -/
def operandMask : Word := 0xFFFF0000#32

/-- The 15 rows of R62, `match = op << 24`, in the table's order. -/
def opcodeRows : List OpcodeRow :=
  [⟨0x00000000#32, bareMask⟩, ⟨0x01000000#32, bareMask⟩, ⟨0x02000000#32, bareMask⟩,
   ⟨0x10000000#32, operandMask⟩, ⟨0x11000000#32, bareMask⟩, ⟨0x12000000#32, bareMask⟩,
   ⟨0x20000000#32, operandMask⟩,
   ⟨0x30000000#32, operandMask⟩, ⟨0x31000000#32, bareMask⟩, ⟨0x32000000#32, bareMask⟩,
   ⟨0x40000000#32, operandMask⟩, ⟨0x41000000#32, operandMask⟩, ⟨0x42000000#32, operandMask⟩,
   ⟨0x43000000#32, operandMask⟩, ⟨0x44000000#32, operandMask⟩]

/-- A word matches a row iff `w & mask = match` (R62). -/
def OpcodeRow.matches (r : OpcodeRow) (w : Word) : Bool := decide (w &&& r.mask = r.value)

/-- The instruction the decoder reads from a table row's word. A command is one 32-bit word and has no bytes to lay
out (20_memory.md R42, log entry 13); a number that is no `nbits`-bit word of at most 32 bits spells none. -/
def decodeTableWord (nbits w : Nat) : Option Instr :=
  if nbits ≤ 32 ∧ w < 2 ^ nbits then
    match decode (BitVec.ofNat 32 w) with
    | .ok i => some i
    | .error _ => none
  else none

end Sys2Proof
end

