-- ==== Sys2Proof/Machine/Operands.lean ====
section
/-! DEFINITION. Machine/Operands.lean: the one operand form, the 16-bit field `x`, and its ranges
(30_encoding.md R61, R64), the classes of commands (R65) and the phases that permit them (60_exceptions.md R178). -/

namespace Sys2Proof.Machine

/-- The valid range of an input symbol, else `AlphabetOverflow` (R61). -/
def validSymbol (x : Operand) : Bool := decide (x.toNat ≤ 255)

/-- The valid range of a bit symbol, else `MalformedBit` (R61). -/
def validBit (x : Operand) : Bool := decide (x.toNat ≤ 1)

/-- The bit a valid bit symbol stands for: `0` left, `1` right (R61). -/
def bitOf (x : Operand) : Bool := decide (x.toNat ≠ 0)

/-- R64 condition 6: a node index is below `NNODES`. -/
def nodeIndexOk (x : Operand) (nnodes : BitVec 10) : Bool := decide (x.toNat < nnodes.toNat)

/-- The part of `legal(w)` that reads state: R64 condition 6, for the two node reads. -/
def stateLegal (nnodes : BitVec 10) : Instr → Bool
  | .nop => true
  | .clear => true
  | .clrerr => true
  | .count _ => true
  | .build => true
  | .mktab => true
  | .enc _ => true
  | .decbit _ => true
  | .decend => true
  | .decrst => true
  | .rdreg _ => true
  | .rdfreq _ => true
  | .rdnodel x => nodeIndexOk x nnodes
  | .rdnodew x => nodeIndexOk x nnodes
  | .rdlen _ => true

/-- `legal(w)` (R64), for the value of `NNODES` at hand. -/
def legal (w : Word) (nnodes : BitVec 10) : Bool :=
  match decode w with
  | .ok i => stateLegal nnodes i
  | .error _ => false

/-- The data-path commands (R65); the others are always-commands. -/
def isDataPath : Instr → Bool
  | .nop => false
  | .clear => false
  | .clrerr => false
  | .count _ => true
  | .build => true
  | .mktab => true
  | .enc _ => true
  | .decbit _ => true
  | .decend => true
  | .decrst => true
  | .rdreg _ => false
  | .rdfreq _ => false
  | .rdnodel _ => false
  | .rdnodew _ => false
  | .rdlen _ => false

/-- The table of the phase check (60_exceptions.md R178); an always-command runs in every phase (R65). -/
def permittedIn (p : Phase) : Instr → Bool
  | .nop => true
  | .clear => true
  | .clrerr => true
  | .count _ => p == .collect
  | .build => p == .collect
  | .mktab => p != .collect
  | .enc _ => p == .ready
  | .decbit _ => p != .collect
  | .decend => p != .collect
  | .decrst => p != .collect
  | .rdreg _ => true
  | .rdfreq _ => true
  | .rdnodel _ => true
  | .rdnodew _ => true
  | .rdlen _ => true

end Sys2Proof.Machine
end

