-- ==== Sys2Proof/Machine/Ops.lean ====
section
/-! DEFINITION. Machine/Ops.lean: the operations the commands share: raising an error and its return
(60_exceptions.md R171, R174), the front of every command (30_encoding.md R66), emitting (10_state.md R30), the
numbered registers (R25), reset (70_reset_and_hazards.md R200) and taking the host's next event (00_scope.md R6). -/

namespace Sys2Proof.Machine

/-- `raise E(w)`: the code and the word are latched and nothing else changes (R171). -/
def raise (e : ErrorKind) (w : Word) (s : State) : State := { s with err := some e, errinfo := w }

/-- The return from a fault: `ERR` and `ERRINFO` become 0 (R82, R174). -/
def clearLatch (s : State) : State := { s with err := none, errinfo := 0#32 }

/-- The fault latch: `ERR.CODE != 0` (R34). -/
def latched (s : State) : Bool := s.err.isSome

/-- An illegal word: `IllegalCommand` with no fault latched, else dropped (R66, R67). -/
def illegalWord (w : Word) (s : State) : State :=
  if latched s then s else raise .illegalCommand w s

/-- The error of the first failing check, the checks in their order (R66, R177). -/
def firstFailure : List (Bool × ErrorKind) → Option ErrorKind
  | [] => none
  | (ok, e) :: checks => if ok then firstFailure checks else some e

/-- The front of a data-path command (R66): dropped while a fault is latched; else the phase check, then the
command's own checks in order, of which the first failing one raises and ends the command; else the effect. -/
def runDataPath (i : Instr) (checks : List (Bool × ErrorKind)) (effect : State → State) (s : State) : State :=
  if latched s then s
  else
    match firstFailure ((permittedIn s.phase i, .sequenceError) :: checks) with
    | some e => raise e (encode i) s
    | none => effect s

/-- `emit_resp(v)` (R7). -/
def emitResp (v : Word) (s : State) : State := { s with respOut := s.respOut ++ [v] }

/-- `emit_bit` of each bit of a path, first choice first (44_encode.md R130, R132). -/
def emitBits (p : BitPath) (s : State) : State := { s with bitOut := s.bitOut ++ p }

/-- `emit_sym(v)` (R7). -/
def emitSym (v : Symbol) (s : State) : State := { s with symOut := s.symOut ++ [v] }

/-- A read-back command (46_readback.md): one response; an index out of range makes the word illegal (R64). -/
def runRead (i : Instr) (response : Option Word) (s : State) : State :=
  match response with
  | some v => emitResp v s
  | none => illegalWord (encode i) s

/-- `REG(r)`, zero-extended to 32 bits (10_state.md R25, 46_readback.md R160); no register above 10. -/
def readRegister (s : State) : Nat → Option Word
  | 0 => some Config.idValue
  | 1 => some (statusWord s)
  | 2 => some (errWord s)
  | 3 => some s.errinfo
  | 4 => some (s.root.setWidth 32)
  | 5 => some (s.nnodes.setWidth 32)
  | 6 => some (s.nleaves.setWidth 32)
  | 7 => some s.total
  | 8 => some (s.cur.setWidth 32)
  | 9 => some (s.depth.setWidth 32)
  | 10 => some (s.fillsym.setWidth 32)
  | _ => none

/-- The cursor at the root, a code boundary (`CUR <- ROOT; DEPTH <- 0`, R109, R141, R143). -/
def cursorToRoot (s : State) : State := { s with cur := s.root, depth := 0#8 }

/-- `rst` (R200): every piece of state at its reset value; what was emitted stays emitted (R202), and what the host
presents next is the host's (log entry 3). -/
def applyReset (s : State) : State :=
  { State.reset with respOut := s.respOut, bitOut := s.bitOut, symOut := s.symOut, hostIn := s.hostIn }

/-- The host's next event and the state without it: commands are taken one at a time in the order presented (R6). -/
def takeEvent (s : State) : Option (HostEvent × State) :=
  match s.hostIn with
  | [] => none
  | e :: rest => some (e, { s with hostIn := rest })

end Sys2Proof.Machine
end

