-- ==== Sys2Proof/Machine/Build.lean ====
section
/-! DEFINITION. Machine/Build.lean: the tree builder, `BUILD` (42_build.md R100 to R111), a stage a definition:
priority queue, leaf scan, filler, merge loop, finish. -/

namespace Sys2Proof.Machine

/-- `key(i) < key(j)` for `key(i) = (NODE[i].weight, i)`, weight first, unsigned (R101). -/
def keyLt (node : List NodeRec) (i j : Nat) : Bool :=
  decide ((nodeRead node i).weight.toNat < (nodeRead node j).weight.toNat ∨
    ((nodeRead node i).weight = (nodeRead node j).weight ∧ i < j))

/-- `pq_insert(i)` (R102). -/
def pqInsert (pq : List Nat) (i : Nat) : List Nat := pq ++ [i]

/-- The index of least key among `i` and those of a list. -/
def leastKey (node : List NodeRec) : Nat → List Nat → Nat
  | i, [] => i
  | i, j :: q => leastKey node (if keyLt node j i then j else i) q

/-- `pq_extract_min()`: the index of least key and the queue without it; none of an empty queue (R102). -/
def pqExtractMin (node : List NodeRec) : List Nat → Option (Nat × List Nat)
  | [] => none
  | i :: q => some (leastKey node i q, (i :: q).erase (leastKey node i q))

/-- Writes the next free slot and puts it into the queue: `NODE[NNODES] <- n; pq_insert(NNODES); NNODES + 1`
(R103, R104, R107). -/
def allocate (n : NodeRec) (b : Builder) : Builder :=
  { b with node := b.node ++ [n], pq := pqInsert b.pq b.node.length }

/-- A leaf: no children (R103, R104). -/
def leafNode (weight : Weight) (sym : Symbol) : NodeRec :=
  { weight := weight, sym := sym, left := Config.nil, right := Config.nil }

/-- One step of the leaf scan: a leaf for a symbol of positive frequency (R103). -/
def scanSymbol (freq : List (Nat × Weight)) (b : Builder) (c : Nat) : Builder :=
  if freqRead freq c = 0#32 then b else allocate (leafNode (freqRead freq c) (BitVec.ofNat 8 c)) b

/-- `PQ <- empty; NNODES <- 0` (R100). -/
def emptyBuilder : Builder := { node := [], pq := [], filler := false, fillsym := 0x00#8 }

/-- `leaf_scan()`: the symbols in ascending order (R103). -/
def leafScan (freq : List (Nat × Weight)) : Builder :=
  (List.range Config.alphabetSize).foldl (scanSymbol freq) emptyBuilder

/-- The filler's symbol: the lowest alphabet index that is not the real symbol (R104). -/
def fillerSymbol (r : Symbol) : Symbol := if r = 0x00#8 then 0x01#8 else 0x00#8

/-- `filler()`: a second leaf, of weight 1, iff the scan made exactly one (R104). -/
def addFiller (b : Builder) : Builder :=
  if b.node.length = 1 then
    { allocate (leafNode 1#32 (fillerSymbol (nodeRead b.node 0).sym)) b with
      filler := true, fillsym := fillerSymbol (nodeRead b.node 0).sym }
  else { b with filler := false, fillsym := 0x00#8 }

/-- The node a merge makes: first extracted left, second right, weight the sum (R106, R107). -/
def mergedNode (node : List NodeRec) (a b : Nat) : NodeRec :=
  { weight := (nodeRead node a).weight + (nodeRead node b).weight, sym := 0x00#8,
    left := BitVec.ofNat 9 a, right := BitVec.ofNat 9 b }

/-- `merge_step()`: the two least keys leave the queue and their parent enters it (R107). With fewer than two
indices held it is not called (R105), and changes nothing. -/
def mergeStep (b : Builder) : Builder :=
  match pqExtractMin b.node b.pq with
  | none => b
  | some (least, rest) =>
    match pqExtractMin b.node rest with
    | none => b
    | some (next, rest') => allocate (mergedNode b.node least next) { b with pq := rest' }

/-- `while |PQ| > 1: merge_step()` (R105), at most `fuel` times (log entry 8). -/
def mergeLoop : Nat → Builder → Builder
  | 0, b => b
  | fuel + 1, b => if 1 < b.pq.length then mergeLoop fuel (mergeStep b) else b

/-- The leaves: the stages before the merge loop (R100). -/
def buildLeaves (freq : List (Nat × Weight)) : Builder := addFiller (leafScan freq)

/-- The whole tree. The loop makes at most 255 merges (R110), so `A` rounds are enough. -/
def buildTree (freq : List (Nat × Weight)) : Builder := mergeLoop Config.alphabetSize (buildLeaves freq)

/-- The index left in the queue, or `NIL` of an empty one (R109). -/
def builtRoot (b : Builder) : NodeIndex :=
  match pqExtractMin b.node b.pq with
  | some (i, _) => BitVec.ofNat 9 i
  | none => Config.nil

/-- The effect of `BUILD` (R100, R109): the registers the rule names and no others. -/
def buildEffect (s : State) : State :=
  cursorToRoot
    { s with
      node    := (buildTree s.freq).node
      nnodes  := BitVec.ofNat 10 (buildTree s.freq).node.length
      nleaves := BitVec.ofNat 9 (buildLeaves s.freq).node.length
      root    := builtRoot (buildTree s.freq)
      filler  := (buildLeaves s.freq).filler
      fillsym := (buildLeaves s.freq).fillsym
      phase   := .tree }

/-- `BUILD` (R100): error 6 only. -/
def execBuild (s : State) : Host.Outcome State Fault Refusal :=
  .next (runDataPath .build [] buildEffect s)

end Sys2Proof.Machine
end

