-- ==== Sys2Proof/Machine/CodeTable.lean ====
section
/-! DEFINITION. Machine/CodeTable.lean: the code-table builder, `MKTAB` (43_codetable.md R120 to R127). -/

namespace Sys2Proof.Machine

/-- `walk(i, p)` (R122): left subtree, then right, the path so far carried along; at a leaf one entry is written.
`fuel` bounds the depth (log entry 8). -/
def walkTree (node : List NodeRec) : Nat → Nat → BitPath → List (Nat × BitPath) → List (Nat × BitPath)
  | 0, _, _, code => code
  | fuel + 1, i, p, code =>
    if isLeaf node i then codeWrite code (nodeRead node i).sym.toNat p
    else
      walkTree node fuel (child node i true).toNat (p ++ [true])
        (walkTree node fuel (child node i false).toNat (p ++ [false]) code)

/-- Every entry invalid, then `walk(ROOT, [])` unless the tree is absent (R120). A node's children have lesser
indices (10_state.md R32), so `NN` levels are enough. -/
def makeTable (node : List NodeRec) (root : NodeIndex) : List (Nat × BitPath) :=
  if root = Config.nil then [] else walkTree node Config.nodeSlots root.toNat [] []

/-- The effect of `MKTAB`: `CODE` and `PHASE` only (R120). -/
def mktabEffect (s : State) : State := { s with code := makeTable s.node s.root, phase := .ready }

/-- `MKTAB` (R120): error 6 only. -/
def execMktab (s : State) : Host.Outcome State Fault Refusal :=
  .next (runDataPath .mktab [] mktabEffect s)

end Sys2Proof.Machine
end

