-- ==== Sys2Proof/Machine/Control.lean ====
section
/-! DEFINITION. Machine/Control.lean: `NOP`, `CLEAR`, `CLRERR` (40_control.md R80 to R83): always-commands, so they
execute while a fault is latched and in every phase. -/

namespace Sys2Proof.Machine

/-- `NOP`: nothing (R80). -/
def execNop (s : State) : Host.Outcome State Fault Refusal := .next s

/-- `CLEAR` (R81): the listed writes; nothing is said of the output streams, which keep what was emitted. -/
def execClear (s : State) : Host.Outcome State Fault Refusal :=
  .next
    { s with
      phase   := .collect
      freq    := []
      total   := 0#32
      nnodes  := 0#10
      nleaves := 0#9
      node    := []
      root    := Config.nil
      cur     := Config.nil
      depth   := 0#8
      filler  := false
      fillsym := 0x00#8
      code    := []
      err     := none
      errinfo := 0#32 }

/-- `CLRERR`: the host's acknowledgement; no other state changes (R82). -/
def execClrerr (s : State) : Host.Outcome State Fault Refusal := .next (clearLatch s)

end Sys2Proof.Machine
end

