-- ==== Sys2Proof/Machine/Count.lean ====
section
/-! DEFINITION. Machine/Count.lean: the frequency counter, `COUNT` (41_count.md R90 to R94). -/

namespace Sys2Proof.Machine

/-- The effect of `COUNT s`: `FREQ[s]` and `TOTAL` plus 1 (R91). -/
def countSymbol (c : Nat) (s : State) : State :=
  { s with freq := freqWrite s.freq c (freqRead s.freq c + 1#32), total := s.total + 1#32 }

/-- The overflow guard of `COUNT`: `TOTAL` is not yet `TOTAL_MAX` (R91, R92). -/
def countRoom (s : State) : Bool := decide (s.total.toNat ≠ Config.totalMax)

/-- `COUNT s` (R91): errors 6, then 1, then 7. -/
def execCount (x : Operand) (s : State) : Host.Outcome State Fault Refusal :=
  .next (runDataPath (.count x)
    [(validSymbol x, .alphabetOverflow), (countRoom s, .countOverflow)] (countSymbol x.toNat) s)

end Sys2Proof.Machine
end

