-- ==== Sys2Proof/Machine/Decoder.lean ====
section
/-! DEFINITION. Machine/Decoder.lean: the decoder, `DECBIT`, `DECEND`, `DECRST` (45_decode.md R140 to R150). -/

namespace Sys2Proof.Machine

/-- There is a tree to walk: the root is neither `NIL` nor a leaf (R141, R147). -/
def walkable (s : State) : Bool := s.root != Config.nil && !isLeaf s.node s.root.toNat

/-- The node a bit steps to: `nxt` (R141). -/
def nextNode (b : Bool) (s : State) : NodeIndex := child s.node s.cur.toNat b

/-- The effect of `DECBIT` (R141): at a leaf its symbol is emitted and the cursor returns to the root; else the
cursor rests on the child. -/
def decodeBit (b : Bool) (s : State) : State :=
  if isLeaf s.node (nextNode b s).toNat then
    cursorToRoot (emitSym (nodeRead s.node (nextNode b s).toNat).sym s)
  else { s with cur := nextNode b s, depth := s.depth + 1#8 }

/-- `DECBIT b` (R141): errors 6, then 3, then 8. -/
def execDecbit (x : Operand) (s : State) : Host.Outcome State Fault Refusal :=
  .next (runDataPath (.decbit x)
    [(validBit x, .malformedBit), (walkable s, .noDecodePath)] (decodeBit (bitOf x)) s)

/-- The cursor is at a code boundary (R142). -/
def atBoundary (s : State) : Bool := s.cur == s.root

/-- `DECEND` (R142): errors 6, then 4; a success changes nothing. -/
def execDecend (s : State) : Host.Outcome State Fault Refusal :=
  .next (runDataPath .decend [(atBoundary s, .truncatedCode)] id s)

/-- `DECRST` (R143): error 6 only. -/
def execDecrst (s : State) : Host.Outcome State Fault Refusal :=
  .next (runDataPath .decrst [] cursorToRoot s)

end Sys2Proof.Machine
end

