-- ==== Sys2Proof/Machine/Encoder.lean ====
section
/-! DEFINITION. Machine/Encoder.lean: the encoder, `ENC` (44_encode.md R130 to R136). -/

namespace Sys2Proof.Machine

/-- `CODE[s].valid = 1` (R130). -/
def symbolCoded (c : Nat) (s : State) : Bool := (codeRead s.code c).isSome

/-- The path `ENC` emits: `CODE[s].path[k]` for `k = 0 .. len-1` (R130). -/
def codePath (c : Nat) (s : State) : BitPath := (codeRead s.code c).getD []

/-- `ENC s` (R130): errors 6, then 1, then 2; it only emits. -/
def execEnc (x : Operand) (s : State) : Host.Outcome State Fault Refusal :=
  .next (runDataPath (.enc x)
    [(validSymbol x, .alphabetOverflow), (symbolCoded x.toNat s, .symbolNotCoded)]
    (emitBits (codePath x.toNat s)) s)

end Sys2Proof.Machine
end

