-- ==== Sys2Proof/Machine/Readback.lean ====
section
/-! DEFINITION. Machine/Readback.lean: the read-back commands (46_readback.md R160 to R166): always-commands, one
response each, no other change. -/

namespace Sys2Proof.Machine

/-- `RDREG r` (R160). -/
def execRdreg (x : Operand) (s : State) : Host.Outcome State Fault Refusal :=
  .next (runRead (.rdreg x) (readRegister s x.toNat) s)

/-- The response of `RDFREQ`: `FREQ[s]`, for an index in range (R161). -/
def freqResponse (x : Operand) (s : State) : Option Word :=
  if tableIndexOk x then some (freqRead s.freq x.toNat) else none

/-- `RDFREQ s` (R161). -/
def execRdfreq (x : Operand) (s : State) : Host.Outcome State Fault Refusal :=
  .next (runRead (.rdfreq x) (freqResponse x s) s)

/-- A node's links: bits 31:27 zero, 26 leaf, 25:18 `sym`, 17:9 `right`, 8:0 `left` (R162). -/
def linkWord (node : List NodeRec) (i : Nat) : Word :=
  0#5 ++ BitVec.ofBool (isLeaf node i) ++ (nodeRead node i).sym ++ (nodeRead node i).right ++ (nodeRead node i).left

/-- The response of `RDNODEL`, for an allocated slot (R162). -/
def linkResponse (x : Operand) (s : State) : Option Word :=
  if nodeIndexOk x s.nnodes then some (linkWord s.node x.toNat) else none

/-- `RDNODEL i` (R162). -/
def execRdnodel (x : Operand) (s : State) : Host.Outcome State Fault Refusal :=
  .next (runRead (.rdnodel x) (linkResponse x s) s)

/-- The response of `RDNODEW`: the weight, for an allocated slot (R163). -/
def weightResponse (x : Operand) (s : State) : Option Word :=
  if nodeIndexOk x s.nnodes then some (nodeRead s.node x.toNat).weight else none

/-- `RDNODEW i` (R163). -/
def execRdnodew (x : Operand) (s : State) : Host.Outcome State Fault Refusal :=
  .next (runRead (.rdnodew x) (weightResponse x s) s)

/-- A code-table entry's `valid` and `len`: bits 31:9 zero, 8 `valid`, 7:0 `len` (R164). -/
def lenWord (entry : Option BitPath) : Word :=
  0#23 ++ BitVec.ofBool entry.isSome ++ BitVec.ofNat 8 (entry.getD []).length

/-- The response of `RDLEN`, for an index in range (R164). -/
def lenResponse (x : Operand) (s : State) : Option Word :=
  if tableIndexOk x then some (lenWord (codeRead s.code x.toNat)) else none

/-- `RDLEN s` (R164). -/
def execRdlen (x : Operand) (s : State) : Host.Outcome State Fault Refusal :=
  .next (runRead (.rdlen x) (lenResponse x s) s)

end Sys2Proof.Machine
end

