-- ==== Sys2Proof/Machine/Dispatch.lean ====
section
/-! DEFINITION. Machine/Dispatch.lean: one arm per command; each meaning makes its own checks (30_encoding.md R66). -/

namespace Sys2Proof.Machine

def exec (i : Instr) (s : State) : Host.Outcome State Fault Refusal :=
  match i with
  | .nop => Sys2Proof.Machine.execNop s
  | .clear => Sys2Proof.Machine.execClear s
  | .clrerr => Sys2Proof.Machine.execClrerr s
  | .count x => Sys2Proof.Machine.execCount x s
  | .build => Sys2Proof.Machine.execBuild s
  | .mktab => Sys2Proof.Machine.execMktab s
  | .enc x => Sys2Proof.Machine.execEnc x s
  | .decbit x => Sys2Proof.Machine.execDecbit x s
  | .decend => Sys2Proof.Machine.execDecend s
  | .decrst => Sys2Proof.Machine.execDecrst s
  | .rdreg x => Sys2Proof.Machine.execRdreg x s
  | .rdfreq x => Sys2Proof.Machine.execRdfreq x s
  | .rdnodel x => Sys2Proof.Machine.execRdnodel x s
  | .rdnodew x => Sys2Proof.Machine.execRdnodew x s
  | .rdlen x => Sys2Proof.Machine.execRdlen x s

end Sys2Proof.Machine
end

