-- ==== Sys2Proof/Machine/Step.lean ====
section
/-! DEFINITION. Machine/Step.lean: one step of the block: the host's next event (00_scope.md R6, 30_encoding.md R66,
70_reset_and_hazards.md R201). -/

namespace Sys2Proof.Machine

/-- `exec(w)` of R66 for any 32-bit word: an illegal word raises or is dropped; else its command runs. -/
def execWord (w : Word) (s : State) : Host.Outcome State Fault Refusal :=
  match decode w with
  | .ok i => exec i s
  | .error _ => .next (illegalWord w s)

/-- One step: the next event the host presents. With none pending the block holds its state (R190, log entry 1). -/
def step (s : State) : Host.Outcome State Fault Refusal :=
  match takeEvent s with
  | none => .next s
  | some (.cmd w, s') => execWord w s'
  | some (.rst, s') => .next (applyReset s')

/-- The state in which the host presents this word next (log entry 1). A command word is one 32-bit item and not
bytes (20_memory.md R42), so the table's bits are the word's bits and those above `nbits` are zero. -/
def State.withFetchWord (s : State) (nbits w : Nat) : State :=
  { s with hostIn := .cmd (BitVec.ofNat 32 (w % 2 ^ nbits)) :: s.hostIn }

end Sys2Proof.Machine
end

