-- ==== Sys2Proof/Machine/Macros.lean ====
section
/-! DEFINITION. Machine/Macros.lean: the host's macros (30_encoding.md R70, R71): each is a sequence of commands and
adds nothing to the block. -/

namespace Sys2Proof.Machine

/-- `COMPRESS T` (R70): the text is sent twice, once to count and once to encode. -/
def compressMacro (text : List Operand) : List Instr :=
  .clear :: text.map .count ++ [.build, .mktab] ++ text.map .enc

/-- `DECOMPRESS B` (R70). -/
def decompressMacro (bits : List Operand) : List Instr :=
  .decrst :: bits.map .decbit ++ [.decend]

/-- One round of `CODETABLE`: `RDLEN s`, and `ENC s` if the host read `valid = 1` (R70). -/
def codeTableEntry (answeredValid : Nat → Bool) (c : Nat) : List Instr :=
  if answeredValid c then [.rdlen (BitVec.ofNat 16 c), .enc (BitVec.ofNat 16 c)] else [.rdlen (BitVec.ofNat 16 c)]

/-- `CODETABLE` (R70), for the answers the host reads from `RDLEN` (log entry 16). -/
def codeTableMacro (answeredValid : Nat → Bool) : List Instr :=
  .mktab :: (List.range Config.alphabetSize).flatMap (codeTableEntry answeredValid)

/-- A text's symbols as `COUNT` and `ENC` operands. -/
def symbolOperands (text : List Symbol) : List Operand := text.map (·.setWidth 16)

/-- A bit-string's items as `DECBIT` operands (R61). -/
def bitOperands (bits : List Bool) : List Operand := bits.map fun b => if b then 1#16 else 0#16

end Sys2Proof.Machine
end

