-- ==== Sys2Proof/Safety.lean ====
section
/-! DEFINITION. Safety.lean: what claims are stated in terms of: the routes through the tree, the invariant of the
reachable states (10_state.md R32), and runs of commands (70_reset_and_hazards.md R209). -/

namespace Sys2Proof.Machine

/-- The node a path leads to from node `i`, if every node it leaves has children: "the unique route" of
43_codetable.md R121. -/
def route (node : List NodeRec) (i : Nat) : BitPath → Option Nat
  | [] => some i
  | b :: p => if isLeaf node i then none else route node (child node i b).toNat p

/-- The path leads from the root to a leaf that carries the symbol (43_codetable.md R121). -/
def LeadsToLeaf (s : State) (p : BitPath) (c : Nat) : Prop :=
  s.root ≠ Config.nil ∧
    ∃ l, route s.node s.root.toNat p = some l ∧ isLeaf s.node l = true ∧ (nodeRead s.node l).sym.toNat = c

/-- The symbols that appear at least once, ascending (41_count.md R90, 42_build.md R103). -/
def presentSymbols (freq : List (Nat × Weight)) : List Nat :=
  (List.range Config.alphabetSize).filter fun c => freqRead freq c != 0#32

/-- The sum of `FREQ[0..255]` (10_state.md R13). -/
def freqSum (freq : List (Nat × Weight)) : Nat :=
  ((List.range Config.alphabetSize).map fun c => (freqRead freq c).toNat).sum

/-- The number of leaves a frequency table gives, the filler included (R32 invariant 2). -/
def leafCount (freq : List (Nat × Weight)) : Nat :=
  if (presentSymbols freq).length = 1 then 2 else (presentSymbols freq).length

/-- R32 invariant 1: in phase `COLLECT` there is no tree and no table. -/
abbrev Inv.CollectEmpty (s : State) : Prop :=
  s.phase = .collect →
    s.nnodes = 0#10 ∧ s.nleaves = 0#9 ∧ s.root = Config.nil ∧ s.cur = Config.nil ∧ s.depth = 0#8 ∧
      s.filler = false ∧ s.fillsym = 0x00#8 ∧ s.code = []

/-- R32 invariant 2, and R17 on the filler: the sizes of the built tree follow from `FREQ`. -/
abbrev Inv.BuiltSizes (s : State) : Prop :=
  s.phase ≠ .collect →
    s.nleaves.toNat = leafCount s.freq ∧
      s.nnodes.toNat = (if s.nleaves.toNat = 0 then 0 else 2 * s.nleaves.toNat - 1) ∧
      (if s.nnodes.toNat = 0 then s.root = Config.nil else s.root.toNat = s.nnodes.toNat - 1) ∧
      s.filler = decide ((presentSymbols s.freq).length = 1) ∧
      s.fillsym = (if s.filler then (nodeRead s.node 1).sym else 0x00#8)

/-- R103: the leaves of the built tree are the symbols present, ascending, each with its count; `FREQ` is kept as
`BUILD` read it (R26). -/
abbrev Inv.LeavesOfFreq (s : State) : Prop :=
  s.phase ≠ .collect →
    ∀ k < (presentSymbols s.freq).length,
      (nodeRead s.node k).sym.toNat = (presentSymbols s.freq).getD k 0 ∧
        (nodeRead s.node k).weight = freqRead s.freq ((presentSymbols s.freq).getD k 0)

/-- R32 invariant 3, first part: leaves first, then internal nodes over lesser, distinct children (their `sym` is
written 0, R107). -/
abbrev Inv.NodeShape (s : State) : Prop :=
  ∀ i < s.nnodes.toNat,
    if i < s.nleaves.toNat then isLeaf s.node i = true
    else
      (nodeRead s.node i).left.toNat < i ∧ (nodeRead s.node i).right.toNat < i ∧
        (nodeRead s.node i).left ≠ (nodeRead s.node i).right ∧ (nodeRead s.node i).sym = 0x00#8 ∧
        (nodeRead s.node i).weight.toNat =
          (nodeRead s.node (nodeRead s.node i).left.toNat).weight.toNat +
            (nodeRead s.node (nodeRead s.node i).right.toNat).weight.toNat

/-- The internal nodes that have node `i` as a child. -/
def parents (s : State) (i : Nat) : List Nat :=
  (List.range s.nnodes.toNat).filter fun j =>
    !isLeaf s.node j && ((nodeRead s.node j).left.toNat == i || (nodeRead s.node j).right.toNat == i)

/-- R32 invariant 3, second part: each node but the root has one parent, the root has none. -/
abbrev Inv.OneParent (s : State) : Prop :=
  ∀ i < s.nnodes.toNat, (parents s i).length = (if i + 1 < s.nnodes.toNat then 1 else 0)

/-- R32 invariant 4: the bounds of the weights, and the root's weight. -/
abbrev Inv.Weights (s : State) : Prop :=
  (∀ i < s.nnodes.toNat,
    1 ≤ (nodeRead s.node i).weight.toNat ∧ (nodeRead s.node i).weight.toNat ≤ s.total.toNat + 1) ∧
    (s.root ≠ Config.nil →
      (nodeRead s.node s.root.toNat).weight.toNat = s.total.toNat + (if s.filler then 1 else 0))

/-- R32 invariant 5: the leaves' symbols are pairwise distinct. -/
abbrev Inv.LeafSymbols (s : State) : Prop :=
  ∀ i < s.nleaves.toNat, ∀ j < s.nleaves.toNat, (nodeRead s.node i).sym = (nodeRead s.node j).sym → i = j

/-- R32 invariant 6: no table before `READY`; in `READY` its keys are exactly the leaf symbols, each with a route
from the root to its leaf. -/
abbrev Inv.Table (s : State) : Prop :=
  (s.phase = .tree → s.code = []) ∧
    (s.phase = .ready →
      (∀ i < s.nleaves.toNat, (codeRead s.code (nodeRead s.node i).sym.toNat).isSome = true) ∧
        ∀ e ∈ s.code, ∃ l < s.nleaves.toNat,
          route s.node s.root.toNat e.2 = some l ∧ (nodeRead s.node l).sym.toNat = e.1)

/-- R32 invariant 7: the cursor is at the root, or at an internal node `DEPTH` steps below it. -/
def Inv.Cursor (s : State) : Prop :=
  (s.cur = s.root ∧ s.depth = 0#8) ∨
    (s.root ≠ Config.nil ∧ s.cur ≠ s.root ∧ s.cur ≠ Config.nil ∧ isLeaf s.node s.cur.toNat = false ∧
      ∃ p : BitPath, p.length = s.depth.toNat ∧ 1 ≤ p.length ∧
        route s.node s.root.toNat p = some s.cur.toNat)

/-- The invariant of the reachable states: 10_state.md R32, with the canonical form of the three memories and the
agreement of `NNODES` with the slots held (log entry 4). -/
structure Inv (s : State) : Prop where
  memory       : Memory.wf s
  slots        : s.node.length = s.nnodes.toNat
  collectEmpty : Inv.CollectEmpty s
  builtSizes   : Inv.BuiltSizes s
  leavesOfFreq : Inv.LeavesOfFreq s
  nodeShape    : Inv.NodeShape s
  oneParent    : Inv.OneParent s
  weights      : Inv.Weights s
  leafSymbols  : Inv.LeafSymbols s
  table        : Inv.Table s
  cursor       : Inv.Cursor s
  /-- R32 invariant 8, on `ERR` and `ERRINFO`. -/
  errInfo      : s.err = none ↔ s.errinfo = 0#32
  /-- R32 invariant 8, on `TOTAL`. -/
  totalSum     : s.total.toNat = freqSum s.freq
  /-- R32 invariant 8: `TOTAL` is at most `TOTAL_MAX`. -/
  totalMax     : s.total.toNat ≤ Config.totalMax
  /-- R32 invariant 9: the built tree never consists of one node. -/
  rootInternal : s.root ≠ Config.nil → isLeaf s.node s.root.toNat = false

/-- The state of the block without its streams and without what the host will present: what a later command can
depend on (10_state.md R30). -/
def State.block (s : State) : State := { s with respOut := [], bitOut := [], symOut := [], hostIn := [] }

/-- A run: commands executed one after another (00_scope.md R6, 70_reset_and_hazards.md R209). -/
def runCommands : List Instr → State → Host.Outcome State Fault Refusal
  | [], s => .next s
  | i :: is, s =>
    match exec i s with
    | .next t => runCommands is t
    | .fault r => .fault r
    | .refused r => .refused r

/-- A run that ended without a latched fault: the premise of claims about the macros' results (R176, R209). -/
def endedClean (s : State) : Bool := !latched s

end Sys2Proof.Machine
end

