-- ==== Sys2Proof/Certificates/Slice0/Obligations.lean ====
section
/-! DEFINITION. Certificates/Slice0/Obligations.lean: the statements for the provers, from the numbered rules of
spec/. A meaning's conclusion is always that `exec` answers a next state, said as an equation. -/

open Sys2Proof Sys2Proof.Machine

/-! ### Encoding (30_encoding.md) -/

/-- Decoding the word of a well-formed command gives the command, every operand at every value. -/
def Obligations.DecodeOfEncodeIsTheCommand : Prop :=
  ∀ i : Instr, i.wellFormed = true → decode (encode i) = .ok i

/-- A word that decodes is the word of its command: no two words spell one command. -/
def Obligations.EncodeOfDecodeIsTheWord : Prop :=
  ∀ (w : Word) (i : Instr), decode w = .ok i → i.wellFormed = true ∧ encode i = w

/-- R64: `legal(w)` is the six conditions, for every word and every `NNODES`. -/
def Obligations.LegalIffTheSixConditions : Prop :=
  ∀ (w : Word) (nnodes : BitVec 10),
    legal w nnodes = true ↔
      (w.extractLsb' 24 8 ∈ [0x00#8, 0x01#8, 0x02#8, 0x10#8, 0x11#8, 0x12#8, 0x20#8, 0x30#8, 0x31#8, 0x32#8,
        0x40#8, 0x41#8, 0x42#8, 0x43#8, 0x44#8]) ∧
      w.extractLsb' 16 8 = 0x00#8 ∧
      (w.extractLsb' 24 8 ∈ [0x00#8, 0x01#8, 0x02#8, 0x11#8, 0x12#8, 0x31#8, 0x32#8] →
        w.extractLsb' 0 16 = 0#16) ∧
      (w.extractLsb' 24 8 = 0x40#8 → (w.extractLsb' 0 16).toNat ≤ 10) ∧
      (w.extractLsb' 24 8 ∈ [0x41#8, 0x44#8] → (w.extractLsb' 0 16).toNat ≤ 255) ∧
      (w.extractLsb' 24 8 ∈ [0x42#8, 0x43#8] → (w.extractLsb' 0 16).toNat < nnodes.toNat)

/-- R62: a word spells a command iff it matches the command's row and the operand is in the range the word alone
decides; no word matches two rows. -/
def Obligations.WordSpellsTheRowItMatches : Prop :=
  (∀ (w : Word) (i : Instr),
    decode w = .ok i ↔
      (w &&& (if i.opcode ∈ [0x00#8, 0x01#8, 0x02#8, 0x11#8, 0x12#8, 0x31#8, 0x32#8] then 0xFFFFFFFF#32
          else 0xFFFF0000#32) = i.opcode.setWidth 32 <<< 24 ∧
        w.extractLsb' 0 16 = i.operand ∧ i.wellFormed = true)) ∧
    opcodeRows.length = 15 ∧
    ∀ (w : Word), ∀ r ∈ opcodeRows, ∀ r' ∈ opcodeRows, r.matches w = true → r'.matches w = true → r = r'

/-- R63 (the spec's inference): the word of a command is `(op << 24) | x`, and the listed words are the listed
commands'. -/
def Obligations.FullWordsOfTheCommands : Prop :=
  (∀ i : Instr, encode i = (i.opcode.setWidth 32 <<< 24) ||| i.operand.setWidth 32) ∧
    (∀ e ∈ [(0x00000000#32, Instr.nop), (0x01000000#32, .clear), (0x02000000#32, .clrerr),
      (0x10000061#32, .count 0x61#16), (0x11000000#32, .build), (0x12000000#32, .mktab),
      (0x20000061#32, .enc 0x61#16), (0x30000000#32, .decbit 0#16), (0x30000001#32, .decbit 1#16),
      (0x31000000#32, .decend), (0x32000000#32, .decrst), (0x40000001#32, .rdreg 1#16),
      (0x41000061#32, .rdfreq 0x61#16), (0x42000002#32, .rdnodel 2#16), (0x43000002#32, .rdnodew 2#16),
      (0x44000061#32, .rdlen 0x61#16)],
      (match decode e.1 with | .ok i => decide (i = e.2) | .error _ => false) = true ∧ encode e.2 = e.1)

/-- R67: every word that is not legal raises `IllegalCommand`, or is dropped while a fault is latched; that covers
the reserved opcodes, a non-zero `rsv`, an operand on a command without one and a read index out of range. A legal
word is one of the commands. -/
def Obligations.IllegalWordsRaiseOrAreDropped : Prop :=
  (∀ (s : State) (w : Word) (rest : List HostEvent), s.hostIn = .cmd w :: rest → legal w s.nnodes = false →
    step s = .next (if s.err = none
      then { s with hostIn := rest, err := some .illegalCommand, errinfo := w } else { s with hostIn := rest })) ∧
  (∀ (w : Word) (nnodes : BitVec 10),
    (w.extractLsb' 24 8 ∉ [0x00#8, 0x01#8, 0x02#8, 0x10#8, 0x11#8, 0x12#8, 0x20#8, 0x30#8, 0x31#8, 0x32#8,
        0x40#8, 0x41#8, 0x42#8, 0x43#8, 0x44#8] ∨
      w.extractLsb' 16 8 ≠ 0x00#8 ∨
      (w.extractLsb' 24 8 ∈ [0x00#8, 0x01#8, 0x02#8, 0x11#8, 0x12#8, 0x31#8, 0x32#8] ∧ w.extractLsb' 0 16 ≠ 0#16) ∨
      (w.extractLsb' 24 8 = 0x40#8 ∧ 10 < (w.extractLsb' 0 16).toNat) ∨
      (w.extractLsb' 24 8 ∈ [0x41#8, 0x44#8] ∧ 255 < (w.extractLsb' 0 16).toNat) ∨
      (w.extractLsb' 24 8 ∈ [0x42#8, 0x43#8] ∧ nnodes.toNat ≤ (w.extractLsb' 0 16).toNat)) →
    legal w nnodes = false) ∧
  ∀ (w : Word) (nnodes : BitVec 10), legal w nnodes = true → ∃ i : Instr, decode w = .ok i ∧ encode i = w

/-! ### The step (00_scope.md, 30_encoding.md, 70_reset_and_hazards.md) -/

/-- When the word the host presents next decodes, the step is `exec` of its command, the word taken. -/
def Obligations.StepRunsTheDecodedCommand : Prop :=
  ∀ (s : State) (w : Word) (rest : List HostEvent) (i : Instr),
    s.hostIn = .cmd w :: rest → decode w = .ok i → step s = exec i { s with hostIn := rest }

/-- Without a command word: with nothing presented the block holds its state (the model's own convention, log entry 1,
from R190), and `rst` puts every piece of state at its reset value, the streams kept (R200 to R202). -/
def Obligations.StepWithoutACommandHoldsOrResets : Prop :=
  (∀ s : State, s.hostIn = [] → step s = .next s) ∧
    ∀ (s : State) (rest : List HostEvent), s.hostIn = .rst :: rest →
      step s = .next { State.reset with
        respOut := s.respOut, bitOut := s.bitOut, symOut := s.symOut, hostIn := rest }

/-- R66's three branches: an illegal word raises or is dropped, a data-path command is dropped while a fault is
latched, and otherwise the command runs; every step answers a next state (R8). -/
def Obligations.StepFollowsTheExecRule : Prop :=
  ∀ (s : State) (w : Word) (rest : List HostEvent), s.hostIn = .cmd w :: rest →
    ∃ t, step s = .next t ∧
      ((legal w s.nnodes = false ∧ s.err = none ∧
          t = { s with hostIn := rest, err := some .illegalCommand, errinfo := w }) ∨
        (legal w s.nnodes = false ∧ s.err ≠ none ∧ t = { s with hostIn := rest }) ∨
        (legal w s.nnodes = true ∧ ∃ i, decode w = .ok i ∧
          ((isDataPath i = true ∧ s.err ≠ none ∧ t = { s with hostIn := rest }) ∨
            ((isDataPath i = false ∨ s.err = none) ∧ exec i { s with hostIn := rest } = .next t))))

/-- A run of the words of well-formed commands, one step each, is the run of the commands. -/
def Obligations.RunOfWordsRunsTheCommands : Prop :=
  ∀ (is : List Instr) (s : State), (∀ i ∈ is, i.wellFormed = true) → s.hostIn = [] →
    Host.Core.run Sys2Proof.core is.length { s with hostIn := is.map fun i => .cmd (encode i) } = runCommands is s

/-! ### Errors and the latch (60_exceptions.md) -/

/-- R170: the codes of the eight kinds, what raises each and why, and what `ERRINFO` then holds. -/
def Obligations.EachErrorHasItsCodeAndCause : Prop :=
  ([ErrorKind.alphabetOverflow, .symbolNotCoded, .malformedBit, .truncatedCode, .illegalCommand, .sequenceError,
      .countOverflow, .noDecodePath].map ErrorKind.code = [1#4, 2#4, 3#4, 4#4, 5#4, 6#4, 7#4, 8#4]) ∧
    (∀ s : State, (s.err = none ↔ errCode s = 0#4) ∧ (errCode s).toNat ≤ 8) ∧
    ∀ (s t : State) (w : Word) (rest : List HostEvent) (e : ErrorKind),
      s.hostIn = .cmd w :: rest → s.err = none → step s = .next t → t.err = some e →
        t.errinfo = w ∧
        match e with
        | .alphabetOverflow => ∃ x : Operand, 255 < x.toNat ∧ (decode w = .ok (.count x) ∨ decode w = .ok (.enc x))
        | .symbolNotCoded =>
          ∃ x : Operand, x.toNat ≤ 255 ∧ codeRead s.code x.toNat = none ∧ decode w = .ok (.enc x)
        | .malformedBit => ∃ x : Operand, 1 < x.toNat ∧ decode w = .ok (.decbit x)
        | .truncatedCode =>
          w = 0x31000000#32 ∧ s.cur ≠ s.root ∧
            (Inv s → ∃ p : BitPath, p.length = t.depth.toNat ∧ route s.node s.root.toNat p = some s.cur.toNat)
        | .illegalCommand => legal w s.nnodes = false
        | .sequenceError => ∃ i, decode w = .ok i ∧ isDataPath i = true ∧ permittedIn s.phase i = false
        | .countOverflow => ∃ x : Operand, decode w = .ok (.count x) ∧ s.total.toNat = 4294967294
        | .noDecodePath =>
          ∃ x : Operand, x.toNat ≤ 1 ∧ decode w = .ok (.decbit x) ∧
            (s.root = 0x1FF#9 ∨ isLeaf s.node s.root.toNat = true)

/-- R172 (the spec's inference): a command that raises has no effect but the two writes of R171. -/
def Obligations.FaultsArePrecise : Prop :=
  ∀ s t : State, step s = .next t → s.err = none → t.err ≠ none →
    ∃ (w : Word) (rest : List HostEvent) (e : ErrorKind),
      s.hostIn = .cmd w :: rest ∧ t = { s with hostIn := rest, err := some e, errinfo := w }

/-- R173: while a fault is latched data-path commands and illegal words are dropped, always-commands execute, and no
second error is recorded over the first. -/
def Obligations.LatchedFaultDropsAllButAlwaysCommands : Prop :=
  ∀ (s : State) (e : ErrorKind), s.err = some e →
    (∀ i, isDataPath i = true → exec i s = .next s) ∧
    (∀ (w : Word) (rest : List HostEvent), s.hostIn = .cmd w :: rest → legal w s.nnodes = false →
      step s = .next { s with hostIn := rest }) ∧
    exec .nop s = .next s ∧
    exec .clrerr s = .next { s with err := none, errinfo := 0#32 } ∧
    exec .clear s = .next { State.reset with
      respOut := s.respOut, bitOut := s.bitOut, symOut := s.symOut, hostIn := s.hostIn } ∧
    (∀ i, i.wellFormed = true → stateLegal s.nnodes i = true → isDataPath i = false →
      i ∉ [.nop, .clrerr, .clear] → ∃ v, exec i s = .next { s with respOut := s.respOut ++ [v] }) ∧
    ∀ t, step s = .next t → (t.err = some e ∧ t.errinfo = s.errinfo) ∨ t.err = none

/-- R174: `CLRERR`, `CLEAR` and reset clear the latch, and nothing else does; after `CLRERR` the block continues from
the state before the faulting command; reading `ERR` does not clear it. -/
def Obligations.OnlyClrerrClearAndResetUnlatch : Prop :=
  (∀ (s t : State) (e : ErrorKind), s.err = some e → step s = .next t →
    (t.err = none ↔ ∃ rest, s.hostIn = .cmd 0x02000000#32 :: rest ∨ s.hostIn = .cmd 0x01000000#32 :: rest ∨
      s.hostIn = .rst :: rest)) ∧
  (∀ (s : State) (e : ErrorKind) (w : Word), s.err = none → s.errinfo = 0#32 →
    exec .clrerr { s with err := some e, errinfo := w } = .next s) ∧
  (∀ s : State, exec .clear s = .next { State.reset with
    respOut := s.respOut, bitOut := s.bitOut, symOut := s.symOut, hostIn := s.hostIn }) ∧
  ∀ (s t : State) (x : Operand), exec (.rdreg x) s = .next t → t.err = s.err ∨ s.err = none

/-- R177: legality first, then the latch; with no fault latched, the error a command reports is that of its first
failing check, in the fixed order. -/
def Obligations.FirstFailingCheckIsReported : Prop :=
  (∀ (s t : State) (w : Word) (rest : List HostEvent), s.hostIn = .cmd w :: rest → legal w s.nnodes = false →
    step s = .next t → t.err = some (s.err.getD .illegalCommand)) ∧
  (∀ (i : Instr) (s t : State), s.err ≠ none → isDataPath i = true → exec i s = .next t → t.err = s.err) ∧
  ∀ (i : Instr) (s t : State), s.err = none → exec i s = .next t →
    t.err =
      match i with
      | .nop => none
      | .clear => none
      | .clrerr => none
      | .count x =>
        if s.phase ≠ .collect then some .sequenceError
        else if 255 < x.toNat then some .alphabetOverflow
        else if s.total.toNat = 4294967294 then some .countOverflow else none
      | .build => if s.phase ≠ .collect then some .sequenceError else none
      | .mktab => if s.phase = .collect then some .sequenceError else none
      | .enc x =>
        if s.phase ≠ .ready then some .sequenceError
        else if 255 < x.toNat then some .alphabetOverflow
        else if codeRead s.code x.toNat = none then some .symbolNotCoded else none
      | .decbit x =>
        if s.phase = .collect then some .sequenceError
        else if 1 < x.toNat then some .malformedBit
        else if s.root = 0x1FF#9 ∨ isLeaf s.node s.root.toNat = true then some .noDecodePath else none
      | .decend =>
        if s.phase = .collect then some .sequenceError
        else if s.cur ≠ s.root then some .truncatedCode else none
      | .decrst => if s.phase = .collect then some .sequenceError else none
      | .rdreg x => if 10 < x.toNat then some .illegalCommand else none
      | .rdfreq x => if 255 < x.toNat then some .illegalCommand else none
      | .rdnodel x => if s.nnodes.toNat ≤ x.toNat then some .illegalCommand else none
      | .rdnodew x => if s.nnodes.toNat ≤ x.toNat then some .illegalCommand else none
      | .rdlen x => if 255 < x.toNat then some .illegalCommand else none

/-- R178: out of its phases a data-path command raises `SequenceError` and does nothing else; in its phases it does
not raise it. -/
def Obligations.SequenceErrorByThePhaseTable : Prop :=
  ∀ (i : Instr) (s : State), s.err = none → isDataPath i = true →
    if (match i, s.phase with
      | .count _, .collect => true
      | .build, .collect => true
      | .mktab, .tree => true
      | .mktab, .ready => true
      | .enc _, .ready => true
      | .decbit _, .tree => true
      | .decbit _, .ready => true
      | .decend, .tree => true
      | .decend, .ready => true
      | .decrst, .tree => true
      | .decrst, .ready => true
      | _, _ => false) = true
    then ∀ t, exec i s = .next t → t.err ≠ some .sequenceError
    else exec i s = .next { s with err := some .sequenceError, errinfo := encode i }

/-- R181: `err` is a level equal to `ERR.CODE != 0`; it rises with the command that raises and falls with the
`CLRERR` or `CLEAR` that clears, or at reset. -/
def Obligations.ErrLineFollowsTheLatch : Prop :=
  (∀ s : State, errLine s = true ↔ (errWord s).extractLsb' 0 4 ≠ 0#4) ∧
    ∀ s t : State, step s = .next t →
      (errLine s = false → errLine t = true →
        ∃ w rest, s.hostIn = .cmd w :: rest ∧ t.errinfo = w ∧ t.err ≠ none) ∧
      (errLine s = true → errLine t = false →
        ∃ rest, s.hostIn = .cmd 0x02000000#32 :: rest ∨ s.hostIn = .cmd 0x01000000#32 :: rest ∨
          s.hostIn = .rst :: rest)

/-! ### Control (40_control.md) -/

/-- R80: `NOP` does nothing, also while a fault is latched; its word with an operand is illegal. -/
def Obligations.NopChangesNothing : Prop :=
  encode .nop = 0x00000000#32 ∧ (∀ s : State, exec .nop s = .next s) ∧
    ∀ (x : Operand) (nnodes : BitVec 10), x ≠ 0#16 → legal (x.setWidth 32) nnodes = false

/-- R82: `CLRERR` clears `ERR` and `ERRINFO` and changes no other state. -/
def Obligations.ClrerrClearsOnlyTheLatch : Prop :=
  encode .clrerr = 0x02000000#32 ∧
    (∀ s : State, exec .clrerr s = .next { s with err := none, errinfo := 0#32 }) ∧
    (∀ s : State, s.err = none → s.errinfo = 0#32 → exec .clrerr s = .next s) ∧
    (∀ s t : State, exec .clrerr s = .next t → errLine t = false ∧ (statusWord t).getLsbD 4 = false) ∧
    ∀ (s t u : State) (i : Instr), s.err = none → s.errinfo = 0#32 → exec i s = .next t → t.err ≠ none →
      exec .clrerr t = .next u → u = s

/-- R83 (the spec's inference): `CLEAR` and the `rst` input produce the same state. -/
def Obligations.ClearAndResetAgree : Prop :=
  ∀ (s : State) (rest : List HostEvent),
    exec .clear { s with hostIn := rest } = step { s with hostIn := .rst :: rest } ∧
      step { s with hostIn := .cmd 0x01000000#32 :: rest } = step { s with hostIn := .rst :: rest }

/-- R81: every piece of state `CLEAR` names, read through the model's reads, and what it leaves alone. -/
def Obligations.ClearWritesTheListedState : Prop :=
  encode .clear = 0x01000000#32 ∧
    ∀ s : State, ∃ t, exec .clear s = .next t ∧
      t.phase = .collect ∧ (∀ c, freqRead t.freq c = 0#32) ∧ t.total = 0#32 ∧ t.nnodes = 0#10 ∧ t.nleaves = 0#9 ∧
      t.root = 0x1FF#9 ∧ t.cur = 0x1FF#9 ∧ t.depth = 0#8 ∧ t.filler = false ∧ t.fillsym = 0x00#8 ∧
      (∀ c, codeRead t.code c = none) ∧ t.err = none ∧ t.errinfo = 0#32 ∧
      t.respOut = s.respOut ∧ t.bitOut = s.bitOut ∧ t.symOut = s.symOut ∧ t.hostIn = s.hostIn ∧
      statusWord t = 0#32 ∧ errLine t = false ∧ (s = State.reset → t = s) ∧ exec .clear t = .next t

/-- R33, R25: the reset values of the numbered registers, the memories and the error line. The empty streams and the
empty host queue are the model's power-on (log entry 1). -/
def Obligations.ResetStateHoldsTheListedValues : Prop :=
  (List.range 11).map (readRegister State.reset) =
      [some 0x48554601#32, some 0#32, some 0#32, some 0#32, some 0x1FF#32, some 0#32, some 0#32, some 0#32,
        some 0x1FF#32, some 0#32, some 0#32] ∧
    State.reset.phase = .collect ∧ State.reset.filler = false ∧ errLine State.reset = false ∧
    (∀ c, freqRead State.reset.freq c = 0#32) ∧ (∀ c, codeRead State.reset.code c = none) ∧ State.reset.node = []

/-! ### COUNT (41_count.md) -/

/-- R91: `COUNT s`, its word, its errors in their order, its effect, and all it leaves alone. -/
def Obligations.CountFollowsItsRule : Prop :=
  ∀ (s : State) (x : Operand),
    encode (.count x) = 0x10000000#32 ||| x.setWidth 32 ∧
    (s.err ≠ none → exec (.count x) s = .next s) ∧
    (s.err = none → s.phase ≠ .collect →
      exec (.count x) s = .next { s with err := some .sequenceError, errinfo := encode (.count x) }) ∧
    (s.err = none → s.phase = .collect → 255 < x.toNat →
      exec (.count x) s = .next { s with err := some .alphabetOverflow, errinfo := encode (.count x) }) ∧
    (s.err = none → s.phase = .collect → x.toNat ≤ 255 → s.total.toNat = 4294967294 →
      exec (.count x) s = .next { s with err := some .countOverflow, errinfo := encode (.count x) }) ∧
    (s.err = none → s.phase = .collect → x.toNat ≤ 255 → s.total.toNat ≠ 4294967294 →
      ∃ freq, exec (.count x) s = .next { s with freq := freq, total := s.total + 1#32 } ∧
        freqRead freq x.toNat = freqRead s.freq x.toNat + 1#32 ∧
        ∀ c, c ≠ x.toNat → freqRead freq c = freqRead s.freq c)

/-- R92: in a reachable state both additions of `COUNT` are exact. -/
def Obligations.CountAdditionsAreExact : Prop :=
  ∀ (s t : State) (x : Operand), Inv s → s.err = none → exec (.count x) s = .next t → t.err = none →
    (freqRead t.freq x.toNat).toNat = (freqRead s.freq x.toNat).toNat + 1 ∧
      t.total.toNat = s.total.toNat + 1 ∧ t.total.toNat ≤ 4294967294

/-- R90 (the spec's inference): counting the symbols of a text, in any order, leaves each symbol's number of
occurrences in `FREQ`. -/
def Obligations.CountingATextGivesItsFrequencies : Prop :=
  ∀ (s : State) (text : List Symbol), s.err = none → s.phase = .collect → s.freq = [] → s.total = 0#32 →
    text.length ≤ 4294967294 →
    ∃ t, runCommands ((symbolOperands text).map .count) s = .next t ∧
      (∀ c : Symbol, (freqRead t.freq c.toNat).toNat = text.count c) ∧
      (∀ c : Symbol, c ∈ text ↔ freqRead t.freq c.toNat ≠ 0#32) ∧
      t.total.toNat = text.length ∧ t = { s with freq := t.freq, total := t.total } ∧
      ∀ text' : List Symbol, text'.Perm text → runCommands ((symbolOperands text').map .count) s = .next t

/-! ### BUILD (42_build.md) -/

/-- R100: `BUILD`, its word, its one error, and the registers and memory it writes and no others. -/
def Obligations.BuildWritesOnlyTheTree : Prop :=
  encode .build = 0x11000000#32 ∧
    ∀ s : State,
      (s.err ≠ none → exec .build s = .next s) ∧
      (s.err = none → s.phase ≠ .collect →
        exec .build s = .next { s with err := some .sequenceError, errinfo := 0x11000000#32 }) ∧
      (s.err = none → s.phase = .collect →
        ∃ node nnodes nleaves root filler fillsym,
          exec .build s = .next { s with
            node := node, nnodes := nnodes, nleaves := nleaves, root := root, cur := root, depth := 0#8,
            filler := filler, fillsym := fillsym, phase := .tree })

/-- R103: the `k`-th smallest symbol present becomes `NODE[k]`; a symbol of count 0 gets no leaf. -/
def Obligations.LeafScanGoesInSymbolOrder : Prop :=
  ∀ s t : State, s.err = none → s.phase = .collect → exec .build s = .next t →
    (∀ k c : Nat, (presentSymbols s.freq)[k]? = some c →
      nodeRead t.node k =
        { weight := freqRead s.freq c, sym := BitVec.ofNat 8 c, left := 0x1FF#9, right := 0x1FF#9 }) ∧
    (t.filler = false → t.nleaves.toNat = (presentSymbols s.freq).length) ∧
    (presentSymbols s.freq).Pairwise (· < ·) ∧
    ∀ c, c ∈ presentSymbols s.freq ↔ c < 256 ∧ freqRead s.freq c ≠ 0#32

/-- R104: the filler, iff exactly one distinct symbol was counted: `NODE[1]`, weight 1, the lowest other symbol. -/
def Obligations.FillerOnlyForOneDistinctSymbol : Prop :=
  ∀ s t : State, s.err = none → s.phase = .collect → exec .build s = .next t →
    (∀ r, presentSymbols s.freq = [r] →
      nodeRead t.node 1 =
        { weight := 1#32, sym := if r = 0 then 0x01#8 else 0x00#8, left := 0x1FF#9, right := 0x1FF#9 } ∧
      t.filler = true ∧ t.fillsym = (if r = 0 then 0x01#8 else 0x00#8) ∧ t.nleaves = 2#9) ∧
    ((presentSymbols s.freq).length ≠ 1 → t.filler = false ∧ t.fillsym = 0x00#8) ∧
    (t.nnodes.toNat = 0 ∨ 2 ≤ t.nnodes.toNat)

/-- R106: the first node extracted, of least key, becomes the left child and the second the right child. -/
def Obligations.MergeJoinsTheTwoLeastKeys : Prop :=
  ∀ b : Builder, b.pq.Nodup → 2 ≤ b.pq.length →
    ∃ l r rest, b.pq.Perm (l :: r :: rest) ∧ keyLt b.node l r = true ∧ (∀ j ∈ rest, keyLt b.node r j = true) ∧
      (mergeStep b).node = b.node ++
        [{ weight := (nodeRead b.node l).weight + (nodeRead b.node r).weight, sym := 0x00#8,
           left := BitVec.ofNat 9 l, right := BitVec.ofNat 9 r }] ∧
      (mergeStep b).pq.Perm (b.node.length :: rest)

/-- R109's postconditions (the spec's inference): `BUILD` ends with one root: the sizes, the leaves, the internal
nodes, the root's weight, the cursor at the root and `CODE` still invalid. -/
def Obligations.BuildFinishesWithOneRoot : Prop :=
  ∀ s t : State, Inv s → s.err = none → s.phase = .collect → exec .build s = .next t →
    t.phase = .tree ∧ t.cur = t.root ∧ t.depth = 0#8 ∧ (∀ c, codeRead t.code c = none) ∧
    ((t.nleaves.toNat = 0 ∧ t.nnodes.toNat = 0 ∧ t.root = 0x1FF#9) ∨
      (2 ≤ t.nleaves.toNat ∧ t.nnodes.toNat = 2 * t.nleaves.toNat - 1 ∧ t.root.toNat = 2 * t.nleaves.toNat - 2 ∧
        (∀ i < t.nleaves.toNat, isLeaf t.node i = true) ∧
        (∀ i, t.nleaves.toNat ≤ i → i < t.nnodes.toNat → isLeaf t.node i = false) ∧
        (nodeRead t.node t.root.toNat).weight.toNat = t.total.toNat + (if t.filler then 1 else 0)))

/-- R111: the empty input gives the absent tree; a following `MKTAB` leaves every entry invalid, and an empty decode
succeeds without a tree. -/
def Obligations.EmptyInputGivesTheAbsentTree : Prop :=
  ∀ s : State, s.err = none → s.phase = .collect → (∀ c < 256, freqRead s.freq c = 0#32) →
    ∃ t u, exec .build s = .next t ∧
      t = { s with
        node := [], nnodes := 0#10, nleaves := 0#9, root := 0x1FF#9, cur := 0x1FF#9, depth := 0#8,
        filler := false, fillsym := 0x00#8, phase := .tree } ∧
      exec .mktab t = .next u ∧ (∀ c, codeRead u.code c = none) ∧ u.bitOut = s.bitOut ∧
      exec .decend t = .next t ∧ exec .decend u = .next u

/-- R113 (the spec's inference): the shape and the codes of the two-leaf trees: one distinct symbol with its filler,
or two symbols. -/
def Obligations.TwoLeafTreesHaveTheseCodes : Prop :=
  ∀ s t u : State, s.err = none → s.phase = .collect → exec .build s = .next t → exec .mktab t = .next u →
    (∀ r, presentSymbols s.freq = [r] →
      nodeRead t.node 0 = ⟨freqRead s.freq r, BitVec.ofNat 8 r, 0x1FF#9, 0x1FF#9⟩ ∧
      nodeRead t.node 1 = ⟨1#32, BitVec.ofNat 8 (if r = 0 then 1 else 0), 0x1FF#9, 0x1FF#9⟩ ∧
      (freqRead s.freq r = 1#32 →
        codeRead u.code r = some [false] ∧ codeRead u.code (if r = 0 then 1 else 0) = some [true]) ∧
      (2 ≤ (freqRead s.freq r).toNat →
        codeRead u.code (if r = 0 then 1 else 0) = some [false] ∧ codeRead u.code r = some [true])) ∧
    ∀ p q, presentSymbols s.freq = [p, q] →
      nodeRead t.node 0 = ⟨freqRead s.freq p, BitVec.ofNat 8 p, 0x1FF#9, 0x1FF#9⟩ ∧
      nodeRead t.node 1 = ⟨freqRead s.freq q, BitVec.ofNat 8 q, 0x1FF#9, 0x1FF#9⟩ ∧
      if (freqRead s.freq p).toNat ≤ (freqRead s.freq q).toNat
      then codeRead u.code p = some [false] ∧ codeRead u.code q = some [true]
      else codeRead u.code q = some [false] ∧ codeRead u.code p = some [true]

/-- R112: the tree is a function of the counts alone. -/
def Obligations.TreeDependsOnlyOnTheCounts : Prop :=
  ∀ s s' t t' : State, s.err = none → s.phase = .collect → s'.err = none → s'.phase = .collect →
    (∀ c < 256, freqRead s.freq c = freqRead s'.freq c) → exec .build s = .next t → exec .build s' = .next t' →
    t.node = t'.node ∧ t.nnodes = t'.nnodes ∧ t.nleaves = t'.nleaves ∧ t.root = t'.root ∧ t.cur = t'.cur ∧
      t.filler = t'.filler ∧ t.fillsym = t'.fillsym

/-- R112, optimality sanity: a symbol of strictly higher weight never has a longer code. -/
def Obligations.HeavierSymbolsHaveNoLongerCodes : Prop :=
  ∀ s t u : State, Inv s → s.err = none → s.phase = .collect → exec .build s = .next t → exec .mktab t = .next u →
    ∀ i j, i < t.nleaves.toNat → j < t.nleaves.toNat →
      (nodeRead t.node j).weight.toNat < (nodeRead t.node i).weight.toNat →
      ∃ p q, codeRead u.code (nodeRead t.node i).sym.toNat = some p ∧
        codeRead u.code (nodeRead t.node j).sym.toNat = some q ∧ p.length ≤ q.length

/-! ### MKTAB (43_codetable.md) -/

/-- R120: `MKTAB`, its word, its one error, and that it writes `CODE` and `PHASE` only. -/
def Obligations.MktabWritesOnlyTheTable : Prop :=
  encode .mktab = 0x12000000#32 ∧
    ∀ s : State,
      (s.err ≠ none → exec .mktab s = .next s) ∧
      (s.err = none → s.phase = .collect →
        exec .mktab s = .next { s with err := some .sequenceError, errinfo := 0x12000000#32 }) ∧
      (s.err = none → s.phase ≠ .collect →
        ∃ code, exec .mktab s = .next { s with code := code, phase := .ready } ∧
          (s.root = 0x1FF#9 → ∀ c, codeRead code c = none))

/-- R121: after `MKTAB` the keys are exactly the symbols of the leaves reached from the root, and each path is the
route to its leaf. -/
def Obligations.MktabStoresTheRoutesToTheLeaves : Prop :=
  ∀ s : State, Inv s → s.err = none → s.phase ≠ .collect →
    ∃ t, exec .mktab s = .next t ∧ ∀ (c : Nat) (p : BitPath), codeRead t.code c = some p ↔ LeadsToLeaf s p c

/-- R125 (the spec's inference): a later `MKTAB` without a `CLEAR` between writes the same table; the table is a
function of `NODE` and `ROOT` alone. -/
def Obligations.MktabIsIdempotent : Prop :=
  (∀ (s t u v : State) (is : List Instr), s.err = none → s.phase ≠ .collect → exec .mktab s = .next t →
    .clear ∉ is → runCommands is t = .next u →
      u.node = t.node ∧ u.root = t.root ∧ (exec .mktab u = .next v → v.code = t.code)) ∧
  ∀ s s' t t' : State, s.err = none → s.phase ≠ .collect → s'.err = none → s'.phase ≠ .collect →
    s.node = s'.node → s.root = s'.root → exec .mktab s = .next t → exec .mktab s' = .next t' → t.code = t'.code

/-- R126 (the spec's inference): no code is a prefix of another symbol's, every infinite bit sequence starts with
exactly one code, and the decoder never meets a bit it cannot follow. -/
def Obligations.CodesArePrefixFreeAndComplete : Prop :=
  ∀ s : State, Inv s → s.phase = .ready →
    (∀ (c d : Nat) (p q : BitPath), codeRead s.code c = some p → codeRead s.code d = some q → c ≠ d → ¬ p <+: q) ∧
      (s.root ≠ 0x1FF#9 → ∀ bits : Nat → Bool,
        ∃ c p, codeRead s.code c = some p ∧ p = (List.range p.length).map bits ∧
          ∀ d q, codeRead s.code d = some q → q = (List.range q.length).map bits → d = c) ∧
      (s.root ≠ 0x1FF#9 → s.err = none → ∀ (x : Operand) (t : State), x.toNat ≤ 1 →
        exec (.decbit x) s = .next t → t.err = none)

/-! ### ENC (44_encode.md) -/

/-- R130: `ENC s`, its word, its errors in their order, and that it only emits the symbol's path. -/
def Obligations.EncFollowsItsRule : Prop :=
  ∀ (s : State) (x : Operand),
    encode (.enc x) = 0x20000000#32 ||| x.setWidth 32 ∧
    (s.err ≠ none → exec (.enc x) s = .next s) ∧
    (s.err = none → s.phase ≠ .ready →
      exec (.enc x) s = .next { s with err := some .sequenceError, errinfo := encode (.enc x) }) ∧
    (s.err = none → s.phase = .ready → 255 < x.toNat →
      exec (.enc x) s = .next { s with err := some .alphabetOverflow, errinfo := encode (.enc x) }) ∧
    (s.err = none → s.phase = .ready → x.toNat ≤ 255 → codeRead s.code x.toNat = none →
      exec (.enc x) s = .next { s with err := some .symbolNotCoded, errinfo := encode (.enc x) }) ∧
    (∀ p, s.err = none → s.phase = .ready → x.toNat ≤ 255 → codeRead s.code x.toNat = some p →
      exec (.enc x) s = .next { s with bitOut := s.bitOut ++ p }) ∧
    (∀ p, Inv s → codeRead s.code x.toNat = some p → 1 ≤ p.length ∧ p.length ≤ 255) ∧
    (Inv s → s.root = 0x1FF#9 → codeRead s.code x.toNat = none) ∧
    (Inv s → s.phase = .ready → s.filler = true → codeRead s.code s.fillsym.toNat ≠ none)

/-- R134: with one distinct symbol the table has two keys, and the filler's is encodable, with a one-bit code. -/
def Obligations.FillerSymbolIsEncodable : Prop :=
  ∀ s : State, Inv s → s.err = none → s.phase = .ready → s.filler = true →
    (∃ r, presentSymbols s.freq = [r] ∧ r ≠ s.fillsym.toNat ∧
      ∀ c, (codeRead s.code c).isSome = true ↔ (c = r ∨ c = s.fillsym.toNat)) ∧
    ∃ b : Bool, exec (.enc (s.fillsym.setWidth 16)) s = .next { s with bitOut := s.bitOut ++ [b] }

/-! ### DECBIT, DECEND, DECRST (45_decode.md) -/

/-- R141: `DECBIT b`, its word, its errors in their order, its step at a leaf and at an internal node; in a reachable
state the walk is total. The bound `DEPTH <= 254` in the last clause is not R141's: it is the sentence of
10_state.md R20 ("It cannot exceed 254"), which the spec marks as its inference from R5. -/
def Obligations.DecbitFollowsItsRule : Prop :=
  ∀ (s : State) (x : Operand),
    encode (.decbit x) = 0x30000000#32 ||| x.setWidth 32 ∧
    (s.err ≠ none → exec (.decbit x) s = .next s) ∧
    (s.err = none → s.phase = .collect →
      exec (.decbit x) s = .next { s with err := some .sequenceError, errinfo := encode (.decbit x) }) ∧
    (s.err = none → s.phase ≠ .collect → 1 < x.toNat →
      exec (.decbit x) s = .next { s with err := some .malformedBit, errinfo := encode (.decbit x) }) ∧
    (s.err = none → s.phase ≠ .collect → x.toNat ≤ 1 →
      (s.root = 0x1FF#9 ∨ isLeaf s.node s.root.toNat = true) →
      exec (.decbit x) s = .next { s with err := some .noDecodePath, errinfo := encode (.decbit x) }) ∧
    (∀ nxt : NodeIndex, s.err = none → s.phase ≠ .collect → x.toNat ≤ 1 → s.root ≠ 0x1FF#9 →
      isLeaf s.node s.root.toNat = false →
      nxt = (if x = 0#16 then (nodeRead s.node s.cur.toNat).left else (nodeRead s.node s.cur.toNat).right) →
      exec (.decbit x) s = .next (if isLeaf s.node nxt.toNat = true
        then { s with symOut := s.symOut ++ [(nodeRead s.node nxt.toNat).sym], cur := s.root, depth := 0#8 }
        else { s with cur := nxt, depth := s.depth + 1#8 })) ∧
    (Inv s → s.root ≠ 0x1FF#9 →
      s.cur ≠ 0x1FF#9 ∧ isLeaf s.node s.cur.toNat = false ∧ s.depth.toNat ≤ 254 ∧
        ∀ b, child s.node s.cur.toNat b ≠ 0x1FF#9)

/-- R142: `DECEND`: a success changes nothing, `TruncatedCode` in the middle of a path; right after `BUILD` or
`DECRST`, and against the absent tree, it succeeds. -/
def Obligations.DecendFollowsItsRule : Prop :=
  encode .decend = 0x31000000#32 ∧
    ∀ s : State,
      (s.err ≠ none → exec .decend s = .next s) ∧
      (s.err = none → s.phase = .collect →
        exec .decend s = .next { s with err := some .sequenceError, errinfo := 0x31000000#32 }) ∧
      (s.err = none → s.phase ≠ .collect → s.cur ≠ s.root →
        exec .decend s = .next { s with err := some .truncatedCode, errinfo := 0x31000000#32 }) ∧
      (s.err = none → s.phase ≠ .collect → s.cur = s.root → exec .decend s = .next s) ∧
      (Inv s → s.err = none → s.phase ≠ .collect → s.root = 0x1FF#9 → exec .decend s = .next s) ∧
      ∀ i t, i = .build ∨ i = .decrst → exec i s = .next t → t.err = none → exec .decend t = .next t

/-- R143: `DECRST` puts the cursor at the root and changes nothing else. -/
def Obligations.DecrstPutsTheCursorAtTheRoot : Prop :=
  encode .decrst = 0x32000000#32 ∧
    ∀ s : State,
      (s.err ≠ none → exec .decrst s = .next s) ∧
      (s.err = none → s.phase = .collect →
        exec .decrst s = .next { s with err := some .sequenceError, errinfo := 0x32000000#32 }) ∧
      (s.err = none → s.phase ≠ .collect →
        exec .decrst s = .next { s with cur := s.root, depth := 0#8 } ∧
          ∀ t, exec .decrst s = .next t → (statusWord t).getLsbD 5 = false)

/-- R144 (the spec's inference): in a reachable state the leaf detector and the range of the leaves agree. -/
def Obligations.LeafDetectorAgreesWithTheLeafRange : Prop :=
  ∀ s : State, Inv s → ∀ i < s.nnodes.toNat, isLeaf s.node i = true ↔ i < s.nleaves.toNat

/-- R140, R145: feeding the decoder one symbol's code from a code boundary emits that symbol and ends at a code
boundary. -/
def Obligations.DecodingACodeEmitsItsSymbol : Prop :=
  ∀ (s : State) (c : Symbol) (p : BitPath), Inv s → s.err = none → s.phase = .ready → s.cur = s.root →
    codeRead s.code c.toNat = some p →
    runCommands ((bitOperands p).map .decbit) s = .next { s with symOut := s.symOut ++ [c] }

/-- R145, the round trip (the spec's inference): from any state, `COMPRESS T` and then `DECOMPRESS` of the bits it
emitted leave no fault and emit exactly `T`. -/
def Obligations.DecompressOfCompressIsTheText : Prop :=
  ∀ (s : State) (text : List Symbol), text.length ≤ 4294967294 →
    ∃ (t u : State) (bits : List Bool),
      runCommands (compressMacro (symbolOperands text)) s = .next t ∧ t.err = none ∧ t.bitOut = s.bitOut ++ bits ∧
      runCommands (decompressMacro (bitOperands bits)) t = .next u ∧ u.err = none ∧ u.symOut = t.symOut ++ text

/-- R136 (the spec's inference): an encoder command and a decoder command, neither of which faults, may be taken in
either order. -/
def Obligations.EncoderAndDecoderDoNotInterfere : Prop :=
  ∀ (s t u : State) (x : Operand) (d : Instr),
    d = .decend ∨ d = .decrst ∨ (∃ b, d = .decbit b) →
    exec (.enc x) s = .next t → t.err = none → exec d s = .next u → u.err = none →
    t = { s with bitOut := t.bitOut } ∧ u = { s with cur := u.cur, depth := u.depth, symOut := u.symOut } ∧
      exec d t = .next { u with bitOut := t.bitOut } ∧ exec (.enc x) u = .next { u with bitOut := t.bitOut }

/-! ### Read-back (46_readback.md, 10_state.md) -/

/-- R160: `RDREG r` emits register `r` and changes nothing else, in every phase and while a fault is latched; a number
above 10 is an illegal command. -/
def Obligations.RdregEmitsTheNumberedRegister : Prop :=
  (∀ x : Operand, encode (.rdreg x) = 0x40000000#32 ||| x.setWidth 32) ∧
    ∀ s : State,
      (∀ e ∈ [(0#16, 0x48554601#32), (1#16, statusWord s), (2#16, errWord s), (3#16, s.errinfo),
        (4#16, s.root.setWidth 32), (5#16, s.nnodes.setWidth 32), (6#16, s.nleaves.setWidth 32), (7#16, s.total),
        (8#16, s.cur.setWidth 32), (9#16, s.depth.setWidth 32), (10#16, s.fillsym.setWidth 32)],
        exec (.rdreg e.1) s = .next { s with respOut := s.respOut ++ [e.2] }) ∧
      ∀ x : Operand, 10 < x.toNat →
        exec (.rdreg x) s = .next (if s.err = none
          then { s with err := some .illegalCommand, errinfo := encode (.rdreg x) } else s)

/-- R24: the bits of `STATUS`. -/
def Obligations.StatusBitsAreComputed : Prop :=
  (∀ s : State,
    (statusWord s).extractLsb' 0 2 =
      (match s.phase with | .collect => 0#2 | .tree => 1#2 | .ready => 2#2) ∧
    ((statusWord s).getLsbD 2 = true ↔ s.root ≠ 0x1FF#9) ∧
    (statusWord s).getLsbD 3 = s.filler ∧
    ((statusWord s).getLsbD 4 = true ↔ errCode s ≠ 0#4) ∧
    ((statusWord s).getLsbD 5 = true ↔ s.cur ≠ s.root) ∧
    (statusWord s).extractLsb' 6 26 = 0#26 ∧
    exec (.rdreg 1#16) s = .next { s with respOut := s.respOut ++ [statusWord s] }) ∧
    statusWord State.reset = 0x00000000#32

/-- R161: `RDFREQ s` emits `FREQ[s]` and changes nothing else; after `BUILD` it still gives the counts; an index above
255 is an illegal command. -/
def Obligations.RdfreqEmitsTheCount : Prop :=
  ∀ (s : State) (x : Operand),
    encode (.rdfreq x) = 0x41000000#32 ||| x.setWidth 32 ∧
    (x.toNat ≤ 255 →
      exec (.rdfreq x) s = .next { s with respOut := s.respOut ++ [freqRead s.freq x.toNat] }) ∧
    (255 < x.toNat →
      exec (.rdfreq x) s = .next (if s.err = none
        then { s with err := some .illegalCommand, errinfo := encode (.rdfreq x) } else s)) ∧
    ∀ t, exec .build s = .next t → freqRead t.freq x.toNat = freqRead s.freq x.toNat

/-- R162: `RDNODEL i` emits the node's links, symbol and leaf bit, each in its place, and changes nothing else. -/
def Obligations.RdnodelEmitsTheLinks : Prop :=
  ∀ (s : State) (x : Operand),
    encode (.rdnodel x) = 0x42000000#32 ||| x.setWidth 32 ∧
    (x.toNat < s.nnodes.toNat → ∃ v : Word,
      exec (.rdnodel x) s = .next { s with respOut := s.respOut ++ [v] } ∧
        v.extractLsb' 0 9 = (nodeRead s.node x.toNat).left ∧ v.extractLsb' 9 9 = (nodeRead s.node x.toNat).right ∧
        v.extractLsb' 18 8 = (nodeRead s.node x.toNat).sym ∧ v.getLsbD 26 = isLeaf s.node x.toNat ∧
        v.extractLsb' 27 5 = 0#5) ∧
    (s.nnodes.toNat ≤ x.toNat →
      exec (.rdnodel x) s = .next (if s.err = none
        then { s with err := some .illegalCommand, errinfo := encode (.rdnodel x) } else s)) ∧
    (x.toNat < s.nnodes.toNat → isLeaf s.node x.toNat = true →
      exec (.rdnodel x) s = .next { s with respOut := s.respOut ++
        [0x04000000#32 ||| ((nodeRead s.node x.toNat).sym.setWidth 32 <<< 18) ||| 0x3FFFF#32] }) ∧
    (Inv s → x.toNat < s.nnodes.toNat → isLeaf s.node x.toNat = false → (nodeRead s.node x.toNat).sym = 0x00#8)

/-- R163: `RDNODEW i` emits the node's weight and changes nothing else. -/
def Obligations.RdnodewEmitsTheWeight : Prop :=
  ∀ (s : State) (x : Operand),
    encode (.rdnodew x) = 0x43000000#32 ||| x.setWidth 32 ∧
    (x.toNat < s.nnodes.toNat →
      exec (.rdnodew x) s = .next { s with respOut := s.respOut ++ [(nodeRead s.node x.toNat).weight] }) ∧
    (s.nnodes.toNat ≤ x.toNat →
      exec (.rdnodew x) s = .next (if s.err = none
        then { s with err := some .illegalCommand, errinfo := encode (.rdnodew x) } else s))

/-- R164: `RDLEN s` emits `valid` and `len`, each in its place, and changes nothing else; before `READY` every symbol
reads 0. -/
def Obligations.RdlenEmitsValidAndLen : Prop :=
  ∀ (s : State) (x : Operand),
    encode (.rdlen x) = 0x44000000#32 ||| x.setWidth 32 ∧
    (x.toNat ≤ 255 → ∃ v : Word,
      exec (.rdlen x) s = .next { s with respOut := s.respOut ++ [v] } ∧
        v.extractLsb' 9 23 = 0#23 ∧ v.getLsbD 8 = (codeRead s.code x.toNat).isSome ∧
        (codeRead s.code x.toNat = none → v = 0#32) ∧
        (Inv s → ∀ p, codeRead s.code x.toNat = some p → (v.extractLsb' 0 8).toNat = p.length) ∧
        (Inv s → s.phase ≠ .ready → v = 0#32)) ∧
    (255 < x.toNat →
      exec (.rdlen x) s = .next (if s.err = none
        then { s with err := some .illegalCommand, errinfo := encode (.rdlen x) } else s))

/-! ### Rules over all commands (10_state.md, 20_memory.md) -/

/-- R12 to R22, R26 to R28, R30: each register, memory and stream changes only by the commands its rule names. -/
def Obligations.EachStateHasItsWriters : Prop :=
  ∀ (i : Instr) (s t : State), exec i s = .next t →
    (t.phase ≠ s.phase → i ∈ [.build, .mktab, .clear]) ∧
    (t.total ≠ s.total → i = .clear ∨ ∃ x, i = .count x) ∧
    (t.nnodes ≠ s.nnodes ∨ t.nleaves ≠ s.nleaves ∨ t.root ≠ s.root ∨ t.filler ≠ s.filler ∨
      t.fillsym ≠ s.fillsym ∨ t.node ≠ s.node → i ∈ [.build, .clear]) ∧
    (t.cur ≠ s.cur ∨ t.depth ≠ s.depth → i ∈ [.build, .decrst, .clear] ∨ ∃ x, i = .decbit x) ∧
    ((t.err ≠ s.err ∨ t.errinfo ≠ s.errinfo) → i ∈ [.clear, .clrerr] ∨ (s.err = none ∧ t.errinfo = encode i)) ∧
    (∀ c, freqRead t.freq c ≠ freqRead s.freq c → i = .clear ∨ ∃ x, i = .count x ∧ x.toNat = c) ∧
    (∀ c, codeRead t.code c ≠ codeRead s.code c → i ∈ [.mktab, .clear]) ∧
    (t.respOut ≠ s.respOut → ∃ x, i ∈ [.rdreg x, .rdfreq x, .rdnodel x, .rdnodew x, .rdlen x]) ∧
    (t.bitOut ≠ s.bitOut → ∃ x, i = .enc x) ∧
    (t.symOut ≠ s.symOut → ∃ x, i = .decbit x) ∧
    t.hostIn = s.hostIn

/-- R30, R51: a step only appends to the streams, to at most one of them, and nothing when it latches a fault or finds
one latched by anything but a read. -/
def Obligations.StreamsOnlyGrow : Prop :=
  ∀ s t : State, step s = .next t →
    ∃ (r : List Word) (b : List Bool) (y : List Symbol),
      t.respOut = s.respOut ++ r ∧ t.bitOut = s.bitOut ++ b ∧ t.symOut = s.symOut ++ y ∧
      r.length ≤ 1 ∧ y.length ≤ 1 ∧
      ((b = [] ∧ y = []) ∨ (r = [] ∧ y = []) ∨ (r = [] ∧ b = [])) ∧
      (t.err ≠ s.err → r = [] ∧ b = [] ∧ y = []) ∧ (s.err ≠ none → b = [] ∧ y = [])

/-- R30: no command's behaviour depends on what was emitted, nor on what the host will present: two states that agree
on the block change alike and emit alike. -/
def Obligations.BehaviourIgnoresTheStreams : Prop :=
  ∀ (i : Instr) (s s' t t' : State), s.block = s'.block → exec i s = .next t → exec i s' = .next t' →
    t.block = t'.block ∧
      ∃ (r : List Word) (b : List Bool) (y : List Symbol),
        t.respOut = s.respOut ++ r ∧ t'.respOut = s'.respOut ++ r ∧ t.bitOut = s.bitOut ++ b ∧
        t'.bitOut = s'.bitOut ++ b ∧ t.symOut = s.symOut ++ y ∧ t'.symOut = s'.symOut ++ y

/-- Every step keeps the canonical form of `FREQ` and `CODE` (the model's representation, log entries 5 and 6). -/
def Obligations.StepKeepsTheTablesCanonical : Prop :=
  ∀ s t : State, freqWf s.freq → tableWf 256 s.code → step s = .next t → freqWf t.freq ∧ tableWf 256 t.code

/-! ### The invariant (10_state.md R32) -/

/-- The reset state meets the invariant. -/
def Obligations.ResetStateMeetsTheInvariant : Prop := Inv State.reset

/-- From every state that meets the invariant, a step gives a state that meets it. -/
def Obligations.StepKeepsTheInvariant : Prop :=
  ∀ s t : State, Inv s → step s = .next t → Inv t

/-- R32 (the spec's inference): the invariant holds after reset and after every command, in every state reached from
reset whatever the host presents. -/
def Obligations.ReachableStatesMeetTheInvariant : Prop :=
  ∀ (n : Nat) (events : List HostEvent) (t : State),
    Host.Core.run Sys2Proof.core n { State.reset with hostIn := events } = .next t → Inv t
end

