-- ==== Sys2Proof/Laws/Memory.lean ====
section
/-! SUPPORT. Laws/Memory.lean: the laws of the whole-entry memories (20_memory.md R40, R48): a read after a write gives
the value written, a write leaves every other entry alone, and every operation keeps the canonical form. -/

namespace Sys2Proof.Machine

section Tables

variable {β : Type}

theorem tableFind_tableInsert (m : List (Nat × β)) (j k : Nat) (v : β) :
    tableFind (tableInsert m j v) k = if k = j then some v else tableFind m k := by
  induction m with
  | nil => simp [tableInsert, tableFind]
  | cons e m ih =>
    obtain ⟨a, u⟩ := e
    unfold tableInsert
    split
    · simp [tableFind]
    · split
      · next h => subst h; simp only [tableFind]; split <;> rfl
      · next hne =>
        simp only [tableFind, ih]
        by_cases hka : k = a
        · subst hka
          have : k ≠ j := fun h => hne h.symm
          simp [this]
        · simp [hka]

theorem tableFind_tableErase (m : List (Nat × β)) (j k : Nat) :
    tableFind (tableErase m j) k = if k = j then none else tableFind m k := by
  induction m with
  | nil => simp [tableErase, tableFind]
  | cons e m ih =>
    obtain ⟨a, u⟩ := e
    simp only [tableErase, List.filter_cons] at ih ⊢
    by_cases haj : a = j
    · subst haj
      simp only [bne_self_eq_false, Bool.false_eq_true, if_false, ih, tableFind]
      by_cases hk : k = a <;> simp [hk]
    · simp only [bne_iff_ne, ne_eq, haj, not_false_eq_true, if_true, tableFind, ih]
      by_cases hka : k = a
      · subst hka; simp [haj]
      · simp [hka]

theorem tableFind_mem {m : List (Nat × β)} {k : Nat} {v : β} (h : tableFind m k = some v) : (k, v) ∈ m := by
  induction m with
  | nil => simp [tableFind] at h
  | cons e m ih =>
    obtain ⟨a, u⟩ := e
    simp only [tableFind] at h
    split at h
    · next hk => subst hk; simp_all
    · exact List.mem_cons_of_mem _ (ih h)

theorem mem_tableInsert {m : List (Nat × β)} {j : Nat} {v : β} {e : Nat × β} (h : e ∈ tableInsert m j v) :
    e = (j, v) ∨ e ∈ m := by
  induction m with
  | nil => simpa [tableInsert] using h
  | cons a m ih =>
    obtain ⟨a, u⟩ := a
    unfold tableInsert at h
    split at h
    · simpa using h
    · split at h
      · rcases List.mem_cons.1 h with h | h
        · exact .inl h
        · exact .inr (List.mem_cons_of_mem _ h)
      · rcases List.mem_cons.1 h with h | h
        · exact .inr (h ▸ List.mem_cons_self ..)
        · exact (ih h).imp id (List.mem_cons_of_mem _)

theorem tableInsert_rising {m : List (Nat × β)} (j : Nat) (v : β)
    (h : (m.map Prod.fst).Pairwise (· < ·)) : ((tableInsert m j v).map Prod.fst).Pairwise (· < ·) := by
  induction m with
  | nil => simp [tableInsert]
  | cons e m ih =>
    obtain ⟨a, u⟩ := e
    simp only [List.map_cons, List.pairwise_cons] at h
    unfold tableInsert
    split
    · next hja =>
      simp only [List.map_cons, List.pairwise_cons]
      refine ⟨fun k hk => ?_, h⟩
      rcases List.mem_cons.1 hk with rfl | hk
      · exact hja
      · exact Nat.lt_trans hja (h.1 k hk)
    · split
      · next hja => subst hja; simpa using h
      · next hlt hne =>
        simp only [List.map_cons, List.pairwise_cons]
        refine ⟨fun k hk => ?_, ih h.2⟩
        obtain ⟨e, he, rfl⟩ := List.mem_map.1 hk
        rcases mem_tableInsert he with rfl | he
        · show a < j
          omega
        · exact h.1 _ (List.mem_map_of_mem he)

/-- Writing an entry keeps the canonical form. -/
theorem tableInsert_wf {bound : Nat} {m : List (Nat × β)} (h : tableWf bound m) {j : Nat} (hj : j < bound) (v : β) :
    tableWf bound (tableInsert m j v) :=
  ⟨tableInsert_rising j v h.1, fun e he => by
    rcases mem_tableInsert he with rfl | he
    · exact hj
    · exact h.2 e he⟩

/-- Removing an entry keeps the canonical form. -/
theorem tableErase_wf {bound : Nat} {m : List (Nat × β)} (h : tableWf bound m) (j : Nat) :
    tableWf bound (tableErase m j) :=
  ⟨h.1.sublist (List.filter_sublist.map _), fun e he => h.2 e (List.mem_filter.1 he).1⟩

/-- In canonical form an entry is listed iff reading its index gives it. -/
theorem mem_iff_tableFind {bound : Nat} {m : List (Nat × β)} (h : tableWf bound m) (k : Nat) (v : β) :
    (k, v) ∈ m ↔ tableFind m k = some v := by
  refine ⟨fun hm => ?_, tableFind_mem⟩
  have hr := h.1
  clear h
  induction m with
  | nil => simp at hm
  | cons e m ih =>
    obtain ⟨a, u⟩ := e
    simp only [List.map_cons, List.pairwise_cons] at hr
    simp only [tableFind]
    rcases List.mem_cons.1 hm with hm | hm
    · cases hm; simp
    · have hlt := hr.1 k (List.mem_map_of_mem (f := Prod.fst) hm)
      rw [if_neg (by omega)]
      exact ih hm hr.2

theorem tableFind_none_of_lt {m : List (Nat × β)} {k : Nat} (h : ∀ j ∈ m.map Prod.fst, k < j) :
    tableFind m k = none := by
  cases hf : tableFind m k with
  | none => rfl
  | some v => exact absurd (h k (List.mem_map_of_mem (f := Prod.fst) (tableFind_mem hf))) (Nat.lt_irrefl k)

/-- Two tables with rising indices that read the same are equal: equal memories are equal data. -/
theorem table_ext {m m' : List (Nat × β)} (h : (m.map Prod.fst).Pairwise (· < ·))
    (h' : (m'.map Prod.fst).Pairwise (· < ·)) (hr : ∀ k, tableFind m k = tableFind m' k) : m = m' := by
  induction m generalizing m' with
  | nil =>
    cases m' with
    | nil => rfl
    | cons e m' => have := hr e.1; simp [tableFind] at this
  | cons e m ih =>
    cases m' with
    | nil => have := hr e.1; simp [tableFind] at this
    | cons e' m' =>
      obtain ⟨a, u⟩ := e
      obtain ⟨b, v⟩ := e'
      simp only [List.map_cons, List.pairwise_cons] at h h'
      have hab : a = b := by
        rcases Nat.lt_trichotomy a b with hlt | heq | hgt
        · have hn : tableFind ((b, v) :: m') a = none := tableFind_none_of_lt fun j hj => by
            rcases List.mem_cons.1 hj with rfl | hj
            · exact hlt
            · exact Nat.lt_trans hlt (h'.1 j hj)
          have hra := hr a
          rw [hn] at hra
          simp [tableFind] at hra
        · exact heq
        · have hn : tableFind ((a, u) :: m) b = none := tableFind_none_of_lt fun j hj => by
            rcases List.mem_cons.1 hj with rfl | hj
            · exact hgt
            · exact Nat.lt_trans hgt (h.1 j hj)
          have hrb := hr b
          rw [hn] at hrb
          simp [tableFind] at hrb
      subst hab
      have huv : u = v := by simpa [tableFind] using hr a
      subst huv
      rw [ih h.2 h'.2 fun k => ?_]
      have := hr k
      simp only [tableFind] at this
      by_cases hk : k = a
      · subst hk
        rw [tableFind_none_of_lt h.1, tableFind_none_of_lt h'.1]
      · simpa [hk] using this

end Tables

/-- `FREQ`: a read after a write (20_memory.md R48). -/
theorem freqRead_freqWrite (m : List (Nat × Weight)) (c k : Nat) (v : Weight) :
    freqRead (freqWrite m c v) k = if k = c then v else freqRead m k := by
  unfold freqRead freqWrite
  split
  · next hv =>
    rw [tableFind_tableErase]
    split <;> simp [hv]
  · rw [tableFind_tableInsert]
    split <;> simp

/-- Frequency tables in canonical form with the same counts are equal. -/
theorem freq_ext {m m' : List (Nat × Weight)} (h : freqWf m) (h' : freqWf m')
    (hr : ∀ c, freqRead m c = freqRead m' c) : m = m' := by
  refine table_ext h.1.1 h'.1.1 fun k => ?_
  have hk := hr k
  unfold freqRead at hk
  cases hf : tableFind m k with
  | none =>
    cases hf' : tableFind m' k with
    | none => rfl
    | some v => rw [hf, hf'] at hk; exact absurd hk.symm (h'.2 _ (tableFind_mem hf'))
  | some u =>
    cases hf' : tableFind m' k with
    | none => rw [hf, hf'] at hk; exact absurd hk (h.2 _ (tableFind_mem hf))
    | some v => rw [hf, hf'] at hk; exact congrArg some hk

/-- A write keeps `FREQ` in canonical form. -/
theorem freqWrite_wf {m : List (Nat × Weight)} (h : freqWf m) {c : Nat} (hc : c < Config.alphabetSize) (v : Weight) :
    freqWf (freqWrite m c v) := by
  unfold freqWrite
  split
  · exact ⟨tableErase_wf h.1 c, fun e he => h.2 e (List.mem_filter.1 he).1⟩
  · next hv =>
    refine ⟨tableInsert_wf h.1 hc v, fun e he => ?_⟩
    rcases mem_tableInsert he with rfl | he
    · exact hv
    · exact h.2 e he

/-- `CODE`: a read after a write (20_memory.md R48). -/
theorem codeRead_codeWrite (m : List (Nat × BitPath)) (c k : Nat) (p : BitPath) :
    codeRead (codeWrite m c p) k = if k = c then some p else codeRead m k :=
  tableFind_tableInsert m c k p

/-- A write keeps `CODE` in canonical form. -/
theorem codeWrite_wf {m : List (Nat × BitPath)} (h : codeWf m) {c : Nat} (hc : c < Config.alphabetSize) {p : BitPath}
    (hp : p.length ≤ Config.maxLen) : codeWf (codeWrite m c p) := by
  refine ⟨tableInsert_wf h.1 hc p, fun e he => ?_⟩
  rcases mem_tableInsert he with rfl | he
  · exact hp
  · exact h.2 e he

/-- `NODE`: a slot just allocated reads as the record written. -/
theorem nodeRead_append_self (node : List NodeRec) (n : NodeRec) : nodeRead (node ++ [n]) node.length = n := by
  simp [nodeRead]

/-- `NODE`: allocating a slot leaves the ones before it alone. -/
theorem nodeRead_append_of_lt {node : List NodeRec} {i : Nat} (h : i < node.length) (n : NodeRec) :
    nodeRead (node ++ [n]) i = nodeRead node i := by
  simp [nodeRead, List.getElem?_append_left h]

theorem reset_memory_wf : Memory.wf State.reset := by decide

end Sys2Proof.Machine
end

