-- ==== Sys2Proof/Laws/State.lean ====
section
/-! SUPPORT. Laws/State.lean: one lemma per field per state update, so that no later proof unfolds an update. -/

namespace Sys2Proof.Machine

variable (s : State)

/-! ### raise -/

@[simp] theorem raise_phase (e : ErrorKind) (w : Word) : (raise e w s).phase = s.phase := rfl
@[simp] theorem raise_total (e : ErrorKind) (w : Word) : (raise e w s).total = s.total := rfl
@[simp] theorem raise_nnodes (e : ErrorKind) (w : Word) : (raise e w s).nnodes = s.nnodes := rfl
@[simp] theorem raise_nleaves (e : ErrorKind) (w : Word) : (raise e w s).nleaves = s.nleaves := rfl
@[simp] theorem raise_root (e : ErrorKind) (w : Word) : (raise e w s).root = s.root := rfl
@[simp] theorem raise_filler (e : ErrorKind) (w : Word) : (raise e w s).filler = s.filler := rfl
@[simp] theorem raise_fillsym (e : ErrorKind) (w : Word) : (raise e w s).fillsym = s.fillsym := rfl
@[simp] theorem raise_cur (e : ErrorKind) (w : Word) : (raise e w s).cur = s.cur := rfl
@[simp] theorem raise_depth (e : ErrorKind) (w : Word) : (raise e w s).depth = s.depth := rfl
@[simp] theorem raise_err (e : ErrorKind) (w : Word) : (raise e w s).err = some e := rfl
@[simp] theorem raise_errinfo (e : ErrorKind) (w : Word) : (raise e w s).errinfo = w := rfl
@[simp] theorem raise_freq (e : ErrorKind) (w : Word) : (raise e w s).freq = s.freq := rfl
@[simp] theorem raise_node (e : ErrorKind) (w : Word) : (raise e w s).node = s.node := rfl
@[simp] theorem raise_code (e : ErrorKind) (w : Word) : (raise e w s).code = s.code := rfl
@[simp] theorem raise_respOut (e : ErrorKind) (w : Word) : (raise e w s).respOut = s.respOut := rfl
@[simp] theorem raise_bitOut (e : ErrorKind) (w : Word) : (raise e w s).bitOut = s.bitOut := rfl
@[simp] theorem raise_symOut (e : ErrorKind) (w : Word) : (raise e w s).symOut = s.symOut := rfl
@[simp] theorem raise_hostIn (e : ErrorKind) (w : Word) : (raise e w s).hostIn = s.hostIn := rfl

/-! ### clearLatch -/

@[simp] theorem clearLatch_phase : (clearLatch s).phase = s.phase := rfl
@[simp] theorem clearLatch_total : (clearLatch s).total = s.total := rfl
@[simp] theorem clearLatch_nnodes : (clearLatch s).nnodes = s.nnodes := rfl
@[simp] theorem clearLatch_nleaves : (clearLatch s).nleaves = s.nleaves := rfl
@[simp] theorem clearLatch_root : (clearLatch s).root = s.root := rfl
@[simp] theorem clearLatch_filler : (clearLatch s).filler = s.filler := rfl
@[simp] theorem clearLatch_fillsym : (clearLatch s).fillsym = s.fillsym := rfl
@[simp] theorem clearLatch_cur : (clearLatch s).cur = s.cur := rfl
@[simp] theorem clearLatch_depth : (clearLatch s).depth = s.depth := rfl
@[simp] theorem clearLatch_err : (clearLatch s).err = none := rfl
@[simp] theorem clearLatch_errinfo : (clearLatch s).errinfo = 0#32 := rfl
@[simp] theorem clearLatch_freq : (clearLatch s).freq = s.freq := rfl
@[simp] theorem clearLatch_node : (clearLatch s).node = s.node := rfl
@[simp] theorem clearLatch_code : (clearLatch s).code = s.code := rfl
@[simp] theorem clearLatch_respOut : (clearLatch s).respOut = s.respOut := rfl
@[simp] theorem clearLatch_bitOut : (clearLatch s).bitOut = s.bitOut := rfl
@[simp] theorem clearLatch_symOut : (clearLatch s).symOut = s.symOut := rfl
@[simp] theorem clearLatch_hostIn : (clearLatch s).hostIn = s.hostIn := rfl

/-! ### emitResp -/

@[simp] theorem emitResp_phase (v : Word) : (emitResp v s).phase = s.phase := rfl
@[simp] theorem emitResp_total (v : Word) : (emitResp v s).total = s.total := rfl
@[simp] theorem emitResp_nnodes (v : Word) : (emitResp v s).nnodes = s.nnodes := rfl
@[simp] theorem emitResp_nleaves (v : Word) : (emitResp v s).nleaves = s.nleaves := rfl
@[simp] theorem emitResp_root (v : Word) : (emitResp v s).root = s.root := rfl
@[simp] theorem emitResp_filler (v : Word) : (emitResp v s).filler = s.filler := rfl
@[simp] theorem emitResp_fillsym (v : Word) : (emitResp v s).fillsym = s.fillsym := rfl
@[simp] theorem emitResp_cur (v : Word) : (emitResp v s).cur = s.cur := rfl
@[simp] theorem emitResp_depth (v : Word) : (emitResp v s).depth = s.depth := rfl
@[simp] theorem emitResp_err (v : Word) : (emitResp v s).err = s.err := rfl
@[simp] theorem emitResp_errinfo (v : Word) : (emitResp v s).errinfo = s.errinfo := rfl
@[simp] theorem emitResp_freq (v : Word) : (emitResp v s).freq = s.freq := rfl
@[simp] theorem emitResp_node (v : Word) : (emitResp v s).node = s.node := rfl
@[simp] theorem emitResp_code (v : Word) : (emitResp v s).code = s.code := rfl
@[simp] theorem emitResp_respOut (v : Word) : (emitResp v s).respOut = s.respOut ++ [v] := rfl
@[simp] theorem emitResp_bitOut (v : Word) : (emitResp v s).bitOut = s.bitOut := rfl
@[simp] theorem emitResp_symOut (v : Word) : (emitResp v s).symOut = s.symOut := rfl
@[simp] theorem emitResp_hostIn (v : Word) : (emitResp v s).hostIn = s.hostIn := rfl

/-! ### emitBits -/

@[simp] theorem emitBits_phase (p : BitPath) : (emitBits p s).phase = s.phase := rfl
@[simp] theorem emitBits_total (p : BitPath) : (emitBits p s).total = s.total := rfl
@[simp] theorem emitBits_nnodes (p : BitPath) : (emitBits p s).nnodes = s.nnodes := rfl
@[simp] theorem emitBits_nleaves (p : BitPath) : (emitBits p s).nleaves = s.nleaves := rfl
@[simp] theorem emitBits_root (p : BitPath) : (emitBits p s).root = s.root := rfl
@[simp] theorem emitBits_filler (p : BitPath) : (emitBits p s).filler = s.filler := rfl
@[simp] theorem emitBits_fillsym (p : BitPath) : (emitBits p s).fillsym = s.fillsym := rfl
@[simp] theorem emitBits_cur (p : BitPath) : (emitBits p s).cur = s.cur := rfl
@[simp] theorem emitBits_depth (p : BitPath) : (emitBits p s).depth = s.depth := rfl
@[simp] theorem emitBits_err (p : BitPath) : (emitBits p s).err = s.err := rfl
@[simp] theorem emitBits_errinfo (p : BitPath) : (emitBits p s).errinfo = s.errinfo := rfl
@[simp] theorem emitBits_freq (p : BitPath) : (emitBits p s).freq = s.freq := rfl
@[simp] theorem emitBits_node (p : BitPath) : (emitBits p s).node = s.node := rfl
@[simp] theorem emitBits_code (p : BitPath) : (emitBits p s).code = s.code := rfl
@[simp] theorem emitBits_respOut (p : BitPath) : (emitBits p s).respOut = s.respOut := rfl
@[simp] theorem emitBits_bitOut (p : BitPath) : (emitBits p s).bitOut = s.bitOut ++ p := rfl
@[simp] theorem emitBits_symOut (p : BitPath) : (emitBits p s).symOut = s.symOut := rfl
@[simp] theorem emitBits_hostIn (p : BitPath) : (emitBits p s).hostIn = s.hostIn := rfl

/-! ### emitSym -/

@[simp] theorem emitSym_phase (v : Symbol) : (emitSym v s).phase = s.phase := rfl
@[simp] theorem emitSym_total (v : Symbol) : (emitSym v s).total = s.total := rfl
@[simp] theorem emitSym_nnodes (v : Symbol) : (emitSym v s).nnodes = s.nnodes := rfl
@[simp] theorem emitSym_nleaves (v : Symbol) : (emitSym v s).nleaves = s.nleaves := rfl
@[simp] theorem emitSym_root (v : Symbol) : (emitSym v s).root = s.root := rfl
@[simp] theorem emitSym_filler (v : Symbol) : (emitSym v s).filler = s.filler := rfl
@[simp] theorem emitSym_fillsym (v : Symbol) : (emitSym v s).fillsym = s.fillsym := rfl
@[simp] theorem emitSym_cur (v : Symbol) : (emitSym v s).cur = s.cur := rfl
@[simp] theorem emitSym_depth (v : Symbol) : (emitSym v s).depth = s.depth := rfl
@[simp] theorem emitSym_err (v : Symbol) : (emitSym v s).err = s.err := rfl
@[simp] theorem emitSym_errinfo (v : Symbol) : (emitSym v s).errinfo = s.errinfo := rfl
@[simp] theorem emitSym_freq (v : Symbol) : (emitSym v s).freq = s.freq := rfl
@[simp] theorem emitSym_node (v : Symbol) : (emitSym v s).node = s.node := rfl
@[simp] theorem emitSym_code (v : Symbol) : (emitSym v s).code = s.code := rfl
@[simp] theorem emitSym_respOut (v : Symbol) : (emitSym v s).respOut = s.respOut := rfl
@[simp] theorem emitSym_bitOut (v : Symbol) : (emitSym v s).bitOut = s.bitOut := rfl
@[simp] theorem emitSym_symOut (v : Symbol) : (emitSym v s).symOut = s.symOut ++ [v] := rfl
@[simp] theorem emitSym_hostIn (v : Symbol) : (emitSym v s).hostIn = s.hostIn := rfl

/-! ### cursorToRoot -/

@[simp] theorem cursorToRoot_phase : (cursorToRoot s).phase = s.phase := rfl
@[simp] theorem cursorToRoot_total : (cursorToRoot s).total = s.total := rfl
@[simp] theorem cursorToRoot_nnodes : (cursorToRoot s).nnodes = s.nnodes := rfl
@[simp] theorem cursorToRoot_nleaves : (cursorToRoot s).nleaves = s.nleaves := rfl
@[simp] theorem cursorToRoot_root : (cursorToRoot s).root = s.root := rfl
@[simp] theorem cursorToRoot_filler : (cursorToRoot s).filler = s.filler := rfl
@[simp] theorem cursorToRoot_fillsym : (cursorToRoot s).fillsym = s.fillsym := rfl
@[simp] theorem cursorToRoot_cur : (cursorToRoot s).cur = s.root := rfl
@[simp] theorem cursorToRoot_depth : (cursorToRoot s).depth = 0#8 := rfl
@[simp] theorem cursorToRoot_err : (cursorToRoot s).err = s.err := rfl
@[simp] theorem cursorToRoot_errinfo : (cursorToRoot s).errinfo = s.errinfo := rfl
@[simp] theorem cursorToRoot_freq : (cursorToRoot s).freq = s.freq := rfl
@[simp] theorem cursorToRoot_node : (cursorToRoot s).node = s.node := rfl
@[simp] theorem cursorToRoot_code : (cursorToRoot s).code = s.code := rfl
@[simp] theorem cursorToRoot_respOut : (cursorToRoot s).respOut = s.respOut := rfl
@[simp] theorem cursorToRoot_bitOut : (cursorToRoot s).bitOut = s.bitOut := rfl
@[simp] theorem cursorToRoot_symOut : (cursorToRoot s).symOut = s.symOut := rfl
@[simp] theorem cursorToRoot_hostIn : (cursorToRoot s).hostIn = s.hostIn := rfl

/-! ### applyReset -/

@[simp] theorem applyReset_phase : (applyReset s).phase = State.reset.phase := rfl
@[simp] theorem applyReset_total : (applyReset s).total = State.reset.total := rfl
@[simp] theorem applyReset_nnodes : (applyReset s).nnodes = State.reset.nnodes := rfl
@[simp] theorem applyReset_nleaves : (applyReset s).nleaves = State.reset.nleaves := rfl
@[simp] theorem applyReset_root : (applyReset s).root = State.reset.root := rfl
@[simp] theorem applyReset_filler : (applyReset s).filler = State.reset.filler := rfl
@[simp] theorem applyReset_fillsym : (applyReset s).fillsym = State.reset.fillsym := rfl
@[simp] theorem applyReset_cur : (applyReset s).cur = State.reset.cur := rfl
@[simp] theorem applyReset_depth : (applyReset s).depth = State.reset.depth := rfl
@[simp] theorem applyReset_err : (applyReset s).err = State.reset.err := rfl
@[simp] theorem applyReset_errinfo : (applyReset s).errinfo = State.reset.errinfo := rfl
@[simp] theorem applyReset_freq : (applyReset s).freq = State.reset.freq := rfl
@[simp] theorem applyReset_node : (applyReset s).node = State.reset.node := rfl
@[simp] theorem applyReset_code : (applyReset s).code = State.reset.code := rfl
@[simp] theorem applyReset_respOut : (applyReset s).respOut = s.respOut := rfl
@[simp] theorem applyReset_bitOut : (applyReset s).bitOut = s.bitOut := rfl
@[simp] theorem applyReset_symOut : (applyReset s).symOut = s.symOut := rfl
@[simp] theorem applyReset_hostIn : (applyReset s).hostIn = s.hostIn := rfl

/-! ### countSymbol -/

@[simp] theorem countSymbol_phase (c : Nat) : (countSymbol c s).phase = s.phase := rfl
@[simp] theorem countSymbol_total (c : Nat) : (countSymbol c s).total = s.total + 1#32 := rfl
@[simp] theorem countSymbol_nnodes (c : Nat) : (countSymbol c s).nnodes = s.nnodes := rfl
@[simp] theorem countSymbol_nleaves (c : Nat) : (countSymbol c s).nleaves = s.nleaves := rfl
@[simp] theorem countSymbol_root (c : Nat) : (countSymbol c s).root = s.root := rfl
@[simp] theorem countSymbol_filler (c : Nat) : (countSymbol c s).filler = s.filler := rfl
@[simp] theorem countSymbol_fillsym (c : Nat) : (countSymbol c s).fillsym = s.fillsym := rfl
@[simp] theorem countSymbol_cur (c : Nat) : (countSymbol c s).cur = s.cur := rfl
@[simp] theorem countSymbol_depth (c : Nat) : (countSymbol c s).depth = s.depth := rfl
@[simp] theorem countSymbol_err (c : Nat) : (countSymbol c s).err = s.err := rfl
@[simp] theorem countSymbol_errinfo (c : Nat) : (countSymbol c s).errinfo = s.errinfo := rfl
@[simp] theorem countSymbol_freq (c : Nat) : (countSymbol c s).freq = freqWrite s.freq c (freqRead s.freq c + 1#32) :=
  rfl
@[simp] theorem countSymbol_node (c : Nat) : (countSymbol c s).node = s.node := rfl
@[simp] theorem countSymbol_code (c : Nat) : (countSymbol c s).code = s.code := rfl
@[simp] theorem countSymbol_respOut (c : Nat) : (countSymbol c s).respOut = s.respOut := rfl
@[simp] theorem countSymbol_bitOut (c : Nat) : (countSymbol c s).bitOut = s.bitOut := rfl
@[simp] theorem countSymbol_symOut (c : Nat) : (countSymbol c s).symOut = s.symOut := rfl
@[simp] theorem countSymbol_hostIn (c : Nat) : (countSymbol c s).hostIn = s.hostIn := rfl

/-! ### buildEffect -/

@[simp] theorem buildEffect_phase : (buildEffect s).phase = .tree := rfl
@[simp] theorem buildEffect_total : (buildEffect s).total = s.total := rfl
@[simp] theorem buildEffect_nnodes : (buildEffect s).nnodes = BitVec.ofNat 10 (buildTree s.freq).node.length := rfl
@[simp] theorem buildEffect_nleaves : (buildEffect s).nleaves = BitVec.ofNat 9 (buildLeaves s.freq).node.length := rfl
@[simp] theorem buildEffect_root : (buildEffect s).root = builtRoot (buildTree s.freq) := rfl
@[simp] theorem buildEffect_filler : (buildEffect s).filler = (buildLeaves s.freq).filler := rfl
@[simp] theorem buildEffect_fillsym : (buildEffect s).fillsym = (buildLeaves s.freq).fillsym := rfl
@[simp] theorem buildEffect_cur : (buildEffect s).cur = builtRoot (buildTree s.freq) := rfl
@[simp] theorem buildEffect_depth : (buildEffect s).depth = 0#8 := rfl
@[simp] theorem buildEffect_err : (buildEffect s).err = s.err := rfl
@[simp] theorem buildEffect_errinfo : (buildEffect s).errinfo = s.errinfo := rfl
@[simp] theorem buildEffect_freq : (buildEffect s).freq = s.freq := rfl
@[simp] theorem buildEffect_node : (buildEffect s).node = (buildTree s.freq).node := rfl
@[simp] theorem buildEffect_code : (buildEffect s).code = s.code := rfl
@[simp] theorem buildEffect_respOut : (buildEffect s).respOut = s.respOut := rfl
@[simp] theorem buildEffect_bitOut : (buildEffect s).bitOut = s.bitOut := rfl
@[simp] theorem buildEffect_symOut : (buildEffect s).symOut = s.symOut := rfl
@[simp] theorem buildEffect_hostIn : (buildEffect s).hostIn = s.hostIn := rfl

/-! ### mktabEffect -/

@[simp] theorem mktabEffect_phase : (mktabEffect s).phase = .ready := rfl
@[simp] theorem mktabEffect_total : (mktabEffect s).total = s.total := rfl
@[simp] theorem mktabEffect_nnodes : (mktabEffect s).nnodes = s.nnodes := rfl
@[simp] theorem mktabEffect_nleaves : (mktabEffect s).nleaves = s.nleaves := rfl
@[simp] theorem mktabEffect_root : (mktabEffect s).root = s.root := rfl
@[simp] theorem mktabEffect_filler : (mktabEffect s).filler = s.filler := rfl
@[simp] theorem mktabEffect_fillsym : (mktabEffect s).fillsym = s.fillsym := rfl
@[simp] theorem mktabEffect_cur : (mktabEffect s).cur = s.cur := rfl
@[simp] theorem mktabEffect_depth : (mktabEffect s).depth = s.depth := rfl
@[simp] theorem mktabEffect_err : (mktabEffect s).err = s.err := rfl
@[simp] theorem mktabEffect_errinfo : (mktabEffect s).errinfo = s.errinfo := rfl
@[simp] theorem mktabEffect_freq : (mktabEffect s).freq = s.freq := rfl
@[simp] theorem mktabEffect_node : (mktabEffect s).node = s.node := rfl
@[simp] theorem mktabEffect_code : (mktabEffect s).code = makeTable s.node s.root := rfl
@[simp] theorem mktabEffect_respOut : (mktabEffect s).respOut = s.respOut := rfl
@[simp] theorem mktabEffect_bitOut : (mktabEffect s).bitOut = s.bitOut := rfl
@[simp] theorem mktabEffect_symOut : (mktabEffect s).symOut = s.symOut := rfl
@[simp] theorem mktabEffect_hostIn : (mktabEffect s).hostIn = s.hostIn := rfl

end Sys2Proof.Machine
end

