-- ==== Sys2Proof/Laws/Build.lean ====
section
/-! SUPPORT. Laws/Build.lean: what the priority queue's operations and the builder's allocation do
(42_build.md R101, R102, R107). -/

namespace Sys2Proof.Machine

theorem keyLt_iff (node : List NodeRec) (i j : Nat) :
    keyLt node i j = true ↔
      (nodeRead node i).weight.toNat < (nodeRead node j).weight.toNat ∨
        ((nodeRead node i).weight.toNat = (nodeRead node j).weight.toNat ∧ i < j) := by
  simp [keyLt, BitVec.toNat_inj]

/-- `key` is a strict order (R101). -/
theorem keyLt_irrefl (node : List NodeRec) (i : Nat) : keyLt node i i = false := by
  rw [Bool.eq_false_iff]
  intro h
  rw [keyLt_iff] at h
  omega

theorem keyLt_trans {node : List NodeRec} {i j k : Nat} (h : keyLt node i j = true) (h' : keyLt node j k = true) :
    keyLt node i k = true := by
  rw [keyLt_iff] at *
  omega

/-- `key` is total on distinct indices, so the minimum is unique (R101). -/
theorem keyLt_total {node : List NodeRec} {i j : Nat} (h : i ≠ j) : keyLt node i j = true ∨ keyLt node j i = true := by
  rw [keyLt_iff, keyLt_iff]
  omega

theorem leastKey_mem (node : List NodeRec) (i : Nat) (q : List Nat) : leastKey node i q ∈ i :: q := by
  induction q generalizing i with
  | nil => simp [leastKey]
  | cons j q ih =>
    unfold leastKey
    split
    · exact List.mem_cons_of_mem _ (ih j)
    · rcases List.mem_cons.1 (ih i) with h | h
      · rw [h]; exact List.mem_cons_self ..
      · exact List.mem_cons_of_mem _ (List.mem_cons_of_mem _ h)

theorem leastKey_le (node : List NodeRec) (i : Nat) (q : List Nat) :
    ∀ j ∈ i :: q, j = leastKey node i q ∨ keyLt node (leastKey node i q) j = true := by
  induction q generalizing i with
  | nil => simp [leastKey]
  | cons k q ih =>
    intro j hj
    unfold leastKey
    split
    · next hki =>
      rcases List.mem_cons.1 hj with rfl | hj
      · rcases ih k k (List.mem_cons_self ..) with h | h
        · exact .inr (h ▸ hki)
        · exact .inr (keyLt_trans h hki)
      · exact ih k j hj
    · next hki =>
      rcases List.mem_cons.1 hj with rfl | hj
      · exact ih j j (List.mem_cons_self ..)
      rcases List.mem_cons.1 hj with rfl | hj
      · by_cases hji : j = i
        · subst hji; exact ih j j (List.mem_cons_self ..)
        · have hij : keyLt node i j = true := (keyLt_total hji).resolve_left hki
          rcases ih i i (List.mem_cons_self ..) with h | h
          · exact .inr (h ▸ hij)
          · exact .inr (keyLt_trans h hij)
      · exact ih i j (List.mem_cons_of_mem _ hj)

/-- `pq_extract_min()` answers unless the queue is empty, and then with the index of least key, removed (R102). -/
theorem pqExtractMin_cases (node : List NodeRec) (pq : List Nat) :
    (pq = [] ∧ pqExtractMin node pq = none) ∨
    (∃ i rest, pqExtractMin node pq = some (i, rest) ∧ pq.Perm (i :: rest) ∧
      ∀ j ∈ pq, j = i ∨ keyLt node i j = true) := by
  cases pq with
  | nil => exact .inl ⟨rfl, rfl⟩
  | cons i q =>
    exact .inr ⟨_, _, rfl, List.perm_cons_erase (leastKey_mem node i q), leastKey_le node i q⟩

/-- A merge on two or more indices: the two least keys leave the queue, their parent is allocated (R107). -/
theorem mergeStep_cases (b : Builder) (h : 1 < b.pq.length) :
    ∃ l r rest, b.pq.Perm (l :: r :: rest) ∧
      (∀ j ∈ b.pq, j = l ∨ keyLt b.node l j = true) ∧ (∀ j ∈ r :: rest, j = r ∨ keyLt b.node r j = true) ∧
      mergeStep b = allocate (mergedNode b.node l r) { b with pq := rest } := by
  rcases pqExtractMin_cases b.node b.pq with ⟨he, -⟩ | ⟨l, q, hl, hp, hmin⟩
  · simp [he] at h
  rcases pqExtractMin_cases b.node q with ⟨rfl, -⟩ | ⟨r, rest, hr, hp', hmin'⟩
  · have := hp.length_eq
    simp at this
    omega
  refine ⟨l, r, rest, hp.trans (hp'.cons l), hmin, fun j hj => hmin' j (hp'.symm.subset hj), ?_⟩
  unfold mergeStep
  rw [hl]
  simp only
  rw [hr]

/-- A merge lowers the number of indices held by one (R105). -/
theorem mergeStep_pq_length (b : Builder) (h : 1 < b.pq.length) : (mergeStep b).pq.length + 1 = b.pq.length := by
  obtain ⟨l, r, rest, hp, -, -, he⟩ := mergeStep_cases b h
  rw [he, hp.length_eq]
  simp [allocate, pqInsert]

/-- A merge allocates one slot (R107). -/
theorem mergeStep_node_length (b : Builder) (h : 1 < b.pq.length) :
    (mergeStep b).node.length = b.node.length + 1 := by
  obtain ⟨l, r, rest, -, -, -, he⟩ := mergeStep_cases b h
  rw [he]
  simp [allocate]

/-- The loop with enough rounds leaves at most one index, after one merge for each index more (R105, R110). -/
theorem mergeLoop_sizes (fuel : Nat) (b : Builder) (h : b.pq.length ≤ fuel + 1) :
    (mergeLoop fuel b).pq.length = min b.pq.length 1 ∧
      (mergeLoop fuel b).node.length = b.node.length + (b.pq.length - 1) := by
  induction fuel generalizing b with
  | zero => simp only [mergeLoop]; omega
  | succ fuel ih =>
    unfold mergeLoop
    split
    · next hgt =>
      have h1 := mergeStep_pq_length b hgt
      have h2 := mergeStep_node_length b hgt
      have := ih (mergeStep b) (by omega)
      omega
    · omega

end Sys2Proof.Machine
end

