-- ==== Sys2Proof/Laws/Decode.lean ====
section
/-! SUPPORT. Laws/Decode.lean: the fields of an encoded command, and the decoder's answers taken apart once. -/

namespace Sys2Proof

/-- A command's word, bit by bit (30_encoding.md R60). -/
theorem encode_getLsbD (i : Instr) (k : Nat) :
    (encode i).getLsbD k =
      if k < 16 then i.operand.getLsbD k else if k < 24 then false else i.opcode.getLsbD (k - 24) := by
  have h : (encode i).getLsbD k = (i.opcode ++ 0#8 ++ i.operand : BitVec (8 + 8 + 16)).getLsbD k := rfl
  rw [h, BitVec.getLsbD_append, BitVec.getLsbD_append]
  by_cases h1 : k < 16
  · simp [h1]
  · by_cases h2 : k < 24
    · simp [h1, h2, show k - 16 < 8 by omega]
    · simp [h1, h2, show ¬ k - 16 < 8 by omega, show k - 16 - 8 = k - 24 by omega]

@[simp] theorem opField_encode (i : Instr) : opField (encode i) = i.opcode := by
  apply BitVec.eq_of_getLsbD_eq
  intro k hk
  simp [opField, encode_getLsbD, hk, show ¬ 24 + k < 16 by omega, show ¬ 24 + k < 24 by omega]

@[simp] theorem rsvField_encode (i : Instr) : rsvField (encode i) = 0#8 := by
  apply BitVec.eq_of_getLsbD_eq
  intro k hk
  simp [rsvField, encode_getLsbD, show ¬ 16 + k < 16 by omega, show 16 + k < 24 by omega]

@[simp] theorem xField_encode (i : Instr) : xField (encode i) = i.operand := by
  apply BitVec.eq_of_getLsbD_eq
  intro k hk
  simp [xField, encode_getLsbD, hk]

theorem decodeBare_ok {i j : Instr} {x : Operand} (h : decodeBare i x = .ok j) : j = i ∧ x = 0#16 := by
  unfold decodeBare at h
  split at h
  · cases h; exact ⟨rfl, ‹_›⟩
  · cases h

theorem decodeRanged_ok {r : Bool} {why : Illegal} {i j : Instr} (h : decodeRanged r why i = .ok j) :
    j = i ∧ r = true := by
  unfold decodeRanged at h
  split at h
  · cases h; exact ⟨rfl, ‹_›⟩
  · cases h

theorem ite_ok {c : Prop} [Decidable c] {a b : Except Illegal Instr} {i : Instr}
    (h : (if c then a else b) = .ok i) : (c ∧ a = .ok i) ∨ (¬ c ∧ b = .ok i) := by
  by_cases hc : c
  · exact .inl ⟨hc, by rwa [if_pos hc] at h⟩
  · exact .inr ⟨hc, by rwa [if_neg hc] at h⟩

/-- What the opcode map has checked when it answers a command (R62). -/
theorem decodeOp_ok {op : BitVec 8} {x : Operand} {i : Instr} (h : decodeOp op x = .ok i) :
    op = i.opcode ∧ x = i.operand ∧ i.wellFormed = true := by
  unfold decodeOp at h
  rcases ite_ok h with ⟨ho, h⟩ | ⟨-, h⟩
  · obtain ⟨rfl, hx⟩ := decodeBare_ok h; exact ⟨ho, hx, rfl⟩
  rcases ite_ok h with ⟨ho, h⟩ | ⟨-, h⟩
  · obtain ⟨rfl, hx⟩ := decodeBare_ok h; exact ⟨ho, hx, rfl⟩
  rcases ite_ok h with ⟨ho, h⟩ | ⟨-, h⟩
  · obtain ⟨rfl, hx⟩ := decodeBare_ok h; exact ⟨ho, hx, rfl⟩
  rcases ite_ok h with ⟨ho, h⟩ | ⟨-, h⟩
  · cases h; exact ⟨ho, rfl, rfl⟩
  rcases ite_ok h with ⟨ho, h⟩ | ⟨-, h⟩
  · obtain ⟨rfl, hx⟩ := decodeBare_ok h; exact ⟨ho, hx, rfl⟩
  rcases ite_ok h with ⟨ho, h⟩ | ⟨-, h⟩
  · obtain ⟨rfl, hx⟩ := decodeBare_ok h; exact ⟨ho, hx, rfl⟩
  rcases ite_ok h with ⟨ho, h⟩ | ⟨-, h⟩
  · cases h; exact ⟨ho, rfl, rfl⟩
  rcases ite_ok h with ⟨ho, h⟩ | ⟨-, h⟩
  · cases h; exact ⟨ho, rfl, rfl⟩
  rcases ite_ok h with ⟨ho, h⟩ | ⟨-, h⟩
  · obtain ⟨rfl, hx⟩ := decodeBare_ok h; exact ⟨ho, hx, rfl⟩
  rcases ite_ok h with ⟨ho, h⟩ | ⟨-, h⟩
  · obtain ⟨rfl, hx⟩ := decodeBare_ok h; exact ⟨ho, hx, rfl⟩
  rcases ite_ok h with ⟨ho, h⟩ | ⟨-, h⟩
  · obtain ⟨rfl, hx⟩ := decodeRanged_ok h; exact ⟨ho, rfl, hx⟩
  rcases ite_ok h with ⟨ho, h⟩ | ⟨-, h⟩
  · obtain ⟨rfl, hx⟩ := decodeRanged_ok h; exact ⟨ho, rfl, hx⟩
  rcases ite_ok h with ⟨ho, h⟩ | ⟨-, h⟩
  · cases h; exact ⟨ho, rfl, rfl⟩
  rcases ite_ok h with ⟨ho, h⟩ | ⟨-, h⟩
  · cases h; exact ⟨ho, rfl, rfl⟩
  rcases ite_ok h with ⟨ho, h⟩ | ⟨-, h⟩
  · obtain ⟨rfl, hx⟩ := decodeRanged_ok h; exact ⟨ho, rfl, hx⟩
  cases h

/-- What the decoder has checked when it answers a command: the two upper fields, the operand and its range. -/
theorem decode_ok {w : Word} {i : Instr} (h : decode w = .ok i) :
    rsvField w = 0#8 ∧ opField w = i.opcode ∧ xField w = i.operand ∧ i.wellFormed = true := by
  unfold decode at h
  obtain ⟨hr, h⟩ | ⟨-, h⟩ := ite_ok h
  · exact ⟨hr, decodeOp_ok h⟩
  · cases h

end Sys2Proof
end

