-- ==== Sys2Proof/Laws/Ops.lean ====
section
/-! SUPPORT. Laws/Ops.lean: for each shared operation, everything it can do, said once. -/

namespace Sys2Proof.Machine

@[simp] theorem latched_iff (s : State) : latched s = true ↔ s.err ≠ none := by
  unfold latched; cases s.err <;> simp

@[simp] theorem latched_eq_false_iff (s : State) : latched s = false ↔ s.err = none := by
  unfold latched; cases s.err <;> simp

/-- An illegal word is dropped while a fault is latched and raises `IllegalCommand` otherwise (R66). -/
theorem illegalWord_cases (w : Word) (s : State) :
    (s.err ≠ none ∧ illegalWord w s = s) ∨ (s.err = none ∧ illegalWord w s = raise .illegalCommand w s) := by
  unfold illegalWord
  by_cases h : s.err = none
  · exact .inr ⟨h, if_neg (by simp [h])⟩
  · exact .inl ⟨h, if_pos (by simp [h])⟩

@[simp] theorem firstFailure_nil : firstFailure [] = none := rfl

@[simp] theorem firstFailure_pass (e : ErrorKind) (cs : List (Bool × ErrorKind)) :
    firstFailure ((true, e) :: cs) = firstFailure cs := rfl

@[simp] theorem firstFailure_fail (e : ErrorKind) (cs : List (Bool × ErrorKind)) :
    firstFailure ((false, e) :: cs) = some e := rfl

theorem firstFailure_mem {cs : List (Bool × ErrorKind)} {e : ErrorKind} (h : firstFailure cs = some e) :
    (false, e) ∈ cs := by
  induction cs with
  | nil => cases h
  | cons c cs ih =>
    obtain ⟨ok, e'⟩ := c
    cases ok
    · cases h; exact List.mem_cons_self ..
    · exact List.mem_cons_of_mem _ (ih h)

theorem firstFailure_none {cs : List (Bool × ErrorKind)} (h : firstFailure cs = none) : ∀ c ∈ cs, c.1 = true := by
  induction cs with
  | nil => simp
  | cons c cs ih =>
    obtain ⟨ok, e'⟩ := c
    cases ok
    · cases h
    · intro d hd
      rcases List.mem_cons.1 hd with rfl | hd
      · rfl
      · exact ih h d hd

/-- A data-path command is dropped, or raises the error of its first failing check, or has its effect (R66). -/
theorem runDataPath_cases (i : Instr) (checks : List (Bool × ErrorKind)) (effect : State → State) (s : State) :
    (s.err ≠ none ∧ runDataPath i checks effect s = s) ∨
    (∃ e, s.err = none ∧ firstFailure ((permittedIn s.phase i, .sequenceError) :: checks) = some e ∧
      runDataPath i checks effect s = raise e (encode i) s) ∨
    (s.err = none ∧ permittedIn s.phase i = true ∧ (∀ c ∈ checks, c.1 = true) ∧
      runDataPath i checks effect s = effect s) := by
  unfold runDataPath
  by_cases h : s.err = none
  · rw [if_neg (by simp [h])]
    right
    cases hf : firstFailure ((permittedIn s.phase i, .sequenceError) :: checks) with
    | some e => exact .inl ⟨e, h, rfl, rfl⟩
    | none =>
      have hall := firstFailure_none hf
      exact .inr ⟨h, hall _ (List.mem_cons_self ..), fun c hc => hall c (List.mem_cons_of_mem _ hc), rfl⟩
  · exact .inl ⟨h, if_pos (by simp [h])⟩

theorem runDataPath_dropped {s : State} (h : s.err ≠ none) (i : Instr) (checks : List (Bool × ErrorKind))
    (effect : State → State) : runDataPath i checks effect s = s := if_pos (by simp [h])

theorem runDataPath_effect {s : State} {i : Instr} {checks : List (Bool × ErrorKind)} (h : s.err = none)
    (hp : permittedIn s.phase i = true) (hc : firstFailure checks = none) (effect : State → State) :
    runDataPath i checks effect s = effect s := by
  unfold runDataPath
  rw [if_neg (by simp [h])]
  simp [hp, hc]

theorem runDataPath_raises {s : State} {i : Instr} {checks : List (Bool × ErrorKind)} {e : ErrorKind}
    (h : s.err = none) (hf : firstFailure ((permittedIn s.phase i, .sequenceError) :: checks) = some e)
    (effect : State → State) : runDataPath i checks effect s = raise e (encode i) s := by
  unfold runDataPath
  rw [if_neg (by simp [h]), hf]

/-- A read-back command emits its one response, or its word is illegal (R64, R65). -/
theorem runRead_cases (i : Instr) (r : Option Word) (s : State) :
    (∃ v, r = some v ∧ runRead i r s = emitResp v s) ∨ (r = none ∧ runRead i r s = illegalWord (encode i) s) := by
  cases r with
  | none => exact .inr ⟨rfl, rfl⟩
  | some v => exact .inl ⟨v, rfl, rfl⟩

/-- There is a register of each number up to 10 and of none above (10_state.md R25). -/
theorem readRegister_isSome (s : State) (r : Nat) : (readRegister s r).isSome = decide (r ≤ 10) := by
  by_cases h : r ≤ 10
  · have : r = 0 ∨ r = 1 ∨ r = 2 ∨ r = 3 ∨ r = 4 ∨ r = 5 ∨ r = 6 ∨ r = 7 ∨ r = 8 ∨ r = 9 ∨ r = 10 := by omega
    rcases this with rfl | rfl | rfl | rfl | rfl | rfl | rfl | rfl | rfl | rfl | rfl <;> rfl
  · unfold readRegister
    split
    all_goals first | omega | simp [h]

/-- What taking an event can answer. -/
theorem takeEvent_cases (s : State) :
    (s.hostIn = [] ∧ takeEvent s = none) ∨
    (∃ e rest, s.hostIn = e :: rest ∧ takeEvent s = some (e, { s with hostIn := rest })) := by
  unfold takeEvent
  cases h : s.hostIn with
  | nil => exact .inl ⟨rfl, rfl⟩
  | cons e rest => exact .inr ⟨e, rest, rfl, rfl⟩

end Sys2Proof.Machine
end

