-- ==== Sys2Proof/Laws/PerInstr.lean ====
section
/-! SUPPORT. Laws/PerInstr.lean: the family `EncodedFields`: the three fields of a command's word stand where
30_encoding.md R60 puts them. -/

namespace Sys2Proof.Laws.EncodedFields

/-- The fields `op`, `rsv`, `x` of the command's word. -/
def Statement (i : Instr) : Prop :=
  opField (encode i) = i.opcode ∧ rsvField (encode i) = 0#8 ∧ xField (encode i) = i.operand

theorem ofInstr (i : Instr) : Statement i := ⟨opField_encode i, rsvField_encode i, xField_encode i⟩

theorem nop : Statement .nop := ofInstr _
theorem clear : Statement .clear := ofInstr _
theorem clrerr : Statement .clrerr := ofInstr _
theorem count (x : Operand) : Statement (.count x) := ofInstr _
theorem build : Statement .build := ofInstr _
theorem mktab : Statement .mktab := ofInstr _
theorem enc (x : Operand) : Statement (.enc x) := ofInstr _
theorem decbit (x : Operand) : Statement (.decbit x) := ofInstr _
theorem decend : Statement .decend := ofInstr _
theorem decrst : Statement .decrst := ofInstr _
theorem rdreg (x : Operand) : Statement (.rdreg x) := ofInstr _
theorem rdfreq (x : Operand) : Statement (.rdfreq x) := ofInstr _
theorem rdnodel (x : Operand) : Statement (.rdnodel x) := ofInstr _
theorem rdnodew (x : Operand) : Statement (.rdnodew x) := ofInstr _
theorem rdlen (x : Operand) : Statement (.rdlen x) := ofInstr _

end Sys2Proof.Laws.EncodedFields
end

