-- ==== Sys2Proof/Laws/Step.lean ====
section
/-! SUPPORT. Laws/Step.lean: what one step can be, that each command completes, and
that none depends on what the host presents next. -/

namespace Sys2Proof.Machine

/-- A step takes nothing, a legal word's command, an illegal word, or a reset (00_scope.md R6, R66, R201). -/
theorem step_cases (s : State) :
    (s.hostIn = [] ∧ step s = .next s) ∨
    (∃ w rest i, s.hostIn = .cmd w :: rest ∧ decode w = .ok i ∧ step s = exec i { s with hostIn := rest }) ∨
    (∃ w rest why, s.hostIn = .cmd w :: rest ∧ decode w = .error why ∧
      step s = .next (illegalWord w { s with hostIn := rest })) ∨
    (∃ rest, s.hostIn = .rst :: rest ∧ step s = .next (applyReset { s with hostIn := rest })) := by
  unfold step
  rcases takeEvent_cases s with ⟨h, ht⟩ | ⟨e, rest, h, ht⟩
  · rw [ht]; exact .inl ⟨h, rfl⟩
  · rw [ht]
    cases e with
    | rst => exact .inr (.inr (.inr ⟨rest, h, rfl⟩))
    | cmd w =>
      simp only [execWord]
      cases hd : decode w with
      | ok i => exact .inr (.inl ⟨w, rest, i, h, hd, rfl⟩)
      | error why => exact .inr (.inr (.inl ⟨w, rest, why, h, hd, rfl⟩))

/-- The states a command can lead to, as one function of the command: its meaning without the outcome. -/
def nextOf (i : Instr) (s : State) : State :=
  match exec i s with
  | .next t => t
  | .fault r => nomatch r
  | .refused _ => s

/-- Every command answers a next state (00_scope.md R8). -/
theorem exec_eq_nextOf (i : Instr) (s : State) : exec i s = .next (nextOf i s) := by
  cases i <;> rfl

theorem runDataPath_hostIn (i : Instr) (cs : List (Bool × ErrorKind)) (f : State → State) (s : State)
    (r : List HostEvent) (hf : f { s with hostIn := r } = { f s with hostIn := r }) :
    runDataPath i cs f { s with hostIn := r } = { runDataPath i cs f s with hostIn := r } := by
  unfold runDataPath
  cases h : latched s
  · have h' : latched { s with hostIn := r } = false := h
    simp only [h', Bool.false_eq_true, if_false]
    cases firstFailure ((permittedIn s.phase i, .sequenceError) :: cs) <;> first | exact hf | rfl
  · have h' : latched { s with hostIn := r } = true := h
    simp only [h', if_true]

theorem runRead_hostIn (i : Instr) (v : Option Word) (s : State) (r : List HostEvent) :
    runRead i v { s with hostIn := r } = { runRead i v s with hostIn := r } := by
  cases v with
  | some v => rfl
  | none =>
    rcases illegalWord_cases (encode i) s with ⟨h, e⟩ | ⟨h, e⟩
    · rcases illegalWord_cases (encode i) { s with hostIn := r } with ⟨h', e'⟩ | ⟨h', e'⟩
      · show illegalWord _ _ = { illegalWord _ _ with hostIn := r }
        rw [e, e']
      · exact absurd h' h
    · rcases illegalWord_cases (encode i) { s with hostIn := r } with ⟨h', e'⟩ | ⟨h', e'⟩
      · exact absurd h h'
      · show illegalWord _ _ = { illegalWord _ _ with hostIn := r }
        rw [e, e']; rfl

theorem decodeBit_hostIn (b : Bool) (s : State) (r : List HostEvent) :
    decodeBit b { s with hostIn := r } = { decodeBit b s with hostIn := r } := by
  by_cases h : isLeaf s.node (nextNode b s).toNat = true
  · have h' : isLeaf s.node (nextNode b { s with hostIn := r }).toNat = true := h
    rw [decodeBit, decodeBit, if_pos h, if_pos h']; rfl
  · have h' : ¬ isLeaf s.node (nextNode b { s with hostIn := r }).toNat = true := h
    rw [decodeBit, decodeBit, if_neg h, if_neg h']; rfl

/-- A command neither reads nor writes what the host presents next. -/
theorem nextOf_hostIn (i : Instr) (s : State) (r : List HostEvent) :
    nextOf i { s with hostIn := r } = { nextOf i s with hostIn := r } := by
  cases i <;> first
    | exact runRead_hostIn _ _ _ _
    | exact runDataPath_hostIn _ _ _ _ _ rfl
    | exact runDataPath_hostIn _ _ _ _ _ (decodeBit_hostIn ..)
    | rfl

end Sys2Proof.Machine
end

