-- ==== Sys2Proof/Machine/Assembler.lean ====
section
/-! DEFINITION. Machine/Assembler.lean: the assembler syntax of 30_encoding.md R69, on one line given as its
characters. It is host notation and no part of the block; what R69 leaves open is log entry 15. -/

namespace Sys2Proof.Machine

/-- Between the words of a line. -/
def isBlank (c : Char) : Bool := c == ' ' || c == '\t'

/-- Nothing but blanks and a comment: `;` starts a comment (R69). -/
def onlyComment (line : List Char) : Bool :=
  match line.dropWhile isBlank with
  | [] => true
  | c :: _ => c == ';'

/-- A digit's value in a base of at most 16. -/
def digitValue (base : Nat) (c : Char) : Option Nat :=
  let v :=
    if '0' ≤ c ∧ c ≤ '9' then c.toNat - '0'.toNat
    else if 'a' ≤ c ∧ c ≤ 'f' then c.toNat - 'a'.toNat + 10
    else if 'A' ≤ c ∧ c ≤ 'F' then c.toNat - 'A'.toNat + 10
    else base
  if v < base then some v else none

/-- The number a run of digits writes, most significant first. -/
def digitsValue (base : Nat) : Nat → List Char → Option Nat
  | acc, [] => some acc
  | acc, c :: cs =>
    match digitValue base c with
    | none => none
    | some v => digitsValue base (acc * base + v) cs

/-- The register names of 10_state.md R25, for `RDREG` (R69). -/
def registerNames : List (List Char × Nat) :=
  [(['I', 'D'], 0), (['S', 'T', 'A', 'T', 'U', 'S'], 1), (['E', 'R', 'R'], 2),
   (['E', 'R', 'R', 'I', 'N', 'F', 'O'], 3), (['R', 'O', 'O', 'T'], 4), (['N', 'N', 'O', 'D', 'E', 'S'], 5),
   (['N', 'L', 'E', 'A', 'V', 'E', 'S'], 6), (['T', 'O', 'T', 'A', 'L'], 7), (['C', 'U', 'R'], 8),
   (['D', 'E', 'P', 'T', 'H'], 9), (['F', 'I', 'L', 'L', 'S', 'Y', 'M'], 10)]

/-- An operand's word: a `0x` number or a decimal number (R69). -/
def numberValue : List Char → Option Nat
  | [] => none
  | '0' :: 'x' :: d :: ds => digitsValue 16 0 (d :: ds)
  | ds => digitsValue 10 0 ds

/-- The characters up to a blank or a comment. -/
def isWordChar (c : Char) : Bool := !isBlank c && c != ';'

/-- An operand and what follows it: a character in single quotes is its ASCII code, else a number, or, where names
are allowed, a register name (R69). -/
def operandOf (names : Bool) : List Char → Option (Nat × List Char)
  | '\'' :: c :: '\'' :: rest => if c.toNat < 128 then some (c.toNat, rest) else none
  | cs =>
    let w := cs.takeWhile isWordChar
    let rest := cs.dropWhile isWordChar
    match if names then (registerNames.find? fun e => e.1 == w) else none with
    | some e => some (e.2, rest)
    | none =>
      match numberValue w with
      | some v => some (v, rest)
      | none => none

/-- The commands without an operand, by mnemonic. -/
def bareMnemonics : List (List Char × Instr) :=
  [(['N', 'O', 'P'], .nop), (['C', 'L', 'E', 'A', 'R'], .clear), (['C', 'L', 'R', 'E', 'R', 'R'], .clrerr),
   (['B', 'U', 'I', 'L', 'D'], .build), (['M', 'K', 'T', 'A', 'B'], .mktab),
   (['D', 'E', 'C', 'E', 'N', 'D'], .decend), (['D', 'E', 'C', 'R', 'S', 'T'], .decrst)]

/-- The commands with an operand, by mnemonic. -/
def operandMnemonics : List (List Char × (Operand → Instr)) :=
  [(['C', 'O', 'U', 'N', 'T'], .count), (['E', 'N', 'C'], .enc), (['D', 'E', 'C', 'B', 'I', 'T'], .decbit),
   (['R', 'D', 'R', 'E', 'G'], .rdreg), (['R', 'D', 'F', 'R', 'E', 'Q'], .rdfreq),
   (['R', 'D', 'N', 'O', 'D', 'E', 'L'], .rdnodel), (['R', 'D', 'N', 'O', 'D', 'E', 'W'], .rdnodew),
   (['R', 'D', 'L', 'E', 'N'], .rdlen)]

/-- A line that holds a command. An operand that does not fit 16 bits is refused; one out of its command's valid or
legal range is not (R69). -/
def assembleCommand (line : List Char) : Option Instr :=
  let w := line.takeWhile isWordChar
  let rest := line.dropWhile isWordChar
  match bareMnemonics.find? fun e => e.1 == w with
  | some e => if onlyComment rest then some e.2 else none
  | none =>
    match operandMnemonics.find? fun e => e.1 == w with
    | none => none
    | some e =>
      match operandOf (w == ['R', 'D', 'R', 'E', 'G']) (rest.dropWhile isBlank) with
      | none => none
      | some (v, after) => if v < 2 ^ 16 && onlyComment after then some (e.2 (BitVec.ofNat 16 v)) else none

/-- One line of a listing: `none` is refused, `some none` holds no command (R69). -/
def assembleLine (line : List Char) : Option (Option Instr) :=
  if onlyComment line then some none
  else
    match assembleCommand (line.dropWhile isBlank) with
    | none => none
    | some i => some (some i)

end Sys2Proof.Machine
end

