-- ==== Sys2Proof/Tests/Slice0.lean ====
section
/-! SUPPORT. Tests/Slice0.lean: the model's own tests. Expected results are spec/95_test_vectors.md's (the section or
vector is named) or worked by hand from the rule named. The `witness_` theorems show, for every statement with
hypotheses, a state and operands that meet them. -/

namespace Sys2Proof.Tests

open Sys2Proof Sys2Proof.Machine

/-! ### Well-formedness -/

theorem test_wellFormed_refuses_rdreg_11 : (Instr.rdreg 11#16).wellFormed = false := by decide
theorem test_wellFormed_refuses_rdfreq_256 : (Instr.rdfreq 256#16).wellFormed = false := by decide
theorem test_wellFormed_refuses_rdlen_256 : (Instr.rdlen 256#16).wellFormed = false := by decide
theorem test_wellFormed_accepts_the_last_in_range :
    (Instr.rdreg 10#16).wellFormed = true ∧ (Instr.rdfreq 255#16).wellFormed = true ∧
      (Instr.rdlen 255#16).wellFormed = true ∧ (Instr.count 65535#16).wellFormed = true := by decide

/-! ### Decoding: the words written out bit by bit as `op`, `rsv`, `x` (30_encoding.md R60, R62, R63) -/

theorem test_decode_nop : decode 0b00000000_00000000_0000000000000000#32 = .ok .nop := rfl
theorem test_decode_clear : decode 0b00000001_00000000_0000000000000000#32 = .ok .clear := rfl
theorem test_decode_clrerr : decode 0b00000010_00000000_0000000000000000#32 = .ok .clrerr := rfl
theorem test_decode_count : decode 0b00010000_00000000_0000000001100001#32 = .ok (.count 0x61#16) := rfl
theorem test_decode_build : decode 0b00010001_00000000_0000000000000000#32 = .ok .build := rfl
theorem test_decode_mktab : decode 0b00010010_00000000_0000000000000000#32 = .ok .mktab := rfl
theorem test_decode_enc : decode 0b00100000_00000000_0000000101100001#32 = .ok (.enc 0x161#16) := rfl
theorem test_decode_decbit : decode 0b00110000_00000000_0000000000000001#32 = .ok (.decbit 1#16) := rfl
theorem test_decode_decend : decode 0b00110001_00000000_0000000000000000#32 = .ok .decend := rfl
theorem test_decode_decrst : decode 0b00110010_00000000_0000000000000000#32 = .ok .decrst := rfl
theorem test_decode_rdreg : decode 0b01000000_00000000_0000000000001010#32 = .ok (.rdreg 10#16) := rfl
theorem test_decode_rdfreq : decode 0b01000001_00000000_0000000011111111#32 = .ok (.rdfreq 255#16) := rfl
theorem test_decode_rdnodel : decode 0b01000010_00000000_0000000000000010#32 = .ok (.rdnodel 2#16) := rfl
theorem test_decode_rdnodew : decode 0b01000011_00000000_0000000000000010#32 = .ok (.rdnodew 2#16) := rfl
theorem test_decode_rdlen : decode 0b01000100_00000000_0000000001100001#32 = .ok (.rdlen 0x61#16) := rfl

/-- Section 2.1: a reserved opcode, a non-zero `rsv`, an unexpected operand, a register and an index out of range. -/
theorem test_decode_refuses :
    decode 0x03000000#32 = .error .reservedOpcode ∧ decode 0xFF000000#32 = .error .reservedOpcode ∧
      decode 0xFFFFFFFF#32 = .error .reservedField ∧ decode 0x10010061#32 = .error .reservedField ∧
      decode 0x00000001#32 = .error .unexpectedOperand ∧ decode 0x4000000B#32 = .error .registerNumber ∧
      decode 0x41000100#32 = .error .tableIndex ∧ decode 0x44000100#32 = .error .tableIndex :=
  ⟨rfl, rfl, rfl, rfl, rfl, rfl, rfl, rfl⟩

theorem test_decodeTableWord :
    decodeTableWord 32 0x10000061 = some (.count 0x61#16) ∧ decodeTableWord 32 0x03000000 = none ∧
      decodeTableWord 32 (2 ^ 32) = none := by decide

/-- 30_encoding.md R62: no two rows overlap, and each opcode is a row's. -/
theorem test_rows_do_not_overlap :
    opcodeRows.Pairwise (fun r r' => r.value &&& r'.mask &&& r.mask ≠ r'.value &&& r.mask) := by decide

/-! ### The sample states: 95_test_vectors.md's, written as data -/

/-- A leaf. -/
def leafOf (weight : Weight) (sym : Symbol) : NodeRec := ⟨weight, sym, 0x1FF#9, 0x1FF#9⟩

/-- After counting "aaab". -/
def collectAaab : State := { State.reset with freq := [(0x61, 3#32), (0x62, 1#32)], total := 4#32 }

/-- B5: the tree of "aaab". -/
def treeAaab : State :=
  { collectAaab with
    phase := .tree, node := [leafOf 3#32 0x61#8, leafOf 1#32 0x62#8, ⟨4#32, 0x00#8, 1#9, 0#9⟩],
    nnodes := 3#10, nleaves := 2#9, root := 2#9, cur := 2#9 }

/-- B5 after `MKTAB`. -/
def readyAaab : State := { treeAaab with phase := .ready, code := [(0x61, [true]), (0x62, [false])] }

/-- After counting "abc". -/
def collectAbc : State :=
  { State.reset with freq := [(0x61, 1#32), (0x62, 1#32), (0x63, 1#32)], total := 3#32 }

/-- B8: the tree of "abc". -/
def treeAbc : State :=
  { collectAbc with
    phase := .tree,
    node := [leafOf 1#32 0x61#8, leafOf 1#32 0x62#8, leafOf 1#32 0x63#8, ⟨2#32, 0x00#8, 0#9, 1#9⟩,
      ⟨3#32, 0x00#8, 2#9, 3#9⟩],
    nnodes := 5#10, nleaves := 3#9, root := 4#9, cur := 4#9 }

/-- B8 after `MKTAB`. -/
def readyAbc : State :=
  { treeAbc with phase := .ready, code := [(0x61, [true, false]), (0x62, [true, true]), (0x63, [false])] }

/-- B8 in the middle of a path, after `DECBIT 1` (45_decode.md R141). -/
def midAbc : State := { readyAbc with cur := 3#9, depth := 1#8 }

/-- After counting "aaaa". -/
def collectAaaa : State := { State.reset with freq := [(0x61, 4#32)], total := 4#32 }

/-- B3: the tree of "aaaa", with the filler. -/
def treeAaaa : State :=
  { collectAaaa with
    phase := .tree, node := [leafOf 4#32 0x61#8, leafOf 1#32 0x00#8, ⟨5#32, 0x00#8, 1#9, 0#9⟩],
    nnodes := 3#10, nleaves := 2#9, root := 2#9, cur := 2#9, filler := true }

/-- B3 after `MKTAB`. -/
def readyAaaa : State := { treeAaaa with phase := .ready, code := [(0x00, [false]), (0x61, [true])] }

/-- B1 after `MKTAB`: the absent tree. -/
def readyEmpty : State := { State.reset with phase := .ready }

/-- Section 2.1's latched state. -/
def latchedReset : State := { State.reset with err := some .illegalCommand, errinfo := 0xFFFFFFFF#32 }

/-- Section 2.3: as many symbols counted as can be. -/
def fullCollect : State := { State.reset with freq := [(0x61, 4294967294#32)], total := 4294967294#32 }

/-- The host presents this word next. -/
def presents (s : State) (w : Word) : State := { s with hostIn := [.cmd w] }

/-- The outcome is this next state. -/
def isNext (o : Host.Outcome State Fault Refusal) (t : State) : Bool :=
  match o with
  | .next u => decide (u = t)
  | .fault _ => false
  | .refused _ => false

theorem of_isNext {o : Host.Outcome State Fault Refusal} {t : State} (h : isNext o t = true) : o = .next t := by
  cases o with
  | next u => exact congrArg _ (of_decide_eq_true h)
  | fault r => cases h
  | refused r => cases h

/-! ### One step of each command -/

/-- 2.2: `NOP` while a fault is latched. -/
theorem test_nop : isNext (exec .nop latchedReset) latchedReset = true := by decide

/-- 2.2: `CLEAR` after `COMPRESS "aaab"`; the streams stay (40_control.md R81). -/
theorem test_clear :
    isNext (exec .clear { readyAaab with bitOut := [true] }) { State.reset with bitOut := [true] } = true := by
  decide

/-- 2.2: `CLRERR` in the middle of a path. -/
theorem test_clrerr :
    isNext (exec .clrerr { midAbc with err := some .malformedBit, errinfo := 0x30000002#32 }) midAbc = true := by
  decide

/-- 2.3: `COUNT 'a'` a second time. -/
theorem test_count :
    isNext (exec (.count 0x61#16) { State.reset with freq := [(0x61, 1#32)], total := 1#32 })
      { State.reset with freq := [(0x61, 2#32)], total := 2#32 } = true := by decide

/-- 2.3: `COUNT 256` does not wrap to symbol 0, and its range check comes before the overflow check. -/
theorem test_count_256 :
    isNext (exec (.count 256#16) fullCollect)
      { fullCollect with err := some .alphabetOverflow, errinfo := 0x10000100#32 } = true := by decide

/-- B8. -/
theorem test_build : isNext (exec .build collectAbc) treeAbc = true := by decide +kernel

/-- 2.3, last line: the filler at the greatest total; the root's weight is `0xFFFFFFFF`. -/
theorem test_build_full :
    isNext (exec .build fullCollect)
      { fullCollect with
        phase := .tree,
        node := [leafOf 4294967294#32 0x61#8, leafOf 1#32 0x00#8, ⟨0xFFFFFFFF#32, 0x00#8, 1#9, 0#9⟩],
        nnodes := 3#10, nleaves := 2#9, root := 2#9, cur := 2#9, filler := true } = true := by decide +kernel

/-- B8's codes. -/
theorem test_mktab : isNext (exec .mktab treeAbc) readyAbc = true := by decide +kernel

/-- 2.5: `MKTAB` in the middle of a decode leaves the cursor. -/
theorem test_mktab_mid : isNext (exec .mktab midAbc) midAbc = true := by decide +kernel

/-- B8: `ENC 'a'` emits `1 0`, the root's choice first. -/
theorem test_enc :
    isNext (exec (.enc 0x61#16) midAbc) { midAbc with bitOut := [true, false] } = true := by decide

/-- 2.6: `ENC 0x0161` is not truncated to `'a'`. -/
theorem test_enc_0161 :
    isNext (exec (.enc 0x161#16) readyAaab)
      { readyAaab with err := some .alphabetOverflow, errinfo := 0x20000161#32 } = true := by decide

/-- B8: `DECBIT 1` from the root rests on node 3. -/
theorem test_decbit_internal : isNext (exec (.decbit 1#16) readyAbc) midAbc = true := by decide

/-- B8: `DECBIT 1` from node 3 emits `'b'` and returns to the root. -/
theorem test_decbit_leaf :
    isNext (exec (.decbit 1#16) midAbc) { readyAbc with symOut := [0x62#8] } = true := by decide

/-- 2.7: `DECEND` in the middle of a path. -/
theorem test_decend_mid :
    isNext (exec .decend midAbc) { midAbc with err := some .truncatedCode, errinfo := 0x31000000#32 } = true := by
  decide

/-- 2.7: `DECEND` against the absent tree. -/
theorem test_decend_absent : isNext (exec .decend readyEmpty) readyEmpty = true := by decide

/-- 2.7: `DECRST` in the middle of a path. -/
theorem test_decrst : isNext (exec .decrst midAbc) readyAbc = true := by decide

/-- 2.7: `DECRST` in phase `COLLECT`. -/
theorem test_decrst_collect :
    isNext (exec .decrst State.reset)
      { State.reset with err := some .sequenceError, errinfo := 0x32000000#32 } = true := by decide

/-- 2.8, P4 step 4: `STATUS` in a faulted state in the middle of a path: `0x00000036`. -/
theorem test_rdreg_status :
    isNext (exec (.rdreg 1#16) { midAbc with err := some .malformedBit, errinfo := 0x30000002#32 })
      { midAbc with err := some .malformedBit, errinfo := 0x30000002#32, respOut := [0x00000036#32] } = true := by
  decide

/-- 2.8: `STATUS` after `COMPRESS "aaaa"`: `0x0000000E`. -/
theorem test_rdreg_status_filler :
    isNext (exec (.rdreg 1#16) readyAaaa) { readyAaaa with respOut := [0x0000000E#32] } = true := by decide

/-- 2.8: `RDFREQ 'a'`. -/
theorem test_rdfreq :
    isNext (exec (.rdfreq 0x61#16) readyAaab) { readyAaab with respOut := [3#32] } = true := by decide

/-- 2.8: `RDNODEL 1`, a leaf. -/
theorem test_rdnodel_leaf :
    isNext (exec (.rdnodel 1#16) readyAaab) { readyAaab with respOut := [0x058BFFFF#32] } = true := by decide

/-- 2.8: `RDNODEL 2`, `left = 1`, `right = 0`. -/
theorem test_rdnodel_internal :
    isNext (exec (.rdnodel 2#16) readyAaab) { readyAaab with respOut := [0x00000001#32] } = true := by decide

/-- 2.8: `RDNODEW 2`. -/
theorem test_rdnodew :
    isNext (exec (.rdnodew 2#16) readyAaab) { readyAaab with respOut := [4#32] } = true := by decide

/-- 46_readback.md R163, 30_encoding.md R64: `RDNODEW 3` with `NNODES = 3` is an illegal word. -/
theorem test_rdnodew_3 :
    isNext (exec (.rdnodew 3#16) readyAaab)
      { readyAaab with err := some .illegalCommand, errinfo := 0x43000003#32 } = true := by decide

/-- 2.8: `RDLEN 'a'` and of a symbol without a code. -/
theorem test_rdlen :
    isNext (exec (.rdlen 0x61#16) readyAaab) { readyAaab with respOut := [0x00000101#32] } = true := by decide

theorem test_rdlen_invalid :
    isNext (exec (.rdlen 0x63#16) readyAaab) { readyAaab with respOut := [0#32] } = true := by decide

/-! ### The step -/

/-- 2.1: an illegal word raises; while a fault is latched it is dropped. -/
theorem test_step_illegal :
    isNext (step (presents State.reset 0xFFFFFFFF#32)) latchedReset = true ∧
      isNext (step (presents latchedReset 0x03000000#32)) latchedReset = true := by decide

/-- 70_reset_and_hazards.md R200: `rst` between two commands. -/
theorem test_step_rst :
    isNext (step { midAbc with hostIn := [.rst, .cmd 0#32], symOut := [0x62#8] })
      { State.reset with hostIn := [.cmd 0#32], symOut := [0x62#8] } = true := by decide

/-- The word placed by `withFetchWord` is the one the next step runs. -/
theorem test_withFetchWord :
    isNext (step (State.reset.withFetchWord 32 0x10000061))
      { State.reset with freq := [(0x61, 1#32)], total := 1#32 } = true := by decide

/-! ### The assembler (30_encoding.md R69) and the macros (R70) -/

theorem test_assemble_number :
    assembleLine ['C', 'O', 'U', 'N', 'T', ' ', '0', 'x', '6', '1', ' ', ';', 'a'] = some (some (.count 0x61#16)) :=
  by decide

theorem test_assemble_character :
    assembleLine ['E', 'N', 'C', ' ', '\'', 'a', '\''] = some (some (.enc 0x61#16)) := by decide

theorem test_assemble_register :
    assembleLine ['R', 'D', 'R', 'E', 'G', ' ', 'S', 'T', 'A', 'T', 'U', 'S'] = some (some (.rdreg 1#16)) := by decide

/-- R69: an operand that does not fit 16 bits is refused; one out of the valid range is not. -/
theorem test_assemble_ranges :
    assembleLine ['C', 'O', 'U', 'N', 'T', ' ', '6', '5', '5', '3', '6'] = none ∧
      assembleLine ['C', 'O', 'U', 'N', 'T', ' ', '3', '0', '0'] = some (some (.count 300#16)) ∧
      assembleLine [' ', ';', 'x'] = some none := by decide

theorem test_compressMacro :
    compressMacro (symbolOperands [0x61#8, 0x62#8]) =
      [.clear, .count 0x61#16, .count 0x62#16, .build, .mktab, .enc 0x61#16, .enc 0x62#16] := by decide

/-! ### The invariant at the sample states -/

theorem inv_reset : Inv State.reset where
  memory := by decide
  slots := by decide
  collectEmpty := by decide
  builtSizes := by decide
  leavesOfFreq := by decide
  nodeShape := by decide
  oneParent := by decide
  weights := by decide
  leafSymbols := by decide
  table := by decide
  cursor := .inl (by decide)
  errInfo := by decide
  totalSum := by decide +kernel
  totalMax := by decide
  rootInternal := by decide

theorem inv_latchedReset : Inv latchedReset :=
  { inv_reset with errInfo := by decide }

theorem inv_collectAaab : Inv collectAaab :=
  { inv_reset with
    memory := by decide, collectEmpty := by decide, builtSizes := by decide, leavesOfFreq := by decide
    weights := by decide, totalSum := by decide +kernel, totalMax := by decide }

theorem inv_fullCollect : Inv fullCollect :=
  { inv_reset with
    memory := by decide, collectEmpty := by decide, builtSizes := by decide, leavesOfFreq := by decide
    weights := by decide, totalSum := by decide +kernel, totalMax := by decide }

theorem inv_readyEmpty : Inv readyEmpty :=
  { inv_reset with
    collectEmpty := by decide, builtSizes := by decide +kernel, leavesOfFreq := by decide +kernel, table := by decide }

theorem inv_treeAaab : Inv treeAaab where
  memory := by decide
  slots := by decide
  collectEmpty := by decide
  builtSizes := by decide +kernel
  leavesOfFreq := by decide +kernel
  nodeShape := by decide +kernel
  oneParent := by decide +kernel
  weights := by decide +kernel
  leafSymbols := by decide +kernel
  table := by decide
  cursor := .inl (by decide)
  errInfo := by decide
  totalSum := by decide +kernel
  totalMax := by decide
  rootInternal := by decide

theorem inv_readyAaab : Inv readyAaab :=
  { inv_treeAaab with
    memory := by decide, collectEmpty := by decide, builtSizes := by decide +kernel
    leavesOfFreq := by decide +kernel, table := by decide +kernel }

theorem inv_readyAaaa : Inv readyAaaa where
  memory := by decide
  slots := by decide
  collectEmpty := by decide
  builtSizes := by decide +kernel
  leavesOfFreq := by decide +kernel
  nodeShape := by decide +kernel
  oneParent := by decide +kernel
  weights := by decide +kernel
  leafSymbols := by decide +kernel
  table := by decide +kernel
  cursor := .inl (by decide)
  errInfo := by decide
  totalSum := by decide +kernel
  totalMax := by decide
  rootInternal := by decide

theorem inv_midAbc : Inv midAbc where
  memory := by decide
  slots := by decide
  collectEmpty := by decide
  builtSizes := by decide +kernel
  leavesOfFreq := by decide +kernel
  nodeShape := by decide +kernel
  oneParent := by decide +kernel
  weights := by decide +kernel
  leafSymbols := by decide +kernel
  table := by decide +kernel
  cursor := .inr ⟨by decide, by decide, by decide, by decide, [true], by decide, by decide, by decide⟩
  errInfo := by decide
  totalSum := by decide +kernel
  totalMax := by decide
  rootInternal := by decide

theorem inv_readyAbc : Inv readyAbc :=
  { inv_midAbc with collectEmpty := by decide, cursor := .inl (by decide) }

/-! ### Witnesses: states and operands that meet each statement's hypotheses, clause by clause -/

theorem witness_DecodeOfEncodeIsTheCommand : (Instr.rdreg 10#16).wellFormed = true := by decide

theorem witness_EncodeOfDecodeIsTheWord : decode 0x440000FF#32 = .ok (.rdlen 255#16) := rfl

/-- The last word of a row and the row. -/
theorem witness_WordSpellsTheRowItMatches :
    ⟨0x44000000#32, operandMask⟩ ∈ opcodeRows ∧ OpcodeRow.matches ⟨0x44000000#32, operandMask⟩ 0x4400FFFF#32 = true := by
  decide

theorem witness_IllegalWordsRaiseOrAreDropped :
    ((presents latchedReset 0x03000000#32).hostIn = .cmd 0x03000000#32 :: [] ∧
      legal 0x03000000#32 latchedReset.nnodes = false) ∧
    (presents State.reset 0x42000000#32).hostIn = .cmd 0x42000000#32 :: [] ∧
      legal 0x42000000#32 State.reset.nnodes = false ∧ legal 0x42000002#32 3#10 = true := by decide

/-- One word for each way to be illegal, at the edge of its range. -/
theorem witness_IllegalWordsRaiseOrAreDropped_each :
    ((0x45000000#32).extractLsb' 24 8 ∉ [0x00#8, 0x01#8, 0x02#8, 0x10#8, 0x11#8, 0x12#8, 0x20#8, 0x30#8, 0x31#8,
        0x32#8, 0x40#8, 0x41#8, 0x42#8, 0x43#8, 0x44#8]) ∧
      (0x10010061#32).extractLsb' 16 8 ≠ 0x00#8 ∧
      ((0x32000001#32).extractLsb' 24 8 ∈ [0x00#8, 0x01#8, 0x02#8, 0x11#8, 0x12#8, 0x31#8, 0x32#8] ∧
        (0x32000001#32).extractLsb' 0 16 ≠ 0#16) ∧
      ((0x4000000B#32).extractLsb' 24 8 = 0x40#8 ∧ 10 < ((0x4000000B#32).extractLsb' 0 16).toNat) ∧
      ((0x44000100#32).extractLsb' 24 8 ∈ [0x41#8, 0x44#8] ∧ 255 < ((0x44000100#32).extractLsb' 0 16).toNat) ∧
      ((0x43000003#32).extractLsb' 24 8 ∈ [0x42#8, 0x43#8] ∧
        (3#10).toNat ≤ ((0x43000003#32).extractLsb' 0 16).toNat) := by decide

theorem witness_StepRunsTheDecodedCommand :
    (presents midAbc 0x30000001#32).hostIn = .cmd 0x30000001#32 :: [] ∧ decode 0x30000001#32 = .ok (.decbit 1#16) :=
  ⟨rfl, rfl⟩

theorem witness_StepWithoutACommandHoldsOrResets :
    midAbc.hostIn = [] ∧ ({ midAbc with hostIn := [.rst, .cmd 0#32] } : State).hostIn = .rst :: [.cmd 0#32] := by decide

theorem witness_StepFollowsTheExecRule :
    (presents latchedReset 0x10000061#32).hostIn = .cmd 0x10000061#32 :: [] := by decide

theorem witness_RunOfWordsRunsTheCommands :
    (∀ i ∈ compressMacro (symbolOperands [0x61#8]), i.wellFormed = true) ∧ latchedReset.hostIn = [] := by decide

/-- For each error kind a word that raises it where no fault is latched. -/
theorem witness_EachErrorHasItsCodeAndCause :
    ∀ e ∈ [(readyAaab, 0x20000100#32, ErrorKind.alphabetOverflow), (readyAaab, 0x20000063#32, .symbolNotCoded),
        (midAbc, 0x30000002#32, .malformedBit), (midAbc, 0x31000000#32, .truncatedCode),
        (readyAbc, 0x42000005#32, .illegalCommand), (treeAaab, 0x10000100#32, .sequenceError),
        (fullCollect, 0x10000062#32, .countOverflow), (readyEmpty, 0x30000000#32, .noDecodePath)],
      (presents e.1 e.2.1).hostIn = .cmd e.2.1 :: [] ∧ (presents e.1 e.2.1).err = none ∧
        isNext (step (presents e.1 e.2.1)) { e.1 with err := some e.2.2, errinfo := e.2.1 } = true := by decide

theorem witness_EachErrorHasItsCodeAndCause_truncated :
    Inv (presents midAbc 0x31000000#32) ∧
      step (presents midAbc 0x31000000#32) =
        .next { midAbc with err := some .truncatedCode, errinfo := 0x31000000#32 } :=
  ⟨{ inv_midAbc with }, of_isNext (by decide)⟩

theorem witness_FaultsArePrecise :
    step (presents fullCollect 0x10000062#32) =
        .next { fullCollect with err := some .countOverflow, errinfo := 0x10000062#32 } ∧
      (presents fullCollect 0x10000062#32).err = none := ⟨of_isNext (by decide), by decide⟩

theorem witness_LatchedFaultDropsAllButAlwaysCommands :
    latchedReset.err = some .illegalCommand ∧ isDataPath (.count 0x61#16) = true ∧
      legal 0x4000000B#32 (presents latchedReset 0x4000000B#32).nnodes = false ∧
      ((Instr.rdreg 10#16).wellFormed = true ∧ stateLegal latchedReset.nnodes (.rdreg 10#16) = true ∧
        isDataPath (.rdreg 10#16) = false ∧ Instr.rdreg 10#16 ∉ [.nop, .clrerr, .clear]) ∧
      ((Instr.rdnodew 2#16).wellFormed = true ∧ stateLegal 3#10 (.rdnodew 2#16) = true) := by decide

theorem witness_OnlyClrerrClearAndResetUnlatch :
    (presents latchedReset 0x02000000#32).err = some .illegalCommand ∧
      step (presents latchedReset 0x02000000#32) = .next State.reset ∧
      midAbc.err = none ∧ midAbc.errinfo = 0#32 ∧
      exec (.rdreg 2#16) latchedReset = .next { latchedReset with respOut := [5#32] } :=
  ⟨by decide, of_isNext (by decide), by decide, by decide, of_isNext (by decide)⟩

theorem witness_FirstFailingCheckIsReported :
    ((presents latchedReset 0x03000000#32).hostIn = .cmd 0x03000000#32 :: [] ∧
      legal 0x03000000#32 (presents latchedReset 0x03000000#32).nnodes = false ∧
      step (presents latchedReset 0x03000000#32) = .next latchedReset) ∧
    (latchedReset.err ≠ none ∧ isDataPath .build = true ∧ exec .build latchedReset = .next latchedReset) ∧
    fullCollect.err = none ∧
      exec (.count 256#16) fullCollect =
        .next { fullCollect with err := some .alphabetOverflow, errinfo := 0x10000100#32 } :=
  ⟨⟨by decide, by decide, of_isNext (by decide)⟩, ⟨by decide, by decide, of_isNext (by decide)⟩, by decide,
    of_isNext (by decide)⟩

theorem witness_SequenceErrorByThePhaseTable :
    treeAaab.err = none ∧ isDataPath (.enc 256#16) = true ∧ permittedIn treeAaab.phase (.enc 256#16) = false ∧
      isDataPath .mktab = true ∧ permittedIn treeAaab.phase .mktab = true ∧
      isNext (exec .mktab treeAaab) readyAaab = true := by decide +kernel

/-- The line rises, and it falls. -/
theorem witness_ErrLineFollowsTheLatch :
    (step (presents State.reset 0xFFFFFFFF#32) = .next latchedReset ∧
      errLine (presents State.reset 0xFFFFFFFF#32) = false ∧ errLine latchedReset = true) ∧
    step (presents latchedReset 0x01000000#32) = .next State.reset ∧
      errLine (presents latchedReset 0x01000000#32) = true ∧ errLine State.reset = false :=
  ⟨⟨of_isNext (by decide), by decide, by decide⟩, of_isNext (by decide), by decide, by decide⟩

theorem witness_NopChangesNothing : (1#16 : Operand) ≠ 0#16 := by decide

theorem witness_ClrerrClearsOnlyTheLatch :
    midAbc.err = none ∧ midAbc.errinfo = 0#32 ∧
      exec .decend midAbc = .next { midAbc with err := some .truncatedCode, errinfo := 0x31000000#32 } ∧
      exec .clrerr { midAbc with err := some .truncatedCode, errinfo := 0x31000000#32 } = .next midAbc :=
  ⟨by decide, by decide, of_isNext (by decide), of_isNext (by decide)⟩

/-- Each clause of `COUNT`, the greatest valid symbol and the least invalid one among them. -/
theorem witness_CountFollowsItsRule :
    latchedReset.err ≠ none ∧ (treeAaab.err = none ∧ treeAaab.phase ≠ .collect) ∧
      (fullCollect.err = none ∧ fullCollect.phase = .collect ∧ 255 < (256#16 : Operand).toNat) ∧
      ((255#16 : Operand).toNat ≤ 255 ∧ fullCollect.total.toNat = 4294967294) ∧
      (collectAaab.err = none ∧ collectAaab.phase = .collect ∧ collectAaab.total.toNat ≠ 4294967294) := by decide

theorem witness_CountAdditionsAreExact :
    Inv collectAaab ∧ collectAaab.err = none ∧
      exec (.count 0x62#16) collectAaab =
        .next { collectAaab with freq := [(0x61, 3#32), (0x62, 2#32)], total := 5#32 } :=
  ⟨inv_collectAaab, by decide, of_isNext (by decide)⟩

theorem witness_CountingATextGivesItsFrequencies :
    State.reset.err = none ∧ State.reset.phase = .collect ∧ State.reset.freq = [] ∧ State.reset.total = 0#32 ∧
      ([0x61#8, 0x62#8, 0x61#8] : List Symbol).length ≤ 4294967294 ∧
      ([0x62#8, 0x61#8, 0x61#8] : List Symbol).isPerm [0x61#8, 0x62#8, 0x61#8] = true := by decide

/-- The hypotheses of the statements about a `BUILD` that runs; `collectAbc` has three distinct symbols. -/
theorem witness_LeafScanGoesInSymbolOrder :
    collectAbc.err = none ∧ collectAbc.phase = .collect ∧ exec .build collectAbc = .next treeAbc ∧
      (presentSymbols collectAbc.freq)[2]? = some 0x63 ∧ treeAbc.filler = false :=
  ⟨by decide, by decide, of_isNext (by decide +kernel), by decide +kernel, by decide⟩

theorem witness_BuildWritesOnlyTheTree :
    latchedReset.err ≠ none ∧ (treeAaab.err = none ∧ treeAaab.phase ≠ .collect) ∧
      collectAbc.err = none ∧ collectAbc.phase = .collect := by decide

theorem witness_FillerOnlyForOneDistinctSymbol :
    collectAaaa.err = none ∧ collectAaaa.phase = .collect ∧ exec .build collectAaaa = .next treeAaaa ∧
      presentSymbols collectAaaa.freq = [0x61] ∧ (presentSymbols collectAbc.freq).length ≠ 1 :=
  ⟨by decide, by decide, of_isNext (by decide +kernel), by decide +kernel, by decide +kernel⟩

theorem witness_MergeJoinsTheTwoLeastKeys :
    (buildLeaves collectAbc.freq).pq.Nodup ∧ 2 ≤ (buildLeaves collectAbc.freq).pq.length := by decide +kernel

theorem witness_BuildFinishesWithOneRoot :
    Inv collectAaab ∧ collectAaab.err = none ∧ collectAaab.phase = .collect ∧
      exec .build collectAaab = .next treeAaab :=
  ⟨inv_collectAaab, by decide, by decide, of_isNext (by decide +kernel)⟩

theorem witness_EmptyInputGivesTheAbsentTree :
    State.reset.err = none ∧ State.reset.phase = .collect ∧ ∀ c < 256, freqRead State.reset.freq c = 0#32 := by
  decide +kernel

/-- One distinct symbol, counted once and more than once, and two symbols. -/
theorem witness_TwoLeafTreesHaveTheseCodes :
    (collectAaaa.err = none ∧ collectAaaa.phase = .collect ∧ exec .build collectAaaa = .next treeAaaa ∧
      exec .mktab treeAaaa = .next readyAaaa ∧ presentSymbols collectAaaa.freq = [0x61] ∧
      2 ≤ (freqRead collectAaaa.freq 0x61).toNat) ∧
    (presentSymbols [(0, 1#32)] = [0] ∧ freqRead [(0, 1#32)] 0 = 1#32) ∧
    collectAaab.err = none ∧ collectAaab.phase = .collect ∧ exec .build collectAaab = .next treeAaab ∧
      exec .mktab treeAaab = .next readyAaab ∧ presentSymbols collectAaab.freq = [0x61, 0x62] :=
  ⟨⟨by decide, by decide, of_isNext (by decide +kernel), of_isNext (by decide +kernel), by decide +kernel,
      by decide⟩,
    by decide +kernel, by decide, by decide, of_isNext (by decide +kernel), of_isNext (by decide +kernel),
    by decide +kernel⟩

/-- Two states that agree in `FREQ` alone. -/
theorem witness_TreeDependsOnlyOnTheCounts :
    collectAaab.err = none ∧ collectAaab.phase = .collect ∧
      (∀ c < 256, freqRead collectAaab.freq c = freqRead { collectAaab with symOut := [0x7A#8] }.freq c) ∧
      exec .build collectAaab = .next treeAaab ∧
      exec .build { collectAaab with symOut := [0x7A#8] } = .next { treeAaab with symOut := [0x7A#8] } :=
  ⟨by decide, by decide, fun _ _ => rfl, of_isNext (by decide +kernel), of_isNext (by decide +kernel)⟩

theorem witness_HeavierSymbolsHaveNoLongerCodes :
    Inv collectAaab ∧ collectAaab.err = none ∧ collectAaab.phase = .collect ∧
      exec .build collectAaab = .next treeAaab ∧ exec .mktab treeAaab = .next readyAaab ∧
      0 < treeAaab.nleaves.toNat ∧ 1 < treeAaab.nleaves.toNat ∧
      (nodeRead treeAaab.node 1).weight.toNat < (nodeRead treeAaab.node 0).weight.toNat :=
  ⟨inv_collectAaab, by decide, by decide, of_isNext (by decide +kernel), of_isNext (by decide +kernel), by decide,
    by decide, by decide⟩

theorem witness_MktabWritesOnlyTheTable :
    latchedReset.err ≠ none ∧ (State.reset.err = none ∧ State.reset.phase = .collect) ∧
      (treeAaab.err = none ∧ treeAaab.phase ≠ .collect) ∧ readyEmpty.phase ≠ .collect ∧ readyEmpty.root = 0x1FF#9 := by
  decide

theorem witness_MktabStoresTheRoutesToTheLeaves :
    Inv treeAaab ∧ treeAaab.err = none ∧ treeAaab.phase ≠ .collect := ⟨inv_treeAaab, by decide, by decide⟩

/-- A route to a leaf. -/
theorem witness_LeadsToLeaf : LeadsToLeaf readyAbc [true, false] 0x61 := ⟨by decide, 0, by decide, by decide, by decide⟩

theorem witness_MktabIsIdempotent :
    treeAbc.err = none ∧ treeAbc.phase ≠ .collect ∧ exec .mktab treeAbc = .next readyAbc ∧
      .clear ∉ [Instr.decbit 1#16] ∧ runCommands [.decbit 1#16] readyAbc = .next midAbc ∧
      exec .mktab midAbc = .next midAbc ∧ midAbc.err = none ∧ midAbc.phase ≠ .collect ∧
      treeAbc.node = midAbc.node ∧ treeAbc.root = midAbc.root :=
  ⟨by decide, by decide, of_isNext (by decide +kernel), by decide, of_isNext (by decide),
    of_isNext (by decide +kernel), by decide⟩

theorem witness_CodesArePrefixFreeAndComplete :
    Inv readyAbc ∧ readyAbc.phase = .ready ∧ codeRead readyAbc.code 0x61 = some [true, false] ∧
      codeRead readyAbc.code 0x63 = some [false] ∧ readyAbc.root ≠ 0x1FF#9 ∧ readyAbc.err = none ∧
      (1#16 : Operand).toNat ≤ 1 ∧ exec (.decbit 1#16) readyAbc = .next midAbc :=
  ⟨inv_readyAbc, by decide, by decide, by decide, by decide, by decide, by decide, of_isNext (by decide)⟩

/-- Each clause of `ENC`, the greatest valid symbol and the least invalid one among them. -/
theorem witness_EncFollowsItsRule :
    (latchedReset.err ≠ none ∧ (treeAaab.err = none ∧ treeAaab.phase ≠ .ready) ∧
      (readyAaab.err = none ∧ readyAaab.phase = .ready ∧ 255 < (256#16 : Operand).toNat) ∧
      ((255#16 : Operand).toNat ≤ 255 ∧ codeRead readyAaab.code (255#16 : Operand).toNat = none) ∧
      codeRead readyAaab.code (0x61#16 : Operand).toNat = some [true] ∧ readyEmpty.root = 0x1FF#9 ∧
      readyAaaa.phase = .ready ∧ readyAaaa.filler = true) ∧
    Inv readyAaab ∧ Inv readyEmpty ∧ Inv readyAaaa := ⟨by decide, inv_readyAaab, inv_readyEmpty, inv_readyAaaa⟩

theorem witness_FillerSymbolIsEncodable :
    Inv readyAaaa ∧ readyAaaa.err = none ∧ readyAaaa.phase = .ready ∧ readyAaaa.filler = true :=
  ⟨inv_readyAaaa, by decide⟩

/-- Each clause of `DECBIT`, with the operands 0, 1 and 2. -/
theorem witness_DecbitFollowsItsRule :
    (latchedReset.err ≠ none ∧ (State.reset.err = none ∧ State.reset.phase = .collect) ∧
      (midAbc.err = none ∧ midAbc.phase ≠ .collect ∧ 1 < (2#16 : Operand).toNat) ∧
      (readyEmpty.err = none ∧ readyEmpty.phase ≠ .collect ∧ (1#16 : Operand).toNat ≤ 1 ∧
        readyEmpty.root = 0x1FF#9) ∧
      (midAbc.root ≠ 0x1FF#9 ∧ isLeaf midAbc.node midAbc.root.toNat = false ∧
        (0#9 : NodeIndex) = (nodeRead midAbc.node midAbc.cur.toNat).left) ∧
      (1#9 : NodeIndex) = (nodeRead midAbc.node midAbc.cur.toNat).right) ∧
    Inv midAbc := ⟨by decide, inv_midAbc⟩

theorem witness_DecendFollowsItsRule :
    (latchedReset.err ≠ none ∧ (State.reset.err = none ∧ State.reset.phase = .collect) ∧
      (midAbc.err = none ∧ midAbc.phase ≠ .collect ∧ midAbc.cur ≠ midAbc.root) ∧
      (readyAbc.err = none ∧ readyAbc.phase ≠ .collect ∧ readyAbc.cur = readyAbc.root) ∧
      readyEmpty.err = none ∧ readyEmpty.phase ≠ .collect ∧ readyEmpty.root = 0x1FF#9) ∧
    Inv readyEmpty ∧ exec .decrst midAbc = .next readyAbc ∧ exec .build collectAbc = .next treeAbc :=
  ⟨by decide, inv_readyEmpty, of_isNext (by decide), of_isNext (by decide +kernel)⟩

theorem witness_DecrstPutsTheCursorAtTheRoot :
    latchedReset.err ≠ none ∧ (State.reset.err = none ∧ State.reset.phase = .collect) ∧ midAbc.err = none ∧
      midAbc.phase ≠ .collect ∧ isNext (exec .decrst midAbc) readyAbc = true := by decide

/-- The last leaf and the first internal node. -/
theorem witness_LeafDetectorAgreesWithTheLeafRange :
    Inv midAbc ∧ 2 < midAbc.nnodes.toNat ∧ 3 < midAbc.nnodes.toNat := ⟨inv_midAbc, by decide⟩

theorem witness_DecodingACodeEmitsItsSymbol :
    Inv readyAbc ∧ readyAbc.err = none ∧ readyAbc.phase = .ready ∧ readyAbc.cur = readyAbc.root ∧
      codeRead readyAbc.code (0x61#8 : Symbol).toNat = some [true, false] := ⟨inv_readyAbc, by decide⟩

theorem witness_DecompressOfCompressIsTheText : ([0x61#8, 0x62#8] : List Symbol).length ≤ 4294967294 := by decide

theorem witness_EncoderAndDecoderDoNotInterfere :
    exec (.enc 0x63#16) midAbc = .next { midAbc with bitOut := [false] } ∧ midAbc.err = none ∧
      exec (.decbit 0#16) midAbc = .next { readyAbc with symOut := [0x61#8] } ∧
      exec .decrst midAbc = .next readyAbc ∧ exec .decend readyAbc = .next readyAbc :=
  ⟨of_isNext (by decide), by decide, of_isNext (by decide), of_isNext (by decide), of_isNext (by decide)⟩

/-- The edges of the ranges of the five reads. -/
theorem witness_reads_in_and_out_of_range :
    (10 < (11#16 : Operand).toNat ∧ (255#16 : Operand).toNat ≤ 255 ∧ 255 < (256#16 : Operand).toNat ∧
      (4#16 : Operand).toNat < midAbc.nnodes.toNat ∧ midAbc.nnodes.toNat ≤ (5#16 : Operand).toNat ∧
      (2#16 : Operand).toNat < midAbc.nnodes.toNat ∧ isLeaf midAbc.node (2#16 : Operand).toNat = true ∧
      isLeaf midAbc.node (4#16 : Operand).toNat = false) ∧ Inv midAbc := ⟨by decide, inv_midAbc⟩

theorem witness_RdfreqEmitsTheCount : exec .build collectAaab = .next treeAaab := of_isNext (by decide +kernel)

theorem witness_RdlenEmitsValidAndLen :
    Inv readyAbc ∧ codeRead readyAbc.code 0x61 = some [true, false] ∧ codeRead readyAbc.code 255 = none ∧
      Inv treeAaab ∧ treeAaab.phase ≠ .ready := ⟨inv_readyAbc, by decide, by decide, inv_treeAaab, by decide⟩

/-- Each register and memory does change by a command its rule names. -/
theorem witness_EachStateHasItsWriters :
    exec .build collectAaab = .next treeAaab ∧ treeAaab.phase ≠ collectAaab.phase ∧
      treeAaab.nnodes ≠ collectAaab.nnodes ∧ exec .mktab treeAaab = .next readyAaab ∧
      codeRead readyAaab.code 0x61 ≠ codeRead treeAaab.code 0x61 ∧
      exec (.decbit 1#16) readyAbc = .next midAbc ∧ midAbc.depth ≠ readyAbc.depth :=
  ⟨of_isNext (by decide +kernel), by decide, by decide, of_isNext (by decide +kernel), by decide,
    of_isNext (by decide), by decide⟩

theorem witness_StreamsOnlyGrow :
    step (presents midAbc 0x20000061#32) = .next { midAbc with bitOut := [true, false] } :=
  of_isNext (by decide)

theorem witness_BehaviourIgnoresTheStreams :
    readyAbc.block = { readyAbc with symOut := [0x61#8], hostIn := [.rst] }.block ∧
      exec (.decbit 1#16) readyAbc = .next midAbc ∧
      exec (.decbit 1#16) { readyAbc with symOut := [0x61#8], hostIn := [.rst] } =
        .next { midAbc with symOut := [0x61#8], hostIn := [.rst] } :=
  ⟨by decide, of_isNext (by decide), of_isNext (by decide)⟩

theorem witness_StepKeepsTheTablesCanonical :
    freqWf fullCollect.freq ∧ tableWf 256 readyAbc.code ∧
      step (presents collectAaab 0x11000000#32) = .next treeAaab :=
  ⟨by decide, by decide, of_isNext (by decide +kernel)⟩

theorem witness_StepKeepsTheInvariant :
    Inv (presents midAbc 0x30000001#32) ∧
      step (presents midAbc 0x30000001#32) = .next { readyAbc with symOut := [0x62#8] } :=
  ⟨{ inv_midAbc with }, of_isNext (by decide)⟩

theorem witness_ReachableStatesMeetTheInvariant :
    Host.Core.run Sys2Proof.core 2
        { State.reset with hostIn := [.cmd 0x10000061#32, .cmd 0xFFFFFFFF#32] } =
      .next { State.reset with
        freq := [(0x61, 1#32)], total := 1#32, err := some .illegalCommand, errinfo := 0xFFFFFFFF#32 } :=
  of_isNext (by decide)

end Sys2Proof.Tests
end

section
/-! The decoder on an encoded command (30_encoding.md R60 to R64), and runs of words as runs of commands
(00_scope.md R6, 70_reset_and_hazards.md R209). -/

namespace Sys2Proof

theorem decodeRanged_true {r : Bool} (h : r = true) (why : Illegal) (i : Instr) : decodeRanged r why i = .ok i :=
  if_pos h

/-- The opcode map answers each well-formed command at its own opcode and operand (R62). -/
theorem decodeOp_opcode_operand {i : Instr} (h : i.wellFormed = true) : decodeOp i.opcode i.operand = .ok i := by
  cases i with
  | rdreg x => exact decodeRanged_true h _ _
  | rdfreq x => exact decodeRanged_true h _ _
  | rdlen x => exact decodeRanged_true h _ _
  | _ => rfl

/-- A well-formed command's word decodes to the command (R60, R64). -/
theorem decode_encode {i : Instr} (h : i.wellFormed = true) : decode (encode i) = .ok i := by
  rw [decode, if_pos (rsvField_encode i), opField_encode, xField_encode, decodeOp_opcode_operand h]

namespace Machine

/-- A presented word that decodes is taken, and its command runs (R6, R66). -/
theorem step_cmd_of_decode {s : State} {w : Word} {rest : List HostEvent} {i : Instr}
    (hs : s.hostIn = .cmd w :: rest) (hd : decode w = .ok i) : step s = exec i { s with hostIn := rest } := by
  simp only [step, takeEvent, hs, execWord, hd]

/-- One step on a well-formed command's word: the command's next state, with the words after it presented (R6). -/
theorem step_presented_encode {i : Instr} (h : i.wellFormed = true) (s : State) (rest : List HostEvent) :
    step { s with hostIn := .cmd (encode i) :: rest } = .next { nextOf i s with hostIn := rest } := by
  rw [step_cmd_of_decode rfl (decode_encode h), exec_eq_nextOf]
  exact congrArg Host.Outcome.next (nextOf_hostIn i s rest)

theorem run_succ_of_step {s t : State} (h : step s = .next t) (k : Nat) :
    Host.Core.run core (k + 1) s = Host.Core.run core k t := by
  simp only [Host.Core.run, core, h]

theorem runCommands_cons (i : Instr) (is : List Instr) (s : State) :
    runCommands (i :: is) s = runCommands is (nextOf i s) := by
  rw [runCommands, exec_eq_nextOf]

/-- Stated for every state, whatever it presents, so that the induction goes through: before each step the words still
to come are presented, and afterwards none is left. -/
theorem run_words_eq_runCommands (is : List Instr) (hwf : ∀ i ∈ is, i.wellFormed = true) (s : State) :
    Host.Core.run core is.length { s with hostIn := is.map fun i => .cmd (encode i) } =
      runCommands is { s with hostIn := [] } := by
  induction is generalizing s with
  | nil => rfl
  | cons i is ih =>
    obtain ⟨hi, his⟩ := List.forall_mem_cons.mp hwf
    have hstep := step_presented_encode hi s (is.map fun j => .cmd (encode j))
    have hrest := ih his (nextOf i s)
    have hexec : runCommands (i :: is) { s with hostIn := [] } = runCommands is { nextOf i s with hostIn := [] } := by
      rw [runCommands_cons, nextOf_hostIn]
    exact (run_succ_of_step hstep is.length).trans (hrest.trans hexec.symm)

/-- Settles O10, by induction on the commands (`run_words_eq_runCommands`): a run that starts with nothing presented
ends the same way. -/
theorem runOfWordsRunsTheCommands : Obligations.RunOfWordsRunsTheCommands := by
  intro is s hwf hin
  rw [run_words_eq_runCommands is hwf s, ← hin]

end Machine

end Sys2Proof
end

section
/-! What the execution of a command can do, said once for all commands (30_encoding.md R66): the rules over all commands
(10_state.md, 20_memory.md) read it off. -/

namespace Sys2Proof.Machine

/-- The read-back commands (46_readback.md). -/
def isRead (i : Instr) : Prop := ∃ x, i ∈ [.rdreg x, .rdfreq x, .rdnodel x, .rdnodew x, .rdlen x]

/-- `Effect s i t`: the command passes its checks in state `s`, and its effect, a change of state, leads to `t`. -/
inductive Effect (s : State) : Instr → State → Prop
  | clear : Effect s .clear (applyReset s)
  | clrerr : Effect s .clrerr (clearLatch s)
  | count (x : Operand) (herr : s.err = none) (hphase : s.phase = .collect) (hx : x.toNat < Config.alphabetSize)
      (hroom : s.total.toNat ≠ Config.totalMax) : Effect s (.count x) (countSymbol x.toNat s)
  | build (herr : s.err = none) (hphase : s.phase = .collect) : Effect s .build (buildEffect s)
  | mktab (herr : s.err = none) (hphase : s.phase ≠ .collect) : Effect s .mktab (mktabEffect s)
  | enc (x : Operand) (herr : s.err = none) (hphase : s.phase = .ready) (hx : x.toNat < Config.alphabetSize)
      (hcoded : symbolCoded x.toNat s = true) : Effect s (.enc x) (emitBits (codePath x.toNat s) s)
  | decbitLeaf (x : Operand) (herr : s.err = none) (hphase : s.phase ≠ .collect) (hx : x.toNat ≤ 1)
      (hroot : s.root ≠ Config.nil) (hinternal : isLeaf s.node s.root.toNat = false)
      (hleaf : isLeaf s.node (nextNode (bitOf x) s).toNat = true) :
      Effect s (.decbit x) (cursorToRoot (emitSym (nodeRead s.node (nextNode (bitOf x) s).toNat).sym s))
  | decbitInner (x : Operand) (herr : s.err = none) (hphase : s.phase ≠ .collect) (hx : x.toNat ≤ 1)
      (hroot : s.root ≠ Config.nil) (hinternal : isLeaf s.node s.root.toNat = false)
      (hinner : isLeaf s.node (nextNode (bitOf x) s).toNat = false) :
      Effect s (.decbit x) { s with cur := nextNode (bitOf x) s, depth := s.depth + 1#8 }
  | decrst (herr : s.err = none) (hphase : s.phase ≠ .collect) : Effect s .decrst (cursorToRoot s)
  | read (i : Instr) (v : Word) (hi : isRead i) : Effect s i (emitResp v s)

/-- The state stays, or a fault is latched over none, or the command has its effect. -/
def Outcomes (s : State) (i : Instr) (t : State) : Prop :=
  t = s ∨ (∃ e, s.err = none ∧ i ≠ .nop ∧ t = raise e (encode i) s) ∨ Effect s i t

theorem runDataPath_outcomes (i : Instr) (hi : i ≠ .nop) (checks : List (Bool × ErrorKind)) (effect : State → State)
    (s : State) (h : s.err = none → permittedIn s.phase i = true → (∀ c ∈ checks, c.1 = true) →
      effect s = s ∨ Effect s i (effect s)) :
    Outcomes s i (runDataPath i checks effect s) := by
  rcases runDataPath_cases i checks effect s with ⟨-, he⟩ | ⟨e, herr, -, he⟩ | ⟨herr, hp, hc, he⟩
  · exact .inl he
  · exact .inr (.inl ⟨e, herr, hi, he⟩)
  · rw [he]
    exact (h herr hp hc).imp id .inr

theorem runRead_outcomes {i : Instr} (hi : isRead i) (response : Option Word) (s : State) :
    Outcomes s i (runRead i response s) := by
  have hnop : i ≠ .nop := by
    obtain ⟨x, hx⟩ := hi
    rintro rfl
    simp at hx
  rcases runRead_cases i response s with ⟨v, -, he⟩ | ⟨-, he⟩
  · exact .inr (.inr (he ▸ .read i v hi))
  · rcases illegalWord_cases (encode i) s with ⟨-, hw⟩ | ⟨herr, hw⟩
    · exact .inl (he.trans hw)
    · exact .inr (.inl ⟨_, herr, hnop, he.trans hw⟩)

theorem validSymbol_iff (x : Operand) : validSymbol x = true ↔ x.toNat < Config.alphabetSize :=
  decide_eq_true_iff.trans Nat.lt_succ_iff.symm

theorem walkable_iff (s : State) :
    walkable s = true ↔ s.root ≠ Config.nil ∧ isLeaf s.node s.root.toNat = false := by
  simp [walkable]

theorem decodeBit_effect {s : State} {x : Operand} (herr : s.err = none) (hphase : s.phase ≠ .collect)
    (hx : validBit x = true) (hwalk : walkable s = true) : Effect s (.decbit x) (decodeBit (bitOf x) s) := by
  have hx : x.toNat ≤ 1 := of_decide_eq_true hx
  obtain ⟨hroot, hinternal⟩ := (walkable_iff s).1 hwalk
  unfold decodeBit
  split
  · next hleaf => exact .decbitLeaf x herr hphase hx hroot hinternal hleaf
  · next hinner => exact .decbitInner x herr hphase hx hroot hinternal (Bool.eq_false_iff.2 hinner)

/-- Everything a command can do (R66). -/
theorem nextOf_outcomes (i : Instr) (s : State) : Outcomes s i (nextOf i s) := by
  cases i with
  | nop => exact .inl rfl
  | clear => exact .inr (.inr .clear)
  | clrerr => exact .inr (.inr .clrerr)
  | count x =>
    refine runDataPath_outcomes (.count x) nofun _ _ s fun herr hp hc => .inr (.count x herr (eq_of_beq hp) ?_ ?_)
    · exact (validSymbol_iff x).1 (hc (validSymbol x, .alphabetOverflow) (by simp))
    · exact of_decide_eq_true (hc (countRoom s, .countOverflow) (by simp))
  | build => exact runDataPath_outcomes .build nofun _ _ s fun herr hp _ => .inr (.build herr (eq_of_beq hp))
  | mktab => exact runDataPath_outcomes .mktab nofun _ _ s fun herr hp _ => .inr (.mktab herr (bne_iff_ne.1 hp))
  | enc x =>
    refine runDataPath_outcomes (.enc x) nofun _ _ s fun herr hp hc => .inr (.enc x herr (eq_of_beq hp) ?_ ?_)
    · exact (validSymbol_iff x).1 (hc (validSymbol x, .alphabetOverflow) (by simp))
    · exact hc (symbolCoded x.toNat s, .symbolNotCoded) (by simp)
  | decbit x =>
    refine runDataPath_outcomes (.decbit x) nofun _ _ s fun herr hp hc =>
      .inr (decodeBit_effect herr (bne_iff_ne.1 hp) ?_ ?_)
    · exact hc (validBit x, .malformedBit) (by simp)
    · exact hc (walkable s, .noDecodePath) (by simp)
  | decend => exact runDataPath_outcomes .decend nofun _ _ s fun _ _ _ => .inl rfl
  | decrst => exact runDataPath_outcomes .decrst nofun _ _ s fun herr hp _ => .inr (.decrst herr (bne_iff_ne.1 hp))
  | rdreg x => exact runRead_outcomes ⟨x, by simp⟩ _ s
  | rdfreq x => exact runRead_outcomes ⟨x, by simp⟩ _ s
  | rdnodel x => exact runRead_outcomes ⟨x, by simp⟩ _ s
  | rdnodew x => exact runRead_outcomes ⟨x, by simp⟩ _ s
  | rdlen x => exact runRead_outcomes ⟨x, by simp⟩ _ s

theorem exec_outcomes {i : Instr} {s t : State} (h : exec i s = .next t) : Outcomes s i t := by
  rw [exec_eq_nextOf] at h
  cases h
  exact nextOf_outcomes i s

end Sys2Proof.Machine
end

section
/-! The rules over all commands (10_state.md R12 to R30, 20_memory.md R51): what each register, memory and stream is
written by, how the streams grow, and that no command depends on what was emitted. -/

namespace Sys2Proof.Machine

/-- Settles O54, from the effects of the commands (`exec_outcomes`). -/
theorem eachStateHasItsWriters : Obligations.EachStateHasItsWriters := by
  intro i s t h
  rcases exec_outcomes h with rfl | ⟨e, herr, -, rfl⟩ | heff
  · simp
  · simp [herr]
  · cases heff with
    | clear => simp
    | clrerr => simp
    | count x => simp [freqRead_freqWrite]
    | build => simp
    | mktab => simp
    | enc x => simp
    | decbitLeaf x => simp
    | decbitInner x => simp
    | decrst => simp
    | read i v hi => simpa [isRead] using hi

/-- At most one stream grows; none when the latch changes, and with a fault latched only `resp_out` can. -/
def StreamsGrow (s t : State) : Prop :=
  ∃ (r : List Word) (b : List Bool) (y : List Symbol),
    t.respOut = s.respOut ++ r ∧ t.bitOut = s.bitOut ++ b ∧ t.symOut = s.symOut ++ y ∧
    r.length ≤ 1 ∧ y.length ≤ 1 ∧
    ((b = [] ∧ y = []) ∨ (r = [] ∧ y = []) ∨ (r = [] ∧ b = [])) ∧
    (t.err ≠ s.err → r = [] ∧ b = [] ∧ y = []) ∧ (s.err ≠ none → b = [] ∧ y = [])

theorem StreamsGrow.of_same {s t : State} (hr : t.respOut = s.respOut) (hb : t.bitOut = s.bitOut)
    (hy : t.symOut = s.symOut) : StreamsGrow s t :=
  ⟨[], [], [], by simp [hr, hb, hy]⟩

theorem StreamsGrow.of_effect {s t : State} {i : Instr} (h : Effect s i t) : StreamsGrow s t := by
  cases h with
  | enc x herr => exact ⟨[], codePath x.toNat s, [], by simp [herr]⟩
  | decbitLeaf x herr => exact ⟨[], [], [(nodeRead s.node (nextNode (bitOf x) s).toNat).sym], by simp [herr]⟩
  | read i v => exact ⟨[v], [], [], by simp⟩
  | _ => exact .of_same rfl rfl rfl

theorem illegalWord_streams (w : Word) (s : State) : StreamsGrow s (illegalWord w s) := by
  rcases illegalWord_cases w s with ⟨-, he⟩ | ⟨-, he⟩ <;> rw [he] <;> exact .of_same rfl rfl rfl

theorem exec_streams {i : Instr} {s t : State} (h : exec i s = .next t) : StreamsGrow s t := by
  rcases exec_outcomes h with rfl | ⟨e, -, -, rfl⟩ | heff
  · exact .of_same rfl rfl rfl
  · exact .of_same rfl rfl rfl
  · exact .of_effect heff

/-- Settles O55: taking the host's event leaves the streams and the latch as they are, so the step grows the streams
as the command does (`exec_streams`). -/
theorem streamsOnlyGrow : Obligations.StreamsOnlyGrow := by
  intro s t h
  rcases step_cases s with ⟨-, he⟩ | ⟨w, rest, i, -, -, he⟩ | ⟨w, rest, why, -, -, he⟩ | ⟨rest, -, he⟩
  · cases he.symm.trans h
    exact StreamsGrow.of_same rfl rfl rfl
  · exact exec_streams (s := { s with hostIn := rest }) (he.symm.trans h)
  · cases he.symm.trans h
    exact illegalWord_streams w { s with hostIn := rest }
  · cases he.symm.trans h
    exact StreamsGrow.of_same rfl rfl rfl

/-! ### No command depends on what was emitted -/

/-- The state `s` after a past in which the items of `past` had been emitted, with what `past` has presented. -/
def State.after (s past : State) : State :=
  { s with
    respOut := past.respOut ++ s.respOut, bitOut := past.bitOut ++ s.bitOut, symOut := past.symOut ++ s.symOut
    hostIn := past.hostIn }

theorem block_after_self (s : State) : s.block.after s = s := by
  simp [State.after, State.block]

theorem emitResp_after (v : Word) (s past : State) : emitResp v (s.after past) = (emitResp v s).after past := by
  simp [emitResp, State.after]

theorem emitBits_after (p : BitPath) (s past : State) : emitBits p (s.after past) = (emitBits p s).after past := by
  simp [emitBits, State.after]

theorem emitSym_after (v : Symbol) (s past : State) : emitSym v (s.after past) = (emitSym v s).after past := by
  simp [emitSym, State.after]

theorem illegalWord_after (w : Word) (s past : State) :
    illegalWord w (s.after past) = (illegalWord w s).after past := by
  unfold illegalWord
  exact (apply_ite (State.after · past) (latched s = true) s (raise .illegalCommand w s)).symm

theorem runRead_after (i : Instr) (response : Option Word) (s past : State) :
    runRead i response (s.after past) = (runRead i response s).after past := by
  cases response with
  | some v => exact emitResp_after v s past
  | none => exact illegalWord_after (encode i) s past

theorem runDataPath_after (i : Instr) (checks : List (Bool × ErrorKind)) {effect : State → State} {s past : State}
    (h : effect (s.after past) = (effect s).after past) :
    runDataPath i checks effect (s.after past) = (runDataPath i checks effect s).after past := by
  unfold runDataPath
  rw [apply_ite (State.after · past)]
  refine ite_congr rfl (fun _ => rfl) fun _ => ?_
  rw [show (s.after past).phase = s.phase from rfl]
  cases firstFailure ((permittedIn s.phase i, .sequenceError) :: checks) with
  | some e => rfl
  | none => exact h

theorem decodeBit_after (b : Bool) (s past : State) : decodeBit b (s.after past) = (decodeBit b s).after past := by
  unfold decodeBit
  rw [apply_ite (State.after · past)]
  refine ite_congr rfl (fun _ => ?_) fun _ => rfl
  exact congrArg cursorToRoot (emitSym_after _ s past)

theorem buildEffect_after (s past : State) : buildEffect (s.after past) = (buildEffect s).after past := by
  simp [buildEffect, cursorToRoot, State.after]

/-- A command does the same after any past: it neither reads nor takes back what was emitted. -/
theorem nextOf_after (i : Instr) (s past : State) : nextOf i (s.after past) = (nextOf i s).after past := by
  cases i with
  | nop => rfl
  | clear => simp [nextOf, exec, execClear, State.after]
  | clrerr => rfl
  | count x => exact runDataPath_after (.count x) _ rfl
  | build => exact runDataPath_after .build _ (buildEffect_after s past)
  | mktab => exact runDataPath_after .mktab _ rfl
  | enc x => exact runDataPath_after (.enc x) _ (emitBits_after _ s past)
  | decbit x => exact runDataPath_after (.decbit x) _ (decodeBit_after _ s past)
  | decend => exact runDataPath_after .decend _ rfl
  | decrst => exact runDataPath_after .decrst _ rfl
  | rdreg x => exact runRead_after _ _ s past
  | rdfreq x => exact runRead_after _ _ s past
  | rdnodel x => exact runRead_after _ _ s past
  | rdnodew x => exact runRead_after _ _ s past
  | rdlen x => exact runRead_after _ _ s past

/-- Settles O56: either state is its block after its own past, and the command runs on the block (`nextOf_after`). -/
theorem behaviourIgnoresTheStreams : Obligations.BehaviourIgnoresTheStreams := by
  intro i s s' t t' hblock h h'
  rw [exec_eq_nextOf] at h h'
  cases h
  cases h'
  have hs : nextOf i s = (nextOf i s.block).after s := by rw [← nextOf_after, block_after_self]
  have hs' : nextOf i s' = (nextOf i s.block).after s' := by rw [← nextOf_after, hblock, block_after_self]
  rw [hs, hs']
  exact ⟨rfl, _, _, _, rfl, rfl, rfl, rfl, rfl, rfl⟩

end Sys2Proof.Machine
end

section
/-! The canonical form of the tables (10_state.md R26, R28), the reset values (R33) and the bits of `STATUS` (R24). -/

namespace Sys2Proof.Machine

/-- The traversal writes only entries below 256, in rising order, also in an arena no run reaches. -/
theorem walkTree_tableWf (node : List NodeRec) (fuel i : Nat) (p : BitPath) {code : List (Nat × BitPath)}
    (h : tableWf Config.alphabetSize code) : tableWf Config.alphabetSize (walkTree node fuel i p code) := by
  induction fuel generalizing i p code with
  | zero => exact h
  | succ fuel ih =>
    unfold walkTree
    split
    · exact tableInsert_wf h (nodeRead node i).sym.isLt p
    · exact ih _ _ (ih _ _ h)

theorem makeTable_tableWf (node : List NodeRec) (root : NodeIndex) :
    tableWf Config.alphabetSize (makeTable node root) := by
  have hempty : tableWf Config.alphabetSize ([] : List (Nat × BitPath)) := by decide
  unfold makeTable
  split
  · exact hempty
  · exact walkTree_tableWf node _ _ _ hempty

/-- `FREQ` and `CODE` are in canonical form. -/
def TablesCanonical (s : State) : Prop := freqWf s.freq ∧ tableWf Config.alphabetSize s.code

theorem tablesCanonical_applyReset (s : State) : TablesCanonical (applyReset s) := by
  obtain ⟨hfreq, ⟨hcode, -⟩, -⟩ := reset_memory_wf
  exact ⟨hfreq, hcode⟩

theorem TablesCanonical.of_effect {s t : State} {i : Instr} (h : TablesCanonical s) (heff : Effect s i t) :
    TablesCanonical t := by
  obtain ⟨hfreq, hcode⟩ := h
  cases heff with
  | clear => exact tablesCanonical_applyReset s
  | count x _ _ hx => exact ⟨freqWrite_wf hfreq hx _, hcode⟩
  | mktab => exact ⟨hfreq, makeTable_tableWf s.node s.root⟩
  | _ => exact ⟨hfreq, hcode⟩

theorem TablesCanonical.of_exec {s t : State} {i : Instr} (h : TablesCanonical s) (hexec : exec i s = .next t) :
    TablesCanonical t := by
  rcases exec_outcomes hexec with rfl | ⟨e, -, -, rfl⟩ | heff
  · exact h
  · exact h
  · exact h.of_effect heff

theorem TablesCanonical.illegalWord {s : State} (h : TablesCanonical s) (w : Word) :
    TablesCanonical (illegalWord w s) := by
  rcases illegalWord_cases w s with ⟨-, he⟩ | ⟨-, he⟩ <;> rw [he] <;> exact h

/-- Settles O57: `COUNT` writes one entry of `FREQ`, `MKTAB` the whole of `CODE`, `CLEAR` and `rst` empty both. -/
theorem stepKeepsTheTablesCanonical : Obligations.StepKeepsTheTablesCanonical := by
  intro s t hfreq hcode h
  have hs : TablesCanonical s := ⟨hfreq, hcode⟩
  rcases step_cases s with ⟨-, he⟩ | ⟨w, rest, i, -, -, he⟩ | ⟨w, rest, why, -, -, he⟩ | ⟨rest, -, he⟩
  · cases he.symm.trans h
    exact hs
  · exact TablesCanonical.of_exec (s := { s with hostIn := rest }) hs (he.symm.trans h)
  · cases he.symm.trans h
    exact TablesCanonical.illegalWord (s := { s with hostIn := rest }) hs w
  · cases he.symm.trans h
    exact tablesCanonical_applyReset _

/-- Settles O22: each listed register, and the two tables at every index, read at the reset state. -/
theorem resetStateHoldsTheListedValues : Obligations.ResetStateHoldsTheListedValues := by
  refine ⟨?_, rfl, rfl, rfl, fun c => ?_, fun c => ?_, rfl⟩
  · decide
  · simp [freqRead, State.reset, tableFind]
  · simp [codeRead, State.reset, tableFind]

/-- `STATUS` bit by bit (R24). -/
theorem statusWord_getLsbD (s : State) (k : Nat) :
    (statusWord s).getLsbD k =
      if k < 2 then s.phase.bits.getLsbD k
      else if k = 2 then treeFlag s
      else if k = 3 then s.filler
      else if k = 4 then errLine s
      else if k = 5 then midpathFlag s
      else false := by
  have happ : (statusWord s).getLsbD k =
      (0#26 ++ BitVec.ofBool (midpathFlag s) ++ BitVec.ofBool (errLine s) ++ BitVec.ofBool s.filler ++
        BitVec.ofBool (treeFlag s) ++ s.phase.bits : BitVec (26 + 1 + 1 + 1 + 1 + 2)).getLsbD k := rfl
  rw [happ]
  simp only [BitVec.getLsbD_append, BitVec.getLsbD_ofBool]
  grind

/-- Settles O49, from the bits of `STATUS` (`statusWord_getLsbD`). -/
theorem statusBitsAreComputed : Obligations.StatusBitsAreComputed := by
  refine ⟨fun s => ⟨?_, ?_, ?_, ?_, ?_, ?_, rfl⟩, rfl⟩
  · have hbits : (statusWord s).extractLsb' 0 2 = s.phase.bits := by
      apply BitVec.eq_of_getLsbD_eq
      intro k hk
      simp [statusWord_getLsbD, hk]
    rw [hbits]
    cases s.phase <;> rfl
  · rw [statusWord_getLsbD]
    simp [treeFlag, Config.nil]
  · rw [statusWord_getLsbD]
    simp
  · rw [statusWord_getLsbD]
    simp [errLine]
  · rw [statusWord_getLsbD]
    simp [midpathFlag]
  · apply BitVec.eq_of_getLsbD_eq
    intro k hk
    rw [BitVec.getLsbD_extractLsb', statusWord_getLsbD, if_neg (by omega), if_neg (by omega), if_neg (by omega),
      if_neg (by omega), if_neg (by omega)]
    simp

end Sys2Proof.Machine
end

section
/-! The invariant (10_state.md R32) in phase `COLLECT`, and under the changes that leave the tree alone. -/

namespace Sys2Proof.Machine

/-! ### The sum of the counts -/

theorem mem_le_sum {l : List Nat} {n : Nat} (h : n ∈ l) : n ≤ l.sum := by
  induction l with
  | nil => exact absurd h List.not_mem_nil
  | cons m l ih =>
    rw [List.sum_cons]
    rcases List.mem_cons.1 h with rfl | h
    · exact Nat.le_add_right _ _
    · exact Nat.le_trans (ih h) (Nat.le_add_left _ _)

/-- A function raised by 1 at `c` raises the sum over a list once for each time `c` occurs in it. -/
theorem sum_map_add_one_at (f : Nat → Nat) (c : Nat) (l : List Nat) :
    (l.map fun k => f k + if k = c then 1 else 0).sum = (l.map f).sum + l.count c := by
  induction l with
  | nil => rfl
  | cons k l ih =>
    rw [List.map_cons, List.map_cons, List.sum_cons, List.sum_cons, ih, List.count_cons]
    simp only [beq_iff_eq]
    omega

theorem freqSum_nil : freqSum [] = 0 := by
  have hzero : ((List.range Config.alphabetSize).map fun _ => 0).sum = 0 := by
    rw [List.map_const', List.sum_replicate_nat, Nat.mul_zero]
  exact hzero

theorem freqRead_le_freqSum (freq : List (Nat × Weight)) {c : Nat} (hc : c < Config.alphabetSize) :
    (freqRead freq c).toNat ≤ freqSum freq :=
  mem_le_sum (List.mem_map_of_mem (f := fun k => (freqRead freq k).toNat) (List.mem_range.2 hc))

/-- Counting a symbol once more raises the sum by 1, while the counter has room (41_count.md R91, R92). -/
theorem freqSum_freqWrite_succ {freq : List (Nat × Weight)} {c : Nat} (hc : c < Config.alphabetSize)
    (hroom : (freqRead freq c).toNat + 1 < 2 ^ 32) :
    freqSum (freqWrite freq c (freqRead freq c + 1#32)) = freqSum freq + 1 := by
  have hcount (k : Nat) : (freqRead (freqWrite freq c (freqRead freq c + 1#32)) k).toNat =
      (freqRead freq k).toNat + if k = c then 1 else 0 := by
    rw [freqRead_freqWrite]
    split
    · next hk =>
      rw [hk, BitVec.toNat_add_of_lt hroom]
      rfl
    · rfl
  unfold freqSum
  rw [List.map_congr_left fun k _ => hcount k, sum_map_add_one_at, List.count_range, if_pos hc]

/-! ### The states of phase `COLLECT` -/

/-- In phase `COLLECT` the invariant is an empty tree, and agreement of `TOTAL` with the counts. -/
theorem Inv.of_collect {s : State} (hphase : s.phase = .collect) (hempty : Inv.CollectEmpty s) (hnode : s.node = [])
    (hfreq : freqWf s.freq) (herr : s.err = none ↔ s.errinfo = 0#32) (hsum : s.total.toNat = freqSum s.freq)
    (hmax : s.total.toNat ≤ Config.totalMax) : Inv s := by
  obtain ⟨hnnodes, hnleaves, hroot, hcur, hdepth, -, -, hcode⟩ := hempty hphase
  have hcodeWf : codeWf s.code := hcode ▸ reset_memory_wf.2.1
  exact
  { memory := ⟨hfreq, hcodeWf, by simp [hnode]⟩
    slots := by simp [hnode, hnnodes]
    collectEmpty := hempty
    builtSizes := absurd hphase
    leavesOfFreq := absurd hphase
    nodeShape := by simp [Inv.NodeShape, hnnodes]
    oneParent := by simp [Inv.OneParent, hnnodes]
    weights := by simp [Inv.Weights, hnnodes, hroot]
    leafSymbols := by simp [Inv.LeafSymbols, hnleaves]
    table := by simp [Inv.Table, hphase]
    cursor := .inl ⟨hcur.trans hroot.symm, hdepth⟩
    errInfo := herr
    totalSum := hsum
    totalMax := hmax
    rootInternal := absurd hroot }

/-- Settles O58: the reset state is in phase `COLLECT`, with nothing counted. -/
theorem resetStateMeetsTheInvariant : Obligations.ResetStateMeetsTheInvariant := by
  have hsum : State.reset.total.toNat = freqSum State.reset.freq := freqSum_nil.symm
  exact Inv.of_collect rfl (by decide) rfl reset_memory_wf.1 (by decide) hsum (by decide)

theorem Inv.root_of_collect {s : State} (h : Inv s) (hphase : s.phase = .collect) : s.root = Config.nil := by
  obtain ⟨-, -, hroot, -⟩ := h.collectEmpty hphase
  exact hroot

theorem Inv.code_of_collect {s : State} (h : Inv s) (hphase : s.phase = .collect) : s.code = [] := by
  obtain ⟨-, -, -, -, -, -, -, hcode⟩ := h.collectEmpty hphase
  exact hcode

/-- `COUNT` keeps the invariant: the guard on `TOTAL` leaves room in the counter too (R91, R92). -/
theorem Inv.countSymbol {s : State} (h : Inv s) (hphase : s.phase = .collect) {c : Nat}
    (hc : c < Config.alphabetSize) (hroom : s.total.toNat ≠ Config.totalMax) : Inv (countSymbol c s) := by
  have htotal : s.total.toNat + 1 ≤ 4294967294 := Nat.lt_of_le_of_ne h.totalMax hroom
  have hread : (freqRead s.freq c).toNat ≤ s.total.toNat := h.totalSum ▸ freqRead_le_freqSum s.freq hc
  have hsucc : (s.total + 1#32).toNat = s.total.toNat + 1 :=
    BitVec.toNat_add_of_lt (by simpa using Nat.lt_of_le_of_lt htotal (by decide))
  have hnode : s.node = [] := by
    rw [← List.length_eq_zero_iff, h.slots, (h.collectEmpty hphase).1]
    rfl
  refine .of_collect hphase h.collectEmpty hnode (freqWrite_wf h.memory.1 hc _) h.errInfo ?_ ?_
  · rw [countSymbol_total, countSymbol_freq, hsucc, freqSum_freqWrite_succ hc (by omega), h.totalSum]
  · rw [countSymbol_total, hsucc]
    exact htotal

/-! ### Changes that leave the tree alone -/

/-- The invariant speaks of the block only, not of the streams or of what the host presents (R30). -/
theorem inv_block_iff (s : State) : Inv s.block ↔ Inv s := ⟨fun h => { h with }, fun h => { h with }⟩

theorem Inv.of_block_eq {s t : State} (h : Inv s) (hblock : t.block = s.block) : Inv t := by
  rwa [← inv_block_iff, hblock, inv_block_iff]

theorem Inv.raise {s : State} (h : Inv s) (e : ErrorKind) {w : Word} (hw : w ≠ 0#32) : Inv (raise e w s) :=
  { h with errInfo := by simp [hw] }

theorem Inv.clearLatch {s : State} (h : Inv s) : Inv (clearLatch s) := { h with errInfo := by simp }

theorem Inv.cursorToRoot {s : State} (h : Inv s) : Inv (cursorToRoot s) :=
  { h with
    collectEmpty := fun hphase => by
      obtain ⟨hnnodes, hnleaves, hroot, -, -, hrest⟩ := h.collectEmpty hphase
      exact ⟨hnnodes, hnleaves, hroot, hroot, rfl, hrest⟩
    cursor := .inl ⟨rfl, rfl⟩ }

theorem inv_applyReset (s : State) : Inv (applyReset s) := resetStateMeetsTheInvariant.of_block_eq rfl

/-- Only `NOP` is spelled by the word 0, so the word of a raise is never 0 (30_encoding.md R63). -/
theorem encode_ne_zero {i : Instr} (hi : i ≠ .nop) : encode i ≠ 0#32 := by
  intro h
  have hop : i.opcode = 0#8 := by rw [← opField_encode, h]; rfl
  cases i with
  | nop => exact hi rfl
  | _ => simp [Instr.opcode] at hop

theorem Inv.illegalWord {s : State} (h : Inv s) {w : Word} (hw : w ≠ 0#32) : Inv (illegalWord w s) := by
  rcases illegalWord_cases w s with ⟨-, he⟩ | ⟨-, he⟩ <;> rw [he]
  · exact h
  · exact h.raise .illegalCommand hw

end Sys2Proof.Machine
end

section
/-! The built tree of a state that meets the invariant (10_state.md R32): leaves and internal nodes, routes, their
bounds, and that `MKTAB` and `DECBIT` keep the invariant. -/

namespace Sys2Proof.Machine

/-! ### Routes -/

theorem route_append (node : List NodeRec) (i : Nat) (p q : BitPath) :
    route node i (p ++ q) = (route node i p).bind fun j => route node j q := by
  induction p generalizing i with
  | nil => rfl
  | cons b p ih =>
    simp only [List.cons_append, route]
    split
    · rfl
    · exact ih _

theorem route_snoc {node : List NodeRec} {i j : Nat} {p : BitPath} (hp : route node i p = some j)
    (hj : isLeaf node j = false) (b : Bool) : route node i (p ++ [b]) = some (child node j b).toNat := by
  simp [route_append, hp, route, hj]

theorem route_cons_eq_some {node : List NodeRec} {i j : Nat} {b : Bool} {p : BitPath} :
    route node i (b :: p) = some j ↔ isLeaf node i = false ∧ route node (child node i b).toNat p = some j := by
  rw [route]
  cases isLeaf node i <;> simp

/-! ### The traversal of `MKTAB` -/

theorem isSome_codeRead_codeWrite {code : List (Nat × BitPath)} {c : Nat} (k : Nat) (p : BitPath)
    (h : (codeRead code c).isSome = true) : (codeRead (codeWrite code k p) c).isSome = true := by
  rw [codeRead_codeWrite]
  split
  · rfl
  · exact h

/-- The traversal makes no entry invalid. -/
theorem isSome_codeRead_walkTree (node : List NodeRec) (fuel i : Nat) (p : BitPath) {code : List (Nat × BitPath)}
    {c : Nat} (h : (codeRead code c).isSome = true) :
    (codeRead (walkTree node fuel i p code) c).isSome = true := by
  induction fuel generalizing i p code with
  | zero => exact h
  | succ fuel ih =>
    unfold walkTree
    split
    · exact isSome_codeRead_codeWrite _ p h
    · exact ih _ _ (ih _ _ h)

/-- The traversal writes an entry for each leaf it has the levels to reach (R122). -/
theorem walkTree_reaches (node : List NodeRec) {fuel i l : Nat} {q : BitPath} (hfuel : q.length < fuel)
    (hq : route node i q = some l) (hl : isLeaf node l = true) (p : BitPath) (code : List (Nat × BitPath)) :
    (codeRead (walkTree node fuel i p code) (nodeRead node l).sym.toNat).isSome = true := by
  induction fuel generalizing i p code q with
  | zero => exact absurd hfuel (Nat.not_lt_zero _)
  | succ fuel ih =>
    unfold walkTree
    cases q with
    | nil =>
      cases hq
      rw [if_pos hl, codeRead_codeWrite, if_pos rfl]
      rfl
    | cons b q =>
      obtain ⟨hi, hq⟩ := route_cons_eq_some.1 hq
      have hlen : q.length < fuel := Nat.lt_of_succ_lt_succ hfuel
      rw [if_neg (by simp [hi])]
      cases b with
      | true => exact ih hlen hq _ _
      | false => exact isSome_codeRead_walkTree node fuel _ _ (ih hlen hq _ _)

/-- Each entry the traversal writes is the route to a leaf with the entry's symbol, after the path so far. -/
theorem mem_walkTree {node : List NodeRec} {fuel i : Nat} {p : BitPath} {code : List (Nat × BitPath)}
    {e : Nat × BitPath} (he : e ∈ walkTree node fuel i p code) :
    e ∈ code ∨ ∃ q l, route node i q = some l ∧ isLeaf node l = true ∧ e = ((nodeRead node l).sym.toNat, p ++ q) := by
  induction fuel generalizing i p code with
  | zero => exact .inl he
  | succ fuel ih =>
    unfold walkTree at he
    split at he
    · next hi =>
      exact (mem_tableInsert he).symm.imp id fun he => ⟨[], i, rfl, hi, by simpa using he⟩
    · next hi =>
      have hi : isLeaf node i = false := Bool.eq_false_iff.2 hi
      rcases ih he with he | ⟨q, l, hq, hl, rfl⟩
      · refine (ih he).imp id ?_
        rintro ⟨q, l, hq, hl, rfl⟩
        exact ⟨false :: q, l, route_cons_eq_some.2 ⟨hi, hq⟩, hl, by simp⟩
      · exact .inr ⟨true :: q, l, route_cons_eq_some.2 ⟨hi, hq⟩, hl, by simp⟩

/-- Each entry of the new table leads to a leaf with its symbol (43_codetable.md R121). -/
theorem leadsToLeaf_of_mem_makeTable {s : State} {e : Nat × BitPath} (he : e ∈ makeTable s.node s.root) :
    LeadsToLeaf s e.2 e.1 := by
  unfold makeTable at he
  split at he
  · simp at he
  · next hroot =>
    rcases mem_walkTree he with he | ⟨q, l, hq, hl, rfl⟩
    · simp at he
    · exact ⟨hroot, l, hq, hl, rfl⟩

/-! ### The tree of the invariant -/

section Tree

variable {s : State} (h : Inv s)

include h

theorem Inv.nnodes_le : s.nnodes.toNat ≤ 511 := h.slots ▸ h.memory.2.2

/-- With a root there is a built tree, and the root is its last node (42_build.md R109). -/
theorem Inv.root_toNat (hroot : s.root ≠ Config.nil) :
    s.root.toNat + 1 = s.nnodes.toNat ∧ s.nnodes.toNat + 1 = 2 * s.nleaves.toNat := by
  have hphase : s.phase ≠ .collect := fun hphase => hroot (h.root_of_collect hphase)
  obtain ⟨-, hsize, hlast, -, -⟩ := h.builtSizes hphase
  have hpos : s.nnodes.toNat ≠ 0 := fun hzero => hroot (by rwa [if_pos hzero] at hlast)
  rw [if_neg hpos] at hlast
  split at hsize
  · exact absurd hsize hpos
  · omega

/-- In phases `TREE` and `READY` without a root there is no node. -/
theorem Inv.sizes_of_no_root (hphase : s.phase ≠ .collect) (hroot : s.root = Config.nil) :
    s.nnodes.toNat = 0 ∧ s.nleaves.toNat = 0 := by
  obtain ⟨-, hsize, hlast, -, -⟩ := h.builtSizes hphase
  have hle := h.nnodes_le
  have hnil : s.root.toNat = 511 := congrArg BitVec.toNat hroot
  have hzero : s.nnodes.toNat = 0 := by
    refine Decidable.byContradiction fun hpos => ?_
    rw [if_neg hpos] at hlast
    omega
  split at hsize <;> omega

theorem Inv.children_lt {i : Nat} (hi : i < s.nnodes.toNat) (hge : ¬ i < s.nleaves.toNat) (b : Bool) :
    (child s.node i b).toNat < i := by
  have hshape := h.nodeShape i hi
  rw [if_neg hge] at hshape
  cases b with
  | false => exact hshape.1
  | true => exact hshape.2.1

/-- The leaf detector agrees with the range of the leaves (45_decode.md R144). -/
theorem Inv.isLeaf_iff {i : Nat} (hi : i < s.nnodes.toNat) : isLeaf s.node i = true ↔ i < s.nleaves.toNat := by
  refine ⟨fun hleaf => ?_, fun hlt => ?_⟩
  · refine Decidable.byContradiction fun hge => ?_
    have hlt : (nodeRead s.node i).left.toNat < i := h.children_lt hi hge false
    have hnil : (nodeRead s.node i).left = Config.nil := by
      simp only [isLeaf, Bool.and_eq_true, beq_iff_eq] at hleaf
      exact hleaf.1
    have hle := h.nnodes_le
    rw [hnil, show Config.nil.toNat = 511 from rfl] at hlt
    omega
  · have hshape := h.nodeShape i hi
    rwa [if_pos hlt] at hshape

theorem Inv.le_of_not_leaf {i : Nat} (hi : i < s.nnodes.toNat) (hinner : isLeaf s.node i = false) :
    s.nleaves.toNat ≤ i := by
  refine Decidable.byContradiction fun hlt => ?_
  rw [(h.isLeaf_iff hi).2 (by omega)] at hinner
  exact Bool.noConfusion hinner

theorem Inv.child_lt {i : Nat} (hi : i < s.nnodes.toNat) (hinner : isLeaf s.node i = false) (b : Bool) :
    (child s.node i b).toNat < i :=
  h.children_lt hi (Nat.not_lt.2 (h.le_of_not_leaf hi hinner)) b

/-- A route only descends, so it stays inside the arena and visits each internal node at most once. -/
theorem Inv.route_bounds {i j : Nat} {p : BitPath} (hi : i < s.nnodes.toNat) (hp : route s.node i p = some j) :
    j ≤ i ∧ s.nleaves.toNat + p.length ≤ max s.nleaves.toNat (i + 1) := by
  induction p generalizing i with
  | nil =>
    cases hp
    exact ⟨Nat.le_refl _, Nat.le_max_left ..⟩
  | cons b p ih =>
    obtain ⟨hinner, hp⟩ := route_cons_eq_some.1 hp
    have hge := h.le_of_not_leaf hi hinner
    have hlt := h.child_lt hi hinner b
    have := ih (Nat.lt_trans hlt hi) hp
    rw [List.length_cons]
    omega

/-- A route from the root is at most `MAXLEN` long (43_codetable.md R124). -/
theorem Inv.root_route_bounds (hroot : s.root ≠ Config.nil) {p : BitPath} {j : Nat}
    (hp : route s.node s.root.toNat p = some j) : j < s.nnodes.toNat ∧ p.length ≤ Config.maxLen := by
  obtain ⟨hlast, hsize⟩ := h.root_toNat hroot
  have hle := h.nnodes_le
  have := h.route_bounds (by omega) hp
  exact ⟨by omega, show p.length ≤ 255 by omega⟩

/-- Every node has a route from the root: each but the root has a parent, of greater index. -/
theorem Inv.exists_route (hroot : s.root ≠ Config.nil) {i : Nat} (hi : i < s.nnodes.toNat) :
    ∃ p, route s.node s.root.toNat p = some i := by
  obtain ⟨hlast, -⟩ := h.root_toNat hroot
  by_cases hroot_i : i + 1 = s.nnodes.toNat
  · exact ⟨[], congrArg some (by omega)⟩
  · have hone : (parents s i).length = 1 := by rw [h.oneParent i hi, if_pos (by omega)]
    obtain ⟨j, hj⟩ := List.length_pos_iff_exists_mem.1 (by omega : 0 < (parents s i).length)
    simp only [parents, List.mem_filter, List.mem_range, Bool.and_eq_true, Bool.not_eq_true', Bool.or_eq_true,
      beq_iff_eq] at hj
    obtain ⟨hjlt, hinner, hchild⟩ := hj
    obtain ⟨b, hb⟩ : ∃ b, (child s.node j b).toNat = i := by
      rcases hchild with hleft | hright
      · exact ⟨false, hleft⟩
      · exact ⟨true, hright⟩
    have hlt : i < j := hb ▸ h.child_lt hjlt hinner b
    obtain ⟨p, hp⟩ := Inv.exists_route hroot hjlt
    exact ⟨p ++ [b], hb ▸ route_snoc hp hinner b⟩
termination_by s.nnodes.toNat - i

/-! ### `MKTAB` -/

/-- The new table lists the symbol of every leaf (R121). -/
theorem Inv.isSome_codeRead_makeTable (hroot : s.root ≠ Config.nil) {l : Nat} (hl : l < s.nleaves.toNat) :
    (codeRead (makeTable s.node s.root) (nodeRead s.node l).sym.toNat).isSome = true := by
  obtain ⟨-, hsize⟩ := h.root_toNat hroot
  have hlt : l < s.nnodes.toNat := by omega
  obtain ⟨p, hp⟩ := h.exists_route hroot hlt
  have hlen := (h.root_route_bounds hroot hp).2
  rw [makeTable, if_neg hroot]
  exact walkTree_reaches s.node (Nat.lt_of_le_of_lt hlen (by decide)) hp ((h.isLeaf_iff hlt).2 hl) [] []

theorem Inv.makeTable_codeWf : codeWf (makeTable s.node s.root) := by
  refine ⟨makeTable_tableWf s.node s.root, fun e he => ?_⟩
  obtain ⟨hroot, l, hp, -, -⟩ := leadsToLeaf_of_mem_makeTable he
  exact (h.root_route_bounds hroot hp).2

theorem Inv.makeTable_table (hphase : s.phase ≠ .collect) :
    (∀ i < s.nleaves.toNat, (codeRead (makeTable s.node s.root) (nodeRead s.node i).sym.toNat).isSome = true) ∧
      ∀ e ∈ makeTable s.node s.root, ∃ l < s.nleaves.toNat,
        route s.node s.root.toNat e.2 = some l ∧ (nodeRead s.node l).sym.toNat = e.1 := by
  refine ⟨fun i hi => ?_, fun e he => ?_⟩
  · refine h.isSome_codeRead_makeTable (fun hroot => ?_) hi
    have := h.sizes_of_no_root hphase hroot
    omega
  · obtain ⟨hroot, l, hp, hleaf, hsym⟩ := leadsToLeaf_of_mem_makeTable he
    exact ⟨l, (h.isLeaf_iff (h.root_route_bounds hroot hp).1).1 hleaf, hp, hsym⟩

theorem Inv.mktabEffect (hphase : s.phase ≠ .collect) : Inv (mktabEffect s) := by
  obtain ⟨hfreq, -, hnode⟩ := h.memory
  exact
  { h with
    memory := ⟨hfreq, h.makeTable_codeWf, hnode⟩
    collectEmpty := nofun
    builtSizes := fun _ => h.builtSizes hphase
    leavesOfFreq := fun _ => h.leavesOfFreq hphase
    table := ⟨nofun, fun _ => h.makeTable_table hphase⟩ }

/-! ### `DECBIT` -/

/-- The cursor is at an internal node, `DEPTH` steps below the root (10_state.md R18, R20). -/
theorem Inv.exists_route_cur (hroot : s.root ≠ Config.nil) :
    isLeaf s.node s.cur.toNat = false ∧
      ∃ p : BitPath, p.length = s.depth.toNat ∧ route s.node s.root.toNat p = some s.cur.toNat := by
  rcases h.cursor with ⟨hcur, hdepth⟩ | ⟨-, -, -, hinner, p, hlen, -, hp⟩
  · exact ⟨hcur ▸ h.rootInternal hroot, [], by simp [hdepth], by rw [hcur]; rfl⟩
  · exact ⟨hinner, p, hlen, hp⟩

/-- A step to an internal node: the cursor is one level deeper, and `DEPTH` does not wrap (45_decode.md R141). -/
theorem Inv.cursorToInner (hroot : s.root ≠ Config.nil) (b : Bool)
    (hinner : isLeaf s.node (nextNode b s).toNat = false) :
    Inv { s with cur := nextNode b s, depth := s.depth + 1#8 } := by
  obtain ⟨hcur, p, hlen, hp⟩ := h.exists_route_cur hroot
  have hnext : route s.node s.root.toNat (p ++ [b]) = some (nextNode b s).toNat := route_snoc hp hcur b
  obtain ⟨hlast, -⟩ := h.root_toNat hroot
  have hle := h.nnodes_le
  have hcur_le : s.cur.toNat ≤ s.root.toNat := (h.route_bounds (by omega) hp).1
  have hlt : (nextNode b s).toNat < s.cur.toNat := h.child_lt (by omega) hcur b
  have hdepth : (p ++ [b]).length = (s.depth + 1#8).toNat := by
    have hbound : (p ++ [b]).length ≤ 255 := (h.root_route_bounds hroot hnext).2
    rw [List.length_append, List.length_singleton] at hbound ⊢
    rw [BitVec.toNat_add_of_lt (by simpa [← hlen] using Nat.lt_succ_of_le hbound), hlen]
    rfl
  have hne_root : nextNode b s ≠ s.root := fun heq => by rw [heq] at hlt; omega
  have hne_nil : nextNode b s ≠ Config.nil := fun heq => by
    rw [heq, show Config.nil.toNat = 511 from rfl] at hlt
    omega
  exact
  { h with
    collectEmpty := fun hphase => absurd (h.root_of_collect hphase) hroot
    cursor := .inr ⟨hroot, hne_root, hne_nil, hinner, p ++ [b], hdepth, by simp, hnext⟩ }

end Tree

/-- Settles O44, from the shape of the arena (`Inv.isLeaf_iff`): a child of an internal node has a lesser index than
its parent, so it is not `NIL`. -/
theorem leafDetectorAgreesWithTheLeafRange : Obligations.LeafDetectorAgreesWithTheLeafRange :=
  fun _ h _ hi => h.isLeaf_iff hi

end Sys2Proof.Machine
end

section
/-! The leaves `BUILD` makes (42_build.md R103, R104): one for each symbol present, in ascending order, and the filler
after a single one. -/

namespace Sys2Proof.Machine

/-! ### The symbols present -/

theorem mem_presentSymbols {freq : List (Nat × Weight)} {c : Nat} :
    c ∈ presentSymbols freq ↔ c < Config.alphabetSize ∧ freqRead freq c ≠ 0#32 := by
  simp [presentSymbols]

theorem presentSymbols_nodup (freq : List (Nat × Weight)) : (presentSymbols freq).Nodup :=
  List.nodup_range.filter _

theorem presentSymbols_length_le (freq : List (Nat × Weight)) : (presentSymbols freq).length ≤ 256 :=
  Nat.le_trans (List.length_filter_le _ _) (Nat.le_of_eq List.length_range)

theorem leafCount_le (freq : List (Nat × Weight)) : leafCount freq ≤ 256 := by
  have := presentSymbols_length_le freq
  unfold leafCount
  split <;> omega

theorem getD_of_lt {l : List Nat} {k : Nat} (hk : k < l.length) : l.getD k 0 = l[k] := by
  rw [List.getD_eq_getElem?_getD, List.getElem?_eq_getElem hk, Option.getD_some]

theorem getD_presentSymbols_mem {freq : List (Nat × Weight)} {k : Nat} (hk : k < (presentSymbols freq).length) :
    (presentSymbols freq).getD k 0 ∈ presentSymbols freq := by
  rw [getD_of_lt hk]
  exact List.getElem_mem hk

/-- The counts of the symbols present add up to the sum of all counts. -/
theorem sum_presentSymbols (freq : List (Nat × Weight)) :
    ((presentSymbols freq).map fun c => (freqRead freq c).toNat).sum = freqSum freq := by
  unfold presentSymbols freqSum
  induction List.range Config.alphabetSize with
  | nil => rfl
  | cons c cs ih =>
    rw [List.filter_cons]
    split
    · rw [List.map_cons, List.map_cons, List.sum_cons, List.sum_cons, ih]
    · next hc =>
      have hzero : freqRead freq c = 0#32 := by simpa using hc
      rw [List.map_cons, List.sum_cons, ih, hzero]
      exact (Nat.zero_add _).symm

/-! ### The leaf scan -/

/-- The leaves of a list of symbols, those of count 0 left out (R103). -/
def leavesOf (freq : List (Nat × Weight)) (cs : List Nat) : List NodeRec :=
  (cs.filter fun c => freqRead freq c != 0#32).map fun c => leafNode (freqRead freq c) (BitVec.ofNat 8 c)

/-- The builder that holds these slots, every one of them in the queue, and has no filler. -/
def leafBuilder (node : List NodeRec) : Builder :=
  { node := node, pq := List.range node.length, filler := false, fillsym := 0x00#8 }

theorem allocate_leafBuilder (n : NodeRec) (node : List NodeRec) :
    allocate n (leafBuilder node) = leafBuilder (node ++ [n]) := by
  simp [allocate, leafBuilder, pqInsert, List.range_succ]

theorem scanSymbol_leafBuilder (freq : List (Nat × Weight)) (node : List NodeRec) (c : Nat) :
    scanSymbol freq (leafBuilder node) c = leafBuilder (node ++ leavesOf freq [c]) := by
  unfold scanSymbol
  split
  · next hc => simp [leavesOf, hc]
  · next hc => simp [leavesOf, hc, allocate_leafBuilder]

theorem foldl_scanSymbol (freq : List (Nat × Weight)) (cs : List Nat) (node : List NodeRec) :
    cs.foldl (scanSymbol freq) (leafBuilder node) = leafBuilder (node ++ leavesOf freq cs) := by
  induction cs generalizing node with
  | nil => simp [leavesOf]
  | cons c cs ih =>
    have hcons : leavesOf freq (c :: cs) = leavesOf freq [c] ++ leavesOf freq cs := by
      simp only [leavesOf, ← List.map_append, ← List.filter_append, List.singleton_append]
    rw [List.foldl_cons, scanSymbol_leafBuilder, ih, hcons, List.append_assoc]

/-- The leaf of the `k`-th symbol present. -/
def presentLeaf (freq : List (Nat × Weight)) (k : Nat) : NodeRec :=
  leafNode (freqRead freq ((presentSymbols freq).getD k 0)) (BitVec.ofNat 8 ((presentSymbols freq).getD k 0))

/-- The filler's leaf, when the symbol present is the first leaf's (R104). -/
def fillerLeaf (freq : List (Nat × Weight)) : NodeRec := leafNode 1#32 (fillerSymbol (presentLeaf freq 0).sym)

/-- The leaves of the whole alphabet. -/
def scannedLeaves (freq : List (Nat × Weight)) : List NodeRec := leavesOf freq (List.range Config.alphabetSize)

theorem leafScan_eq (freq : List (Nat × Weight)) :
    leafScan freq = leafBuilder (scannedLeaves freq) :=
  foldl_scanSymbol freq _ []

theorem scannedLeaves_length (freq : List (Nat × Weight)) :
    (scannedLeaves freq).length = (presentSymbols freq).length :=
  List.length_map _

theorem nodeRead_scannedLeaves {freq : List (Nat × Weight)} {k : Nat} (hk : k < (presentSymbols freq).length) :
    nodeRead (scannedLeaves freq) k = presentLeaf freq k := by
  have hget : (scannedLeaves freq)[k]? = some (presentLeaf freq k) := by
    rw [scannedLeaves, leavesOf, List.getElem?_map, ← presentSymbols, List.getElem?_eq_getElem hk, presentLeaf,
      getD_of_lt hk]
    rfl
  rw [nodeRead, hget]
  rfl

/-! ### The leaves with the filler -/

theorem addFiller_leafBuilder_one {node : List NodeRec} (h : node.length = 1) :
    addFiller (leafBuilder node) =
      { leafBuilder (node ++ [leafNode 1#32 (fillerSymbol (nodeRead node 0).sym)]) with
        filler := true, fillsym := fillerSymbol (nodeRead node 0).sym } := by
  rw [← allocate_leafBuilder]
  exact if_pos h

theorem addFiller_leafBuilder_ne_one {node : List NodeRec} (h : node.length ≠ 1) :
    addFiller (leafBuilder node) = leafBuilder node :=
  if_neg h

/-- What the stages before the merge loop leave (R103, R104). -/
theorem buildLeaves_cases (freq : List (Nat × Weight)) :
    ((presentSymbols freq).length = 1 ∧ buildLeaves freq =
      { leafBuilder (scannedLeaves freq ++ [fillerLeaf freq]) with
        filler := true, fillsym := (fillerLeaf freq).sym }) ∨
    ((presentSymbols freq).length ≠ 1 ∧ buildLeaves freq = leafBuilder (scannedLeaves freq)) := by
  have hlen := scannedLeaves_length freq
  rw [buildLeaves, leafScan_eq]
  by_cases hone : (presentSymbols freq).length = 1
  · refine .inl ⟨hone, ?_⟩
    rw [addFiller_leafBuilder_one (hlen.trans hone), nodeRead_scannedLeaves (hone ▸ Nat.one_pos)]
    rfl
  · exact .inr ⟨hone, addFiller_leafBuilder_ne_one fun h => hone (hlen.symm.trans h)⟩

variable (freq : List (Nat × Weight))

theorem buildLeaves_pq : (buildLeaves freq).pq = List.range (buildLeaves freq).node.length := by
  rcases buildLeaves_cases freq with ⟨-, he⟩ | ⟨-, he⟩ <;> rw [he] <;> rfl

theorem buildLeaves_length : (buildLeaves freq).node.length = leafCount freq := by
  have hlen := scannedLeaves_length freq
  unfold leafCount
  rcases buildLeaves_cases freq with ⟨hone, he⟩ | ⟨hone, he⟩ <;> rw [he]
  · simp [leafBuilder, hlen, hone]
  · simp [leafBuilder, hlen, hone]

theorem buildLeaves_filler : (buildLeaves freq).filler = decide ((presentSymbols freq).length = 1) := by
  rcases buildLeaves_cases freq with ⟨hone, he⟩ | ⟨hone, he⟩ <;> rw [he] <;> simp [leafBuilder, hone]

theorem buildLeaves_fillsym :
    (buildLeaves freq).fillsym = if (buildLeaves freq).filler then (fillerLeaf freq).sym else 0x00#8 := by
  rcases buildLeaves_cases freq with ⟨-, he⟩ | ⟨-, he⟩ <;> rw [he] <;> simp [leafBuilder]

variable {freq}

theorem nodeRead_buildLeaves_present {k : Nat} (hk : k < (presentSymbols freq).length) :
    nodeRead (buildLeaves freq).node k = presentLeaf freq k := by
  have hlen := scannedLeaves_length freq
  rcases buildLeaves_cases freq with ⟨-, he⟩ | ⟨-, he⟩ <;> rw [he]
  · exact (nodeRead_append_of_lt (hlen ▸ hk) _).trans (nodeRead_scannedLeaves hk)
  · exact nodeRead_scannedLeaves hk

theorem nodeRead_buildLeaves_filler (hone : (presentSymbols freq).length = 1) :
    nodeRead (buildLeaves freq).node 1 = fillerLeaf freq := by
  rcases buildLeaves_cases freq with ⟨-, he⟩ | ⟨hne, -⟩
  · have hlen := (scannedLeaves_length freq).trans hone
    rw [he, ← hlen]
    exact nodeRead_append_self _ _
  · exact absurd hone hne

/-- Each leaf is that of a symbol present, or the filler's. -/
theorem leaf_cases {k : Nat} (hk : k < leafCount freq) :
    k < (presentSymbols freq).length ∨ ((presentSymbols freq).length = 1 ∧ k = 1) := by
  unfold leafCount at hk
  split at hk <;> omega

theorem isLeaf_buildLeaves {k : Nat} (hk : k < leafCount freq) : isLeaf (buildLeaves freq).node k = true := by
  unfold isLeaf
  rcases leaf_cases hk with hk | ⟨hone, rfl⟩
  · rw [nodeRead_buildLeaves_present hk]
    rfl
  · rw [nodeRead_buildLeaves_filler hone]
    rfl

theorem presentLeaf_weight_pos {k : Nat} (hk : k < (presentSymbols freq).length) :
    1 ≤ (presentLeaf freq k).weight.toNat := by
  have hne : freqRead freq ((presentSymbols freq).getD k 0) ≠ 0#32 :=
    (mem_presentSymbols.1 (getD_presentSymbols_mem hk)).2
  exact Nat.one_le_iff_ne_zero.2 fun hzero => hne (BitVec.eq_of_toNat_eq hzero)

theorem buildLeaves_weight_pos {k : Nat} (hk : k < leafCount freq) :
    1 ≤ (nodeRead (buildLeaves freq).node k).weight.toNat := by
  rcases leaf_cases hk with hk | ⟨hone, rfl⟩
  · rw [nodeRead_buildLeaves_present hk]
    exact presentLeaf_weight_pos hk
  · rw [nodeRead_buildLeaves_filler hone]
    exact Nat.le_refl 1

theorem presentLeaf_sym {k : Nat} (hk : k < (presentSymbols freq).length) :
    (presentLeaf freq k).sym.toNat = (presentSymbols freq).getD k 0 := by
  have hlt := (mem_presentSymbols.1 (getD_presentSymbols_mem hk)).1
  exact (BitVec.toNat_ofNat _ _).trans (Nat.mod_eq_of_lt hlt)

theorem presentLeaf_sym_injective {i j : Nat} (hi : i < (presentSymbols freq).length)
    (hj : j < (presentSymbols freq).length) (h : (presentLeaf freq i).sym = (presentLeaf freq j).sym) : i = j := by
  have hget : (presentSymbols freq).getD i 0 = (presentSymbols freq).getD j 0 := by
    rw [← presentLeaf_sym hi, ← presentLeaf_sym hj, h]
  rw [getD_of_lt hi, getD_of_lt hj] at hget
  exact (List.getElem_inj (presentSymbols_nodup freq)).1 hget

theorem fillerSymbol_ne (r : Symbol) : fillerSymbol r ≠ r := by
  unfold fillerSymbol
  split
  · next hr =>
    rw [hr]
    decide
  · next hr => exact Ne.symm hr

theorem buildLeaves_sym_injective {i j : Nat} (hi : i < leafCount freq) (hj : j < leafCount freq)
    (h : (nodeRead (buildLeaves freq).node i).sym = (nodeRead (buildLeaves freq).node j).sym) : i = j := by
  rcases leaf_cases hi with hi | ⟨hone, rfl⟩ <;> rcases leaf_cases hj with hj | ⟨hone', rfl⟩
  · rw [nodeRead_buildLeaves_present hi, nodeRead_buildLeaves_present hj] at h
    exact presentLeaf_sym_injective hi hj h
  · obtain rfl : i = 0 := by omega
    rw [nodeRead_buildLeaves_present hi, nodeRead_buildLeaves_filler hone'] at h
    exact absurd h.symm (fillerSymbol_ne _)
  · obtain rfl : j = 0 := by omega
    rw [nodeRead_buildLeaves_present hj, nodeRead_buildLeaves_filler hone] at h
    exact absurd h (fillerSymbol_ne _)
  · rfl

/-! ### The sum of the weights held -/

/-- The sum of the weights of the nodes a queue holds. -/
def heldWeight (node : List NodeRec) (pq : List Nat) : Nat := (pq.map fun i => (nodeRead node i).weight.toNat).sum

theorem heldWeight_range (node : List NodeRec) :
    heldWeight node (List.range node.length) = (node.map fun n => n.weight.toNat).sum := by
  unfold heldWeight
  congr 1
  refine List.ext_getElem (by simp) fun k hk hk' => ?_
  have hlt : k < node.length := by simpa using hk'
  simp [nodeRead, hlt]

/-- The leaves weigh as much as was counted, and 1 more with the filler (10_state.md R32 invariant 4). -/
theorem buildLeaves_heldWeight : heldWeight (buildLeaves freq).node (buildLeaves freq).pq =
    freqSum freq + if (buildLeaves freq).filler then 1 else 0 := by
  have hscan : ((scannedLeaves freq).map fun n => n.weight.toNat).sum = freqSum freq := by
    rw [scannedLeaves, leavesOf, List.map_map, ← presentSymbols]
    exact sum_presentSymbols freq
  rw [buildLeaves_pq, heldWeight_range]
  rcases buildLeaves_cases freq with ⟨-, he⟩ | ⟨-, he⟩ <;> rw [he]
  · simp [leafBuilder, hscan, fillerLeaf, leafNode]
  · simp [leafBuilder, hscan]

end Sys2Proof.Machine
end

section
/-! The merge loop of `BUILD` (42_build.md R105 to R110): between two merges the builder holds a forest over the leaves,
whose roots are the indices in the queue. -/

namespace Sys2Proof.Machine

/-- An internal node over lesser, distinct children (10_state.md R32 invariant 3, R107). -/
def InternalNode (node : List NodeRec) (i : Nat) : Prop :=
  (nodeRead node i).left.toNat < i ∧ (nodeRead node i).right.toNat < i ∧
    (nodeRead node i).left ≠ (nodeRead node i).right ∧ (nodeRead node i).sym = 0x00#8 ∧
    (nodeRead node i).weight.toNat =
      (nodeRead node (nodeRead node i).left.toNat).weight.toNat +
        (nodeRead node (nodeRead node i).right.toNat).weight.toNat

/-- Node `j` is internal and has node `i` as a child. -/
def hasChild (node : List NodeRec) (j i : Nat) : Bool :=
  !isLeaf node j && ((nodeRead node j).left.toNat == i || (nodeRead node j).right.toNat == i)

/-- The parents of node `i` among the slots of an arena. -/
def parentsIn (node : List NodeRec) (i : Nat) : List Nat := (List.range node.length).filter fun j => hasChild node j i

theorem parents_eq_parentsIn {s : State} (h : s.nnodes.toNat = s.node.length) (i : Nat) :
    parents s i = parentsIn s.node i := by
  unfold parents
  rw [h]
  rfl

/-! ### Allocating a slot -/

section Append

variable {node : List NodeRec} (n : NodeRec)

theorem isLeaf_append_of_lt {i : Nat} (hi : i < node.length) : isLeaf (node ++ [n]) i = isLeaf node i := by
  unfold isLeaf
  rw [nodeRead_append_of_lt hi]

theorem hasChild_append_of_lt {j : Nat} (hj : j < node.length) (i : Nat) :
    hasChild (node ++ [n]) j i = hasChild node j i := by
  unfold hasChild
  rw [isLeaf_append_of_lt n hj, nodeRead_append_of_lt hj]

theorem InternalNode.append {i : Nat} (h : InternalNode node i) (hi : i < node.length) :
    InternalNode (node ++ [n]) i := by
  unfold InternalNode at h ⊢
  rw [nodeRead_append_of_lt hi, nodeRead_append_of_lt (Nat.lt_trans h.1 hi),
    nodeRead_append_of_lt (Nat.lt_trans h.2.1 hi)]
  exact h

theorem parentsIn_append (i : Nat) :
    (parentsIn (node ++ [n]) i).length =
      (parentsIn node i).length + if hasChild (node ++ [n]) node.length i then 1 else 0 := by
  have hold : (List.range node.length).filter (fun j => hasChild (node ++ [n]) j i) = parentsIn node i :=
    List.filter_congr fun j hj => hasChild_append_of_lt n (List.mem_range.1 hj) i
  rw [parentsIn, List.length_append, List.length_singleton, List.range_succ, List.filter_append, List.length_append,
    hold, List.filter_cons, List.filter_nil]
  split <;> rfl

theorem heldWeight_append {pq : List Nat} (h : ∀ i ∈ pq, i < node.length) :
    heldWeight (node ++ [n]) pq = heldWeight node pq := by
  unfold heldWeight
  congr 1
  exact List.map_congr_left fun i hi => by rw [nodeRead_append_of_lt (h i hi)]

end Append

theorem heldWeight_perm {node : List NodeRec} {pq pq' : List Nat} (h : pq.Perm pq') :
    heldWeight node pq = heldWeight node pq' :=
  (h.map _).sum_nat

/-! ### The node of a merge -/

section Merged

variable {node : List NodeRec} {l r : Nat} (hl : l < Config.nodeSlots) (hr : r < Config.nodeSlots)

theorem toNat_ofNat_index {i : Nat} (hi : i < Config.nodeSlots) : (BitVec.ofNat 9 i).toNat = i :=
  (BitVec.toNat_ofNat i 9).trans (Nat.mod_eq_of_lt (Nat.lt_succ_of_lt hi))

theorem ofNat_index_ne_nil {i : Nat} (hi : i < Config.nodeSlots) : BitVec.ofNat 9 i ≠ Config.nil := by
  intro h
  have hnat := congrArg BitVec.toNat h
  rw [toNat_ofNat_index hi] at hnat
  exact Nat.ne_of_lt hi hnat

include hl in
theorem isLeaf_mergedNode : isLeaf (node ++ [mergedNode node l r]) node.length = false := by
  unfold isLeaf
  rw [nodeRead_append_self]
  simp [mergedNode, ofNat_index_ne_nil hl]

include hl hr in
theorem hasChild_mergedNode (i : Nat) :
    hasChild (node ++ [mergedNode node l r]) node.length i = decide (i = l ∨ i = r) := by
  unfold hasChild
  rw [isLeaf_mergedNode hl, nodeRead_append_self]
  simp only [mergedNode, toNat_ofNat_index hl, toNat_ofNat_index hr, Bool.not_false, Bool.true_and]
  grind

include hl hr in
/-- A merge makes an internal node, while the sum of the two weights fits (R107, R108). -/
theorem internalNode_mergedNode (hl' : l < node.length) (hr' : r < node.length) (hne : l ≠ r)
    (hw : (nodeRead node l).weight.toNat + (nodeRead node r).weight.toNat < 2 ^ 32) :
    InternalNode (node ++ [mergedNode node l r]) node.length := by
  unfold InternalNode
  rw [nodeRead_append_self]
  simp only [mergedNode, toNat_ofNat_index hl, toNat_ofNat_index hr]
  refine ⟨hl', hr', fun heq => hne ?_, trivial, ?_⟩
  · rw [← toNat_ofNat_index hl, heq, toNat_ofNat_index hr]
  · rw [nodeRead_append_of_lt hl', nodeRead_append_of_lt hr', BitVec.toNat_add_of_lt hw]

end Merged

/-! ### The forest -/

/-- What holds of the builder between two merges, over the leaves it started from, of total weight `total`. -/
structure Forest (leaves : List NodeRec) (total : Nat) (b : Builder) : Prop where
  /-- A merge takes two indices from the queue, puts one in, and allocates one slot (R110). -/
  size    : b.node.length + b.pq.length = 2 * leaves.length
  grown   : leaves.length ≤ b.node.length
  kept    : ∀ i < leaves.length, nodeRead b.node i = nodeRead leaves i
  leaf    : ∀ i < leaves.length, isLeaf b.node i = true
  inner   : ∀ i, leaves.length ≤ i → i < b.node.length → InternalNode b.node i
  nodup   : b.pq.Nodup
  held_lt : ∀ i ∈ b.pq, i < b.node.length
  newest  : ∀ i, i + 1 = b.node.length → i ∈ b.pq
  /-- The roots of the forest are the indices held. -/
  parents : ∀ i < b.node.length, (parentsIn b.node i).length = if i ∈ b.pq then 0 else 1
  weights : ∀ i < b.node.length, 1 ≤ (nodeRead b.node i).weight.toNat ∧ (nodeRead b.node i).weight.toNat ≤ total
  held    : heldWeight b.node b.pq = total

namespace Forest

variable {leaves : List NodeRec} {total : Nat} {b : Builder}

/-- No allocated node has the next free slot as a child. -/
theorem parentsIn_next (h : Forest leaves total b) : (parentsIn b.node b.node.length).length = 0 := by
  refine List.length_eq_zero_iff.2 (List.filter_eq_nil_iff.2 fun j hj => ?_)
  have hj : j < b.node.length := List.mem_range.1 hj
  unfold hasChild
  by_cases hlt : j < leaves.length
  · simp [h.leaf j hlt]
  · obtain ⟨hleft, hright, -⟩ := h.inner j (Nat.not_lt.1 hlt) hj
    simp only [Bool.and_eq_true, Bool.or_eq_true, beq_iff_eq]
    omega

section Merge

variable (h : Forest leaves total b) (hleaves : leaves.length ≤ 256) (htotal : total < 2 ^ 32) {l r : Nat}
  {rest : List Nat} (hpq : b.pq.Perm (l :: r :: rest))

include h hpq

/-- The two indices a merge takes, and their weights within the sum held. -/
theorem merge_pair : l < b.node.length ∧ r < b.node.length ∧ l ≠ r ∧ l ∉ rest ∧ r ∉ rest ∧ rest.Nodup ∧
    (∀ i ∈ rest, i < b.node.length) ∧
    (nodeRead b.node l).weight.toNat + ((nodeRead b.node r).weight.toNat + heldWeight b.node rest) = total := by
  have hnodup := hpq.nodup_iff.1 h.nodup
  rw [List.nodup_cons, List.nodup_cons, List.mem_cons, not_or] at hnodup
  obtain ⟨⟨hne, hl⟩, hr, hrest⟩ := hnodup
  have hsum := h.held
  rw [heldWeight_perm hpq] at hsum
  have hlt (i : Nat) (hi : i ∈ l :: r :: rest) : i < b.node.length := h.held_lt i (hpq.mem_iff.2 hi)
  exact ⟨hlt l (by simp), hlt r (by simp), hne, hl, hr, hrest, fun i hi => hlt i (by simp [hi]), hsum⟩

include hleaves in
/-- A merge finds a slot free, with an index below `NIL` (42_build.md R110). -/
theorem merge_slots : b.node.length < Config.nodeSlots := by
  have hsize := h.size
  rw [hpq.length_eq, List.length_cons, List.length_cons] at hsize
  exact show b.node.length < 511 by omega

include htotal in
/-- The new node's weight is the sum of the two, without a carry (R108). -/
theorem merge_weight : (mergedNode b.node l r).weight.toNat =
    (nodeRead b.node l).weight.toNat + (nodeRead b.node r).weight.toNat := by
  obtain ⟨-, -, -, -, -, -, -, hsum⟩ := h.merge_pair hpq
  exact BitVec.toNat_add_of_lt (by omega)

include hleaves htotal in
theorem merge_inner {i : Nat} (hge : leaves.length ≤ i) (hi : i < b.node.length + 1) :
    InternalNode (b.node ++ [mergedNode b.node l r]) i := by
  obtain ⟨hl, hr, hne, -, -, -, -, hsum⟩ := h.merge_pair hpq
  have hslots := h.merge_slots hleaves hpq
  rcases Nat.lt_succ_iff_lt_or_eq.1 hi with hold | rfl
  · exact (h.inner i hge hold).append _ hold
  · exact internalNode_mergedNode (Nat.lt_trans hl hslots) (Nat.lt_trans hr hslots) hl hr hne (by omega)

include hleaves in
/-- The two indices taken get the new node as their parent, which has none. -/
theorem merge_parents {i : Nat} (hi : i < b.node.length + 1) :
    (parentsIn (b.node ++ [mergedNode b.node l r]) i).length = if i ∈ rest ++ [b.node.length] then 0 else 1 := by
  obtain ⟨hl, hr, -, hlrest, hrrest, -, -, -⟩ := h.merge_pair hpq
  have hslots := h.merge_slots hleaves hpq
  have hmem : i ∈ rest ++ [b.node.length] ↔ i ∈ rest ∨ i = b.node.length := by
    rw [List.mem_append, List.mem_singleton]
  rw [parentsIn_append, hasChild_mergedNode (Nat.lt_trans hl hslots) (Nat.lt_trans hr hslots)]
  simp only [decide_eq_true_eq, hmem]
  rcases Nat.lt_succ_iff_lt_or_eq.1 hi with hold | rfl
  · have hheld : i ∈ b.pq ↔ i = l ∨ i = r ∨ i ∈ rest := by rw [hpq.mem_iff, List.mem_cons, List.mem_cons]
    rw [h.parents i hold]
    grind
  · rw [h.parentsIn_next, if_neg (by omega), if_pos (.inr rfl)]

include htotal in
theorem merge_weights {i : Nat} (hi : i < b.node.length + 1) :
    1 ≤ (nodeRead (b.node ++ [mergedNode b.node l r]) i).weight.toNat ∧
      (nodeRead (b.node ++ [mergedNode b.node l r]) i).weight.toNat ≤ total := by
  obtain ⟨hl, -, -, -, -, -, -, hsum⟩ := h.merge_pair hpq
  rcases Nat.lt_succ_iff_lt_or_eq.1 hi with hold | rfl
  · rw [nodeRead_append_of_lt hold]
    exact h.weights i hold
  · rw [nodeRead_append_self, h.merge_weight htotal hpq]
    have := h.weights l hl
    omega

include htotal in
/-- The sum of the weights held stays. -/
theorem merge_held : heldWeight (b.node ++ [mergedNode b.node l r]) (rest ++ [b.node.length]) = total := by
  obtain ⟨-, -, -, -, -, -, hrest, hsum⟩ := h.merge_pair hpq
  have hnew : heldWeight (b.node ++ [mergedNode b.node l r]) (rest ++ [b.node.length]) =
      heldWeight (b.node ++ [mergedNode b.node l r]) rest + (mergedNode b.node l r).weight.toNat := by
    simp [heldWeight, nodeRead_append_self]
  rw [hnew, heldWeight_append _ hrest, h.merge_weight htotal hpq]
  omega

include hleaves htotal in
/-- A merge keeps the forest: two of its trees become one (R107). -/
theorem merge : Forest leaves total (allocate (mergedNode b.node l r) { b with pq := rest }) := by
  obtain ⟨-, -, -, -, -, hnodup, hrest, -⟩ := h.merge_pair hpq
  have hgrown := h.grown
  have hlen : (b.node ++ [mergedNode b.node l r]).length = b.node.length + 1 := List.length_append
  refine
    { size := ?_, grown := hlen ▸ Nat.le_succ_of_le hgrown
      kept := fun i hi => (nodeRead_append_of_lt (Nat.lt_of_lt_of_le hi hgrown) _).trans (h.kept i hi)
      leaf := fun i hi => (isLeaf_append_of_lt _ (Nat.lt_of_lt_of_le hi hgrown)).trans (h.leaf i hi)
      inner := fun i hge hi => h.merge_inner hleaves htotal hpq hge (hlen ▸ hi)
      nodup := List.nodup_append.2 ⟨hnodup, by simp, fun i hi j hj => ?_⟩
      held_lt := fun i hi => ?_
      newest := fun i hi => List.mem_append_right _ (List.mem_singleton.2 (Nat.succ.inj (hi.trans hlen)))
      parents := fun i hi => h.merge_parents hleaves hpq (hlen ▸ hi)
      weights := fun i hi => h.merge_weights htotal hpq (hlen ▸ hi)
      held := h.merge_held htotal hpq }
  · have hsize := h.size
    rw [hpq.length_eq] at hsize
    simp only [allocate, pqInsert, List.length_append, List.length_cons, List.length_nil] at hsize ⊢
    omega
  · rw [List.mem_singleton.1 hj]
    exact Nat.ne_of_lt (hrest i hi)
  · refine Nat.lt_of_lt_of_eq ?_ hlen.symm
    rcases List.mem_append.1 hi with hi | hi
    · exact Nat.lt_succ_of_lt (hrest i hi)
    · rw [List.mem_singleton.1 hi]
      exact Nat.lt_succ_self _

end Merge

theorem mergeStep (h : Forest leaves total b) (hleaves : leaves.length ≤ 256) (htotal : total < 2 ^ 32)
    (hgt : 1 < b.pq.length) : Forest leaves total (mergeStep b) := by
  obtain ⟨l, r, rest, hpq, -, -, he⟩ := mergeStep_cases b hgt
  rw [he]
  exact h.merge hleaves htotal hpq

theorem mergeLoop (h : Forest leaves total b) (hleaves : leaves.length ≤ 256) (htotal : total < 2 ^ 32) (fuel : Nat) :
    Forest leaves total (mergeLoop fuel b) := by
  induction fuel generalizing b with
  | zero => exact h
  | succ fuel ih =>
    unfold Machine.mergeLoop
    split
    · next hgt => exact ih (h.mergeStep hleaves htotal hgt)
    · exact h

end Forest

end Sys2Proof.Machine
end

section
/-! `BUILD` keeps the invariant (10_state.md R32): the forest starts with the leaves alone and ends as one tree. What
the merge loop ends with is said once, in `IsBuilt`, of two builders of which nothing else is known, so that no proof
below runs the builder. -/

namespace Sys2Proof.Machine

theorem weight_le_heldWeight (node : List NodeRec) {pq : List Nat} {i : Nat} (hi : i ∈ pq) :
    (nodeRead node i).weight.toNat ≤ heldWeight node pq :=
  mem_le_sum (List.mem_map_of_mem (f := fun i => (nodeRead node i).weight.toNat) hi)

/-- What the root of the built tree weighs (10_state.md R32 invariant 4). -/
def builtWeight (freq : List (Nat × Weight)) (leaves : Builder) : Nat :=
  freqSum freq + if leaves.filler then 1 else 0

/-- The builder before the merge loop, over the leaves of the counts. -/
structure IsLeaves (freq : List (Nat × Weight)) (leaves : Builder) : Prop where
  length  : leaves.node.length = leafCount freq
  pq      : leaves.pq = List.range leaves.node.length
  leaf    : ∀ k < leafCount freq, isLeaf leaves.node k = true
  present : ∀ k < (presentSymbols freq).length, nodeRead leaves.node k = presentLeaf freq k
  symbols : ∀ i < leafCount freq, ∀ j < leafCount freq,
    (nodeRead leaves.node i).sym = (nodeRead leaves.node j).sym → i = j
  weight  : ∀ k < leafCount freq, 1 ≤ (nodeRead leaves.node k).weight.toNat
  held    : heldWeight leaves.node leaves.pq = builtWeight freq leaves
  filler  : leaves.filler = decide ((presentSymbols freq).length = 1)
  fillsym : leaves.fillsym = if leaves.filler then (nodeRead leaves.node 1).sym else 0x00#8

theorem isLeaves_buildLeaves (freq : List (Nat × Weight)) : IsLeaves freq (buildLeaves freq) where
  length := buildLeaves_length freq
  pq := buildLeaves_pq freq
  leaf := fun _ => isLeaf_buildLeaves
  present := fun _ => nodeRead_buildLeaves_present
  symbols := fun _ hi _ hj => buildLeaves_sym_injective hi hj
  weight := fun _ => buildLeaves_weight_pos
  held := buildLeaves_heldWeight
  filler := buildLeaves_filler freq
  fillsym := by
    rw [buildLeaves_fillsym, buildLeaves_filler]
    by_cases hone : (presentSymbols freq).length = 1
    · rw [nodeRead_buildLeaves_filler hone]
    · simp [hone]

/-- Before the first merge each leaf is a tree of its own. -/
theorem IsLeaves.forest {freq : List (Nat × Weight)} {leaves : Builder} (h : IsLeaves freq leaves) :
    Forest leaves.node (builtWeight freq leaves) leaves := by
  have hheld (i : Nat) : i ∈ leaves.pq ↔ i < leaves.node.length := by rw [h.pq, List.mem_range]
  have hleaf (i : Nat) (hi : i < leaves.node.length) : isLeaf leaves.node i = true := h.leaf i (h.length ▸ hi)
  exact
  { size := by rw [h.pq, List.length_range, Nat.two_mul]
    grown := Nat.le_refl _
    kept := fun _ _ => rfl
    leaf := hleaf
    inner := fun _ hge hi => absurd hi (Nat.not_lt.2 hge)
    nodup := h.pq ▸ List.nodup_range
    held_lt := fun i hi => (hheld i).1 hi
    newest := fun i hi => (hheld i).2 (by omega)
    parents := fun i hi => by
      have hnone : parentsIn leaves.node i = [] := List.filter_eq_nil_iff.2 fun j hj => by
        simp [hasChild, hleaf j (List.mem_range.1 hj)]
      rw [hnone, if_pos ((hheld i).2 hi)]
      rfl
    weights := fun i hi => ⟨h.weight i (h.length ▸ hi), h.held ▸ weight_le_heldWeight _ ((hheld i).2 hi)⟩
    held := h.held }

/-- What the merge loop ends with: a forest of one tree at most. -/
structure IsBuilt (freq : List (Nat × Weight)) (leaves tree : Builder) : Prop where
  base   : IsLeaves freq leaves
  forest : Forest leaves.node (builtWeight freq leaves) tree
  one    : tree.pq.length ≤ 1

/-- The loop's bound is enough for any leaves at all (42_build.md R110). -/
theorem isBuilt_buildTree {freq : List (Nat × Weight)} (htotal : builtWeight freq (buildLeaves freq) < 2 ^ 32) :
    IsBuilt freq (buildLeaves freq) (buildTree freq) := by
  have h := isLeaves_buildLeaves freq
  have hle : (buildLeaves freq).node.length ≤ 256 := h.length ▸ leafCount_le freq
  have hpq : (buildLeaves freq).pq.length ≤ Config.alphabetSize + 1 := by
    rw [h.pq, List.length_range]
    exact Nat.le_succ_of_le hle
  have hone : (buildTree freq).pq.length = min (buildLeaves freq).pq.length 1 := (mergeLoop_sizes _ _ hpq).1
  exact ⟨h, h.forest.mergeLoop hle htotal _, hone ▸ Nat.min_le_right _ _⟩

/-- The state with the tree and the leaves that a builder has made: the effect of `BUILD` (R109). -/
def withTree (s : State) (leaves tree : Builder) : State :=
  cursorToRoot
    { s with
      node    := tree.node
      nnodes  := BitVec.ofNat 10 tree.node.length
      nleaves := BitVec.ofNat 9 leaves.node.length
      root    := builtRoot tree
      filler  := leaves.filler
      fillsym := leaves.fillsym
      phase   := .tree }

theorem buildEffect_eq_withTree (s : State) :
    buildEffect s = withTree s (buildLeaves s.freq) (buildTree s.freq) := by
  unfold buildEffect withTree
  rfl

theorem builtRoot_of_pq_nil {b : Builder} (h : b.pq = []) : builtRoot b = Config.nil := by
  rw [builtRoot, h]
  rfl

theorem builtRoot_of_pq_singleton {b : Builder} {i : Nat} (h : b.pq = [i]) : builtRoot b = BitVec.ofNat 9 i := by
  rw [builtRoot, h]
  rfl

namespace IsBuilt

section

variable {freq : List (Nat × Weight)} {leaves tree : Builder} (h : IsBuilt freq leaves tree)

include h

/-- Without a leaf the tree is absent; else its root is the last node allocated, the one index held (R109, R111). -/
theorem root_cases :
    (leafCount freq = 0 ∧ tree.node.length = 0 ∧ builtRoot tree = Config.nil) ∨
    (∃ i, 2 ≤ leafCount freq ∧ i + 2 = 2 * leafCount freq ∧ tree.node.length = i + 1 ∧
      tree.pq = [i] ∧ (builtRoot tree).toNat = i) := by
  have hsize := h.forest.size
  have hgrown := h.forest.grown
  have hle := leafCount_le freq
  have hne : leafCount freq ≠ 1 := by
    unfold leafCount
    split <;> omega
  rw [h.base.length] at hsize hgrown
  cases hpq : tree.pq with
  | nil =>
    rw [hpq, List.length_nil] at hsize
    have hzero : leafCount freq = 0 := by
      refine Decidable.byContradiction fun hpos => ?_
      have hlast := h.forest.newest (tree.node.length - 1) (by omega)
      simp [hpq] at hlast
    exact .inl ⟨hzero, by omega, builtRoot_of_pq_nil hpq⟩
  | cons i rest =>
    have hone := h.one
    rw [hpq, List.length_cons] at hone hsize
    obtain rfl : rest = [] := List.length_eq_zero_iff.1 (by omega)
    rw [List.length_nil] at hsize
    have hlast := h.forest.newest (tree.node.length - 1) (by have := h.forest.held_lt i (by simp [hpq]); omega)
    rw [hpq, List.mem_singleton] at hlast
    refine .inr ⟨i, by omega, by omega, by omega, rfl, ?_⟩
    rw [builtRoot_of_pq_singleton hpq]
    exact toNat_ofNat_index (show i < 511 by omega)

theorem length_eq : tree.node.length = if leafCount freq = 0 then 0 else 2 * leafCount freq - 1 := by
  rcases h.root_cases with ⟨hzero, hnode, -⟩ | ⟨i, htwo, hi, hnode, -⟩
  · rw [hnode, if_pos hzero]
  · rw [hnode, if_neg (by omega)]
    omega

theorem length_le : tree.node.length ≤ Config.nodeSlots := by
  have hle := leafCount_le freq
  rw [h.length_eq]
  show _ ≤ 511
  split <;> omega

theorem nodeRead_leaf {k : Nat} (hk : k < leafCount freq) : nodeRead tree.node k = nodeRead leaves.node k :=
  h.forest.kept k (h.base.length ▸ hk)

end

section

variable {s : State} {leaves tree : Builder} (h : IsBuilt s.freq leaves tree)

include h

theorem nnodes_toNat : (withTree s leaves tree).nnodes.toNat = tree.node.length :=
  (BitVec.toNat_ofNat _ _).trans (Nat.mod_eq_of_lt (Nat.lt_of_le_of_lt h.length_le (by decide)))

theorem nleaves_toNat : (withTree s leaves tree).nleaves.toNat = leafCount s.freq := by
  have hle := leafCount_le s.freq
  rw [← h.base.length] at hle ⊢
  exact (BitVec.toNat_ofNat _ _).trans (Nat.mod_eq_of_lt (Nat.lt_of_le_of_lt hle (by decide)))

theorem builtSizes : Inv.BuiltSizes (withTree s leaves tree) := by
  intro _
  rw [h.nnodes_toNat, h.nleaves_toNat]
  refine ⟨rfl, h.length_eq, ?_, h.base.filler, ?_⟩
  · show if tree.node.length = 0 then builtRoot tree = Config.nil else (builtRoot tree).toNat = tree.node.length - 1
    rcases h.root_cases with ⟨-, hnode, hroot⟩ | ⟨i, -, -, hnode, -, hroot⟩
    · rwa [if_pos hnode]
    · rw [if_neg (by omega), hroot, hnode, Nat.add_sub_cancel]
  · show leaves.fillsym = if leaves.filler then (nodeRead tree.node 1).sym else 0x00#8
    rw [h.base.fillsym, h.base.filler]
    by_cases hone : (presentSymbols s.freq).length = 1
    · have htwo : leafCount s.freq = 2 := if_pos hone
      rw [h.nodeRead_leaf (by omega)]
    · simp [hone]

theorem leavesOfFreq : Inv.LeavesOfFreq (withTree s leaves tree) := by
  intro _ k (hk : k < (presentSymbols s.freq).length)
  have hcount : k < leafCount s.freq := by
    unfold leafCount
    split <;> omega
  have hread : nodeRead tree.node k = presentLeaf s.freq k := (h.nodeRead_leaf hcount).trans (h.base.present k hk)
  show (nodeRead tree.node k).sym.toNat = _ ∧ (nodeRead tree.node k).weight = _
  rw [hread]
  exact ⟨presentLeaf_sym hk, rfl⟩

theorem nodeShape : Inv.NodeShape (withTree s leaves tree) := by
  intro i hi
  rw [h.nnodes_toNat] at hi
  rw [h.nleaves_toNat, ← h.base.length]
  split
  · next hlt => exact h.forest.leaf i hlt
  · next hge => exact h.forest.inner i (Nat.not_lt.1 hge) hi

theorem oneParent : Inv.OneParent (withTree s leaves tree) := by
  intro i hi
  rw [parents_eq_parentsIn h.nnodes_toNat, h.nnodes_toNat]
  rw [h.nnodes_toNat] at hi
  refine (h.forest.parents i hi).trans ?_
  rcases h.root_cases with ⟨-, hnode, -⟩ | ⟨r, -, -, hnode, hpq, -⟩
  · omega
  · have hheld : i ∈ tree.pq ↔ i = r := by rw [hpq, List.mem_singleton]
    simp only [hheld, hnode]
    split <;> split <;> omega

/-- The root weighs as much as was counted, and 1 more with the filler; no node weighs more. -/
theorem weights (hsum : s.total.toNat = freqSum s.freq) : Inv.Weights (withTree s leaves tree) := by
  have hweight : builtWeight s.freq leaves = s.total.toNat + if leaves.filler then 1 else 0 := by
    rw [hsum]
    rfl
  refine ⟨fun i hi => ?_, fun (hroot : builtRoot tree ≠ Config.nil) => ?_⟩
  · obtain ⟨hpos, hle⟩ := h.forest.weights i (h.nnodes_toNat ▸ hi)
    refine ⟨hpos, Nat.le_trans hle (Nat.le_trans (Nat.le_of_eq hweight) ?_)⟩
    show s.total.toNat + _ ≤ s.total.toNat + 1
    split <;> omega
  · show (nodeRead tree.node (builtRoot tree).toNat).weight.toNat = s.total.toNat + if leaves.filler then 1 else 0
    rcases h.root_cases with ⟨-, -, hnil⟩ | ⟨r, -, -, -, hpq, hr⟩
    · exact absurd hnil hroot
    · have hheld := h.forest.held
      rw [hpq, hweight] at hheld
      rw [hr]
      simpa [heldWeight] using hheld

theorem leafSymbols : Inv.LeafSymbols (withTree s leaves tree) := by
  intro i hi j hj (hsym : (nodeRead tree.node i).sym = (nodeRead tree.node j).sym)
  rw [h.nleaves_toNat] at hi hj
  rw [h.nodeRead_leaf hi, h.nodeRead_leaf hj] at hsym
  exact h.base.symbols i hi j hj hsym

theorem rootInternal (hroot : builtRoot tree ≠ Config.nil) : isLeaf tree.node (builtRoot tree).toNat = false := by
  rcases h.root_cases with ⟨-, -, hnil⟩ | ⟨r, htwo, hr2, hnode, -, hr⟩
  · exact absurd hnil hroot
  · have hlen := h.base.length
    have hslots : tree.node.length ≤ 511 := h.length_le
    have hleft := (h.forest.inner r (by omega) (by omega)).1
    rw [hr, isLeaf, Bool.and_eq_false_iff, beq_eq_false_iff_ne]
    refine .inl fun hnil => ?_
    rw [hnil, show Config.nil.toNat = 511 from rfl] at hleft
    omega

theorem inv (hs : Inv s) (hphase : s.phase = .collect) : Inv (withTree s leaves tree) := by
  obtain ⟨hfreq, hcode, -⟩ := hs.memory
  exact
  { memory := ⟨hfreq, hcode, h.length_le⟩
    slots := h.nnodes_toNat.symm
    collectEmpty := nofun
    builtSizes := h.builtSizes
    leavesOfFreq := h.leavesOfFreq
    nodeShape := h.nodeShape
    oneParent := h.oneParent
    weights := h.weights hs.totalSum
    leafSymbols := h.leafSymbols
    table := ⟨fun _ => hs.code_of_collect hphase, nofun⟩
    cursor := .inl ⟨rfl, rfl⟩
    errInfo := hs.errInfo
    totalSum := hs.totalSum
    totalMax := hs.totalMax
    rootInternal := h.rootInternal }

end

end IsBuilt

/-- `BUILD` keeps the invariant: what was counted fits 32 bits, the filler's weight included (R108). -/
theorem Inv.buildEffect {s : State} (h : Inv s) (hphase : s.phase = .collect) : Inv (buildEffect s) := by
  have htotal : builtWeight s.freq (buildLeaves s.freq) < 2 ^ 32 := by
    have hmax : s.total.toNat ≤ 4294967294 := h.totalMax
    rw [builtWeight, ← h.totalSum]
    split <;> omega
  rw [buildEffect_eq_withTree]
  exact (isBuilt_buildTree htotal).inv h hphase

end Sys2Proof.Machine
end

section
/-! Every step keeps the invariant, and every state a run from reset reaches meets it (10_state.md R32). -/

namespace Sys2Proof.Machine

theorem Inv.of_effect {s t : State} {i : Instr} (h : Inv s) (heff : Effect s i t) : Inv t := by
  cases heff with
  | clear => exact inv_applyReset s
  | clrerr => exact h.clearLatch
  | count x _ hphase hx hroom => exact h.countSymbol hphase hx hroom
  | build _ hphase => exact h.buildEffect hphase
  | mktab _ hphase => exact h.mktabEffect hphase
  | enc x => exact h.of_block_eq rfl
  | decbitLeaf x => exact Inv.cursorToRoot (h.of_block_eq rfl)
  | decbitInner x _ _ _ hroot _ hinner => exact h.cursorToInner hroot (bitOf x) hinner
  | decrst => exact h.cursorToRoot
  | read i v => exact h.of_block_eq rfl

theorem Inv.of_exec {s t : State} {i : Instr} (h : Inv s) (hexec : exec i s = .next t) : Inv t := by
  rcases exec_outcomes hexec with rfl | ⟨e, -, hi, rfl⟩ | heff
  · exact h
  · exact h.raise e (encode_ne_zero hi)
  · exact h.of_effect heff

/-- The word 0 is `NOP`, so an illegal word is not 0. -/
theorem ne_zero_of_decode_error {w : Word} {why : Illegal} (h : decode w = .error why) : w ≠ 0#32 := by
  rintro rfl
  exact absurd (h.symm.trans (show decode 0#32 = .ok .nop from rfl)) nofun

theorem Inv.of_step {s t : State} (h : Inv s) (hstep : step s = .next t) : Inv t := by
  have htaken (rest : List HostEvent) : Inv { s with hostIn := rest } := h.of_block_eq rfl
  rcases step_cases s with ⟨-, he⟩ | ⟨w, rest, i, -, -, he⟩ | ⟨w, rest, why, -, hdec, he⟩ | ⟨rest, -, he⟩
  · cases he.symm.trans hstep
    exact h
  · exact (htaken rest).of_exec (he.symm.trans hstep)
  · cases he.symm.trans hstep
    exact (htaken rest).illegalWord (ne_zero_of_decode_error hdec)
  · cases he.symm.trans hstep
    exact inv_applyReset _

/-- Settles O59: each command's effect keeps the invariant (`Inv.of_effect`), and so do a raise, the taking of an event
and `rst`. -/
theorem stepKeepsTheInvariant : Obligations.StepKeepsTheInvariant := fun _ _ => Inv.of_step

/-- What holds at the start of a run and is kept by every step holds at its end. -/
theorem run_induction {P : State → Prop} (hstep : ∀ s t, P s → step s = .next t → P t) (n : Nat) {s t : State}
    (hs : P s) (hrun : Host.Core.run core n s = .next t) : P t := by
  induction n generalizing s with
  | zero =>
    cases hrun
    exact hs
  | succ n ih =>
    cases hnext : step s with
    | next u => exact ih (hstep s u hs hnext) ((run_succ_of_step hnext n).symm.trans hrun)
    | fault r => exact nomatch r
    | refused r => simp [Host.Core.run, core, hnext] at hrun

/-- Settles O60, by induction on the run: the invariant holds at reset and every step keeps it. -/
theorem reachableStatesMeetTheInvariant : Obligations.ReachableStatesMeetTheInvariant := by
  intro n events t hrun
  have hreset : Inv { State.reset with hostIn := events } := resetStateMeetsTheInvariant.of_block_eq rfl
  exact run_induction (fun _ _ => Inv.of_step) n hreset hrun

end Sys2Proof.Machine
end

section
/-! The word of a command (30_encoding.md R60 to R64): a word is its three fields, so the decoder answers a command at
that command's word and at no other; the six conditions on the fields; the rows of the opcode map. -/

namespace Sys2Proof

/-- Settles O1: the fields of a command's word are its opcode, zero and its operand (`decode_encode`). -/
theorem decodeOfEncodeIsTheCommand : Obligations.DecodeOfEncodeIsTheCommand :=
  fun _ h => decode_encode h

/-! ### A word is its three fields -/

/-- The fields `op`, `rsv` and `x` cover the word (R60). -/
theorem eq_iff_fields {v w : Word} :
    v = w ↔ opField v = opField w ∧ rsvField v = rsvField w ∧ xField v = xField w := by
  refine ⟨fun h => h ▸ ⟨rfl, rfl, rfl⟩, fun ⟨hop, hrsv, hx⟩ => BitVec.eq_of_getLsbD_eq fun k hk => ?_⟩
  by_cases hlow : k < 16
  · simpa [xField, hlow] using congrArg (·.getLsbD k) hx
  by_cases hmid : k < 24
  · have hbit := congrArg (·.getLsbD (k - 16)) hrsv
    simpa [rsvField, show k - 16 < 8 by omega, show 16 + (k - 16) = k by omega] using hbit
  · have hbit := congrArg (·.getLsbD (k - 24)) hop
    simpa [opField, show k - 24 < 8 by omega, show 24 + (k - 24) = k by omega] using hbit

@[simp] theorem opField_and (v w : Word) : opField (v &&& w) = opField v &&& opField w := BitVec.extractLsb'_and
@[simp] theorem rsvField_and (v w : Word) : rsvField (v &&& w) = rsvField v &&& rsvField w := BitVec.extractLsb'_and
@[simp] theorem xField_and (v w : Word) : xField (v &&& w) = xField v &&& xField w := BitVec.extractLsb'_and
@[simp] theorem opField_or (v w : Word) : opField (v ||| w) = opField v ||| opField w := BitVec.extractLsb'_or
@[simp] theorem rsvField_or (v w : Word) : rsvField (v ||| w) = rsvField v ||| rsvField w := BitVec.extractLsb'_or
@[simp] theorem xField_or (v w : Word) : xField (v ||| w) = xField v ||| xField w := BitVec.extractLsb'_or

/-- `op << 24` has the fields `op`, 0, 0. -/
theorem fields_shifted (op : BitVec 8) :
    opField (op.setWidth 32 <<< 24) = op ∧ rsvField (op.setWidth 32 <<< 24) = 0#8 ∧
      xField (op.setWidth 32 <<< 24) = 0#16 := by
  have hlt := op.isLt
  refine ⟨?_, ?_, ?_⟩ <;> apply BitVec.eq_of_toNat_eq
  · simp [opField, Nat.shiftLeft_eq, Nat.shiftRight_eq_div_pow]
    omega
  · simp [rsvField, Nat.shiftLeft_eq, Nat.shiftRight_eq_div_pow]
    omega
  · simp [xField, Nat.shiftLeft_eq]
    omega

/-- An operand alone has the fields 0, 0, `x`. -/
theorem fields_operand (x : Operand) :
    opField (x.setWidth 32) = 0#8 ∧ rsvField (x.setWidth 32) = 0#8 ∧ xField (x.setWidth 32) = x := by
  have hlt := x.isLt
  refine ⟨?_, ?_, ?_⟩ <;> apply BitVec.eq_of_toNat_eq
  · simp [opField, Nat.shiftRight_eq_div_pow]
    omega
  · simp [rsvField, Nat.shiftRight_eq_div_pow]
    omega
  · simp [xField]
    omega

/-! ### The decoder answers a command at that command's word only -/

/-- A command's word is the word with the command's three fields (R60). -/
theorem encode_eq_iff {i : Instr} {w : Word} :
    encode i = w ↔ opField w = i.opcode ∧ rsvField w = 0#8 ∧ xField w = i.operand := by
  rw [eq_comm, eq_iff_fields, opField_encode, rsvField_encode, xField_encode]

/-- The decoder answers exactly the well-formed commands, each at its own word (R62, R64). -/
theorem decode_eq_ok_iff {w : Word} {i : Instr} :
    decode w = .ok i ↔ encode i = w ∧ i.wellFormed = true := by
  refine ⟨fun h => ?_, fun ⟨hw, hwf⟩ => hw ▸ decode_encode hwf⟩
  obtain ⟨hrsv, hop, hx, hwf⟩ := decode_ok h
  exact ⟨encode_eq_iff.2 ⟨hop, hrsv, hx⟩, hwf⟩

/-- Settles O2, from `decode_eq_ok_iff`. -/
theorem encodeOfDecodeIsTheWord : Obligations.EncodeOfDecodeIsTheWord :=
  fun _ _ h => (decode_eq_ok_iff.1 h).symm

theorem encode_eq_shifted_or (i : Instr) :
    encode i = (i.opcode.setWidth 32 <<< 24) ||| i.operand.setWidth 32 := by
  obtain ⟨hop, hrsv, hx⟩ := fields_shifted i.opcode
  obtain ⟨hop', hrsv', hx'⟩ := fields_operand i.operand
  rw [encode_eq_iff]
  simp [hop, hrsv, hx, hop', hrsv', hx']

/-- Settles O5: `encode_eq_shifted_or` for every command, and the listed words by running the model on each. -/
theorem fullWordsOfTheCommands : Obligations.FullWordsOfTheCommands :=
  ⟨encode_eq_shifted_or, by decide⟩

/-! ### The rows of the opcode map (R62) -/

/-- A word matches `op << 24` under the mask of a command with an operand iff `op` and `rsv` are right. -/
theorem and_operandMask_eq_iff (w : Word) (op : BitVec 8) :
    w &&& operandMask = op.setWidth 32 <<< 24 ↔ opField w = op ∧ rsvField w = 0#8 := by
  obtain ⟨hop, hrsv, hx⟩ := fields_shifted op
  have hmask : opField operandMask = 0xFF#8 ∧ rsvField operandMask = 0xFF#8 ∧ xField operandMask = 0#16 := by decide
  obtain ⟨hmop, hmrsv, hmx⟩ := hmask
  have hones (v : BitVec 8) : v &&& 0xFF#8 = v := BitVec.and_allOnes
  rw [eq_iff_fields, hop, hrsv, hx]
  simp [hmop, hmrsv, hmx, hones]

/-- Under the mask of a command without an operand `x` is compared too. -/
theorem and_bareMask_eq_iff (w : Word) (op : BitVec 8) :
    w &&& bareMask = op.setWidth 32 <<< 24 ↔ opField w = op ∧ rsvField w = 0#8 ∧ xField w = 0#16 := by
  obtain ⟨hop, hrsv, hx⟩ := fields_shifted op
  have hones : w &&& bareMask = w := BitVec.and_allOnes
  rw [hones, eq_iff_fields, hop, hrsv, hx]

/-- The opcodes of the commands without an operand (R64 condition 3). -/
def bareOpcodes : List (BitVec 8) := [0x00#8, 0x01#8, 0x02#8, 0x11#8, 0x12#8, 0x31#8, 0x32#8]

theorem operand_eq_zero_of_bare {i : Instr} (h : i.opcode ∈ bareOpcodes) : i.operand = 0#16 := by
  cases i with
  | count x | enc x | decbit x | rdreg x | rdfreq x | rdnodel x | rdnodew x | rdlen x =>
    simp [Instr.opcode, bareOpcodes] at h
  | _ => rfl

/-- A word with a command's operand matches the command's row iff it is the command's word. -/
theorem and_rowMask_eq_iff {w : Word} {i : Instr} (hx : xField w = i.operand) :
    w &&& (if i.opcode ∈ bareOpcodes then bareMask else operandMask) = i.opcode.setWidth 32 <<< 24 ↔
      encode i = w := by
  rw [encode_eq_iff]
  split
  · next hbare =>
    rw [and_bareMask_eq_iff, operand_eq_zero_of_bare hbare]
  · simp [and_operandMask_eq_iff, hx]

/-- The opcode of a word that matches a row is the row's: every mask covers the field `op`. -/
theorem opField_of_matches {r : OpcodeRow} (hr : r ∈ opcodeRows) {w : Word} (h : r.matches w = true) :
    opField w = opField r.value := by
  have hmasks : ∀ r ∈ opcodeRows, opField r.mask = BitVec.allOnes 8 := by decide
  have hmatch : w &&& r.mask = r.value := of_decide_eq_true h
  rw [← hmatch, opField_and, hmasks r hr, BitVec.and_allOnes]

/-- No two rows share an opcode. -/
theorem row_eq_of_opField_eq : ∀ r ∈ opcodeRows, ∀ r' ∈ opcodeRows, opField r.value = opField r'.value → r = r' := by
  decide

/-- Settles O4: a match and the operand make the command's word (`and_rowMask_eq_iff`), and a row is known by its
opcode. -/
theorem wordSpellsTheRowItMatches : Obligations.WordSpellsTheRowItMatches := by
  refine ⟨fun w i => ?_, rfl, fun w r hr r' hr' h h' => ?_⟩
  · rw [decode_eq_ok_iff]
    refine ⟨fun ⟨hw, hwf⟩ => ?_, fun ⟨hmatch, hx, hwf⟩ => ⟨(and_rowMask_eq_iff hx).1 hmatch, hwf⟩⟩
    have hx : xField w = i.operand := hw ▸ xField_encode i
    exact ⟨(and_rowMask_eq_iff hx).2 hw, hx, hwf⟩
  · exact row_eq_of_opField_eq r hr r' hr' ((opField_of_matches hr h).symm.trans (opField_of_matches hr' h'))

/-! ### The six conditions of `legal(w)` (R64) -/

/-- The 15 opcodes (R62). -/
def opcodes : List (BitVec 8) :=
  [0x00#8, 0x01#8, 0x02#8, 0x10#8, 0x11#8, 0x12#8, 0x20#8, 0x30#8, 0x31#8, 0x32#8, 0x40#8, 0x41#8, 0x42#8, 0x43#8,
    0x44#8]

theorem opcode_mem_opcodes (i : Instr) : i.opcode ∈ opcodes := by
  cases i <;> simp [Instr.opcode, opcodes]

/-- Conditions 1 and 3: an opcode and an operand that make a command. -/
theorem exists_opcode_operand {op : BitVec 8} {x : Operand} (hop : op ∈ opcodes) (hx : op ∈ bareOpcodes → x = 0#16) :
    ∃ i : Instr, i.opcode = op ∧ i.operand = x := by
  simp only [opcodes, List.mem_cons, List.not_mem_nil, or_false] at hop
  rcases hop with rfl | rfl | rfl | rfl | rfl | rfl | rfl | rfl | rfl | rfl | rfl | rfl | rfl | rfl | rfl
  · exact ⟨.nop, rfl, (hx (by decide)).symm⟩
  · exact ⟨.clear, rfl, (hx (by decide)).symm⟩
  · exact ⟨.clrerr, rfl, (hx (by decide)).symm⟩
  · exact ⟨.count x, rfl, rfl⟩
  · exact ⟨.build, rfl, (hx (by decide)).symm⟩
  · exact ⟨.mktab, rfl, (hx (by decide)).symm⟩
  · exact ⟨.enc x, rfl, rfl⟩
  · exact ⟨.decbit x, rfl, rfl⟩
  · exact ⟨.decend, rfl, (hx (by decide)).symm⟩
  · exact ⟨.decrst, rfl, (hx (by decide)).symm⟩
  · exact ⟨.rdreg x, rfl, rfl⟩
  · exact ⟨.rdfreq x, rfl, rfl⟩
  · exact ⟨.rdnodel x, rfl, rfl⟩
  · exact ⟨.rdnodew x, rfl, rfl⟩
  · exact ⟨.rdlen x, rfl, rfl⟩

/-- Conditions 4 and 5, read off a command's opcode and operand. -/
theorem wellFormed_iff (i : Instr) :
    i.wellFormed = true ↔
      (i.opcode = 0x40#8 → i.operand.toNat ≤ 10) ∧ (i.opcode ∈ [0x41#8, 0x44#8] → i.operand.toNat ≤ 255) := by
  cases i <;> simp [Instr.wellFormed, Instr.opcode, Instr.operand, registerNumberOk, tableIndexOk]

namespace Machine

/-- Condition 6, read off a command's opcode and operand. -/
theorem stateLegal_iff (nnodes : BitVec 10) (i : Instr) :
    stateLegal nnodes i = true ↔ (i.opcode ∈ [0x42#8, 0x43#8] → i.operand.toNat < nnodes.toNat) := by
  cases i <;> simp [stateLegal, Instr.opcode, Instr.operand, nodeIndexOk]

/-- A legal word is the word of a command that is legal in the state. -/
theorem legal_iff_exists (w : Word) (nnodes : BitVec 10) :
    legal w nnodes = true ↔ ∃ i, decode w = .ok i ∧ stateLegal nnodes i = true := by
  unfold legal
  cases decode w <;> simp

/-- The six conditions on the fields. A legal word has the fields of its command, for which `wellFormed` and
`stateLegal` are conditions 4 to 6; conversely conditions 1 and 3 give the command. -/
theorem legal_iff_fields (w : Word) (nnodes : BitVec 10) :
    legal w nnodes = true ↔
      opField w ∈ opcodes ∧ rsvField w = 0#8 ∧ (opField w ∈ bareOpcodes → xField w = 0#16) ∧
        (opField w = 0x40#8 → (xField w).toNat ≤ 10) ∧ (opField w ∈ [0x41#8, 0x44#8] → (xField w).toNat ≤ 255) ∧
        (opField w ∈ [0x42#8, 0x43#8] → (xField w).toNat < nnodes.toNat) := by
  rw [legal_iff_exists]
  constructor
  · rintro ⟨i, hd, hlegal⟩
    obtain ⟨hrsv, hop, hx, hwf⟩ := decode_ok hd
    obtain ⟨hreg, htable⟩ := (wellFormed_iff i).1 hwf
    rw [hop, hx]
    exact ⟨opcode_mem_opcodes i, hrsv, operand_eq_zero_of_bare, hreg, htable, (stateLegal_iff nnodes i).1 hlegal⟩
  · rintro ⟨hop, hrsv, hbare, hreg, htable, hnode⟩
    obtain ⟨i, hi, hx⟩ := exists_opcode_operand hop hbare
    rw [← hi, ← hx] at hreg htable hnode
    have hw : encode i = w := encode_eq_iff.2 ⟨hi.symm, hrsv, hx.symm⟩
    exact ⟨i, decode_eq_ok_iff.2 ⟨hw, (wellFormed_iff i).2 ⟨hreg, htable⟩⟩, (stateLegal_iff nnodes i).2 hnode⟩

/-- Settles O3 (`legal_iff_fields`). -/
theorem legalIffTheSixConditions : Obligations.LegalIffTheSixConditions := legal_iff_fields

end Machine

end Sys2Proof
end

section
/-! A step on a presented word (30_encoding.md R66, R67): an illegal word, a command dropped, a command run. -/

namespace Sys2Proof.Machine

/-- Settles O7 (`step_cmd_of_decode`). -/
theorem stepRunsTheDecodedCommand : Obligations.StepRunsTheDecodedCommand :=
  fun _ _ _ _ => step_cmd_of_decode

theorem step_cmd_of_decode_error {s : State} {w : Word} {rest : List HostEvent} {why : Illegal}
    (hs : s.hostIn = .cmd w :: rest) (hd : decode w = .error why) :
    step s = .next (illegalWord w { s with hostIn := rest }) := by
  simp only [step, takeEvent, hs, execWord, hd]

/-- A read of a node that is not allocated does what an illegal word does (R64 condition 6, R66). -/
theorem exec_of_not_stateLegal {s : State} {i : Instr} (h : stateLegal s.nnodes i = false) :
    exec i s = .next (illegalWord (encode i) s) := by
  cases i with
  | rdnodel x =>
    have hx : nodeIndexOk x s.nnodes = false := h
    simp [exec, execRdnodel, linkResponse, runRead, hx]
  | rdnodew x =>
    have hx : nodeIndexOk x s.nnodes = false := h
    simp [exec, execRdnodew, weightResponse, runRead, hx]
  | _ => exact absurd h nofun

/-- An illegal word is taken, and raises or is dropped (R66, R67). -/
theorem step_of_not_legal {s : State} {w : Word} {rest : List HostEvent} (hs : s.hostIn = .cmd w :: rest)
    (h : legal w s.nnodes = false) : step s = .next (illegalWord w { s with hostIn := rest }) := by
  cases hd : decode w with
  | error why => exact step_cmd_of_decode_error hs hd
  | ok i =>
    obtain ⟨rfl, -⟩ := decode_eq_ok_iff.1 hd
    have hi : stateLegal s.nnodes i = false := by simpa [legal, hd] using h
    rw [step_cmd_of_decode hs hd]
    exact exec_of_not_stateLegal hi

/-- Settles O6: the step on an illegal word (`step_of_not_legal`), the ways to break one of the six conditions, and
`decode_eq_ok_iff`. -/
theorem illegalWordsRaiseOrAreDropped : Obligations.IllegalWordsRaiseOrAreDropped := by
  refine ⟨fun s w rest hs h => ?_, fun w nnodes h => ?_, fun w nnodes h => ?_⟩
  · rw [step_of_not_legal hs h]
    rcases illegalWord_cases w { s with hostIn := rest } with ⟨herr, he⟩ | ⟨herr, he⟩
    · rw [he, if_neg herr]
    · rw [he, if_pos herr]
      rfl
  · refine Bool.eq_false_iff.2 fun hlegal => ?_
    obtain ⟨hop, hrsv, hbare, hreg, htable, hnode⟩ := (legalIffTheSixConditions w nnodes).1 hlegal
    rcases h with h | h | ⟨h, hx⟩ | ⟨h, hx⟩ | ⟨h, hx⟩ | ⟨h, hx⟩
    · exact h hop
    · exact h hrsv
    · exact hx (hbare h)
    · exact Nat.not_lt.2 (hreg h) hx
    · exact Nat.not_lt.2 (htable h) hx
    · exact Nat.not_le.2 (hnode h) hx
  · obtain ⟨i, hd, -⟩ := (legal_iff_exists w nnodes).1 h
    exact ⟨i, hd, (decode_eq_ok_iff.1 hd).1⟩

/-- A data-path command is dropped while a fault is latched (R66). -/
theorem exec_dataPath_dropped {s : State} {i : Instr} (hi : isDataPath i = true) (h : s.err ≠ none) :
    exec i s = .next s := by
  cases i with
  | count x | enc x | decbit x => exact congrArg Host.Outcome.next (runDataPath_dropped h _ _ _)
  | build | mktab | decend | decrst => exact congrArg Host.Outcome.next (runDataPath_dropped h _ _ _)
  | _ => exact absurd hi nofun

/-- Settles O9: the step on an illegal word is `step_of_not_legal`, that on a legal one its command's, which a latched
fault drops on the data path (`exec_dataPath_dropped`). -/
theorem stepFollowsTheExecRule : Obligations.StepFollowsTheExecRule := by
  intro s w rest hs
  cases hlegal : legal w s.nnodes with
  | false =>
    refine ⟨_, step_of_not_legal hs hlegal, ?_⟩
    rcases illegalWord_cases w { s with hostIn := rest } with ⟨herr, he⟩ | ⟨herr, he⟩
    · exact .inr (.inl ⟨rfl, herr, he⟩)
    · exact .inl ⟨rfl, herr, he⟩
  | true =>
    obtain ⟨i, hd, -⟩ := (legal_iff_exists w s.nnodes).1 hlegal
    have hnext := exec_eq_nextOf i { s with hostIn := rest }
    refine ⟨_, (step_cmd_of_decode hs hd).trans hnext, .inr (.inr ⟨rfl, i, hd, ?_⟩)⟩
    by_cases hdrop : isDataPath i = true ∧ s.err ≠ none
    · obtain ⟨hi, herr⟩ := hdrop
      exact .inl ⟨hi, herr, Host.Outcome.next.inj (hnext.symm.trans (exec_dataPath_dropped hi herr))⟩
    · refine .inr ⟨?_, hnext⟩
      by_cases herr : s.err = none
      · exact .inr herr
      · exact .inl (Bool.eq_false_iff.2 fun hi => hdrop ⟨hi, herr⟩)

end Sys2Proof.Machine
end

section
/-! The round trip (30_encoding.md R70, 45_decode.md R145): `COMPRESS` counts a text, builds the tree and the table, and
emits the text's codes; `DECOMPRESS` of these bits walks the tree once for each code. -/

namespace Sys2Proof.Machine

/-! ### Runs -/

theorem runCommands_cons_of_exec {i : Instr} {s t : State} (h : exec i s = .next t) (is : List Instr) :
    runCommands (i :: is) s = runCommands is t := by
  rw [runCommands, h]

theorem runCommands_append {is : List Instr} {s t : State} (h : runCommands is s = .next t) (js : List Instr) :
    runCommands (is ++ js) s = runCommands js t := by
  induction is generalizing s with
  | nil =>
    cases h
    rfl
  | cons i is ih =>
    rw [runCommands_cons] at h
    rw [List.cons_append, runCommands_cons]
    exact ih h

/-! ### A text's symbols and a bit-string's bits as operands -/

theorem toNat_symbolOperand (c : Symbol) : (c.setWidth 16 : Operand).toNat = c.toNat :=
  BitVec.toNat_setWidth_of_le (by decide)

theorem validSymbol_symbolOperand (c : Symbol) : validSymbol (c.setWidth 16) = true := by
  rw [validSymbol_iff, toNat_symbolOperand]
  exact c.isLt

/-- The operand of `DECBIT` for a bit (30_encoding.md R61). -/
def bitOperand (b : Bool) : Operand := if b then 1#16 else 0#16

theorem bitOperands_cons (b : Bool) (bits : List Bool) :
    bitOperands (b :: bits) = bitOperand b :: bitOperands bits := rfl

theorem validBit_bitOperand (b : Bool) : validBit (bitOperand b) = true := by
  cases b <;> rfl

theorem bitOf_bitOperand (b : Bool) : bitOf (bitOperand b) = b := by
  cases b <;> rfl

/-! ### The commands where their checks pass -/

theorem exec_count {s : State} (herr : s.err = none) (hphase : s.phase = .collect)
    (hroom : s.total.toNat ≠ Config.totalMax) (c : Symbol) :
    exec (.count (c.setWidth 16)) s = .next (countSymbol c.toNat s) := by
  have hcount : countRoom s = true := decide_eq_true hroom
  rw [exec, execCount, toNat_symbolOperand, validSymbol_symbolOperand, hcount,
    runDataPath_effect herr (by simp [permittedIn, hphase]) rfl]

theorem exec_build {s : State} (herr : s.err = none) (hphase : s.phase = .collect) :
    exec .build s = .next (buildEffect s) :=
  congrArg Host.Outcome.next (runDataPath_effect herr (by simp [permittedIn, hphase]) rfl _)

theorem exec_mktab {s : State} (herr : s.err = none) (hphase : s.phase ≠ .collect) :
    exec .mktab s = .next (mktabEffect s) :=
  congrArg Host.Outcome.next (runDataPath_effect herr (by simp [permittedIn, hphase]) rfl _)

theorem exec_enc {s : State} (herr : s.err = none) (hphase : s.phase = .ready) {c : Symbol}
    (hcoded : symbolCoded c.toNat s = true) :
    exec (.enc (c.setWidth 16)) s = .next (emitBits (codePath c.toNat s) s) := by
  rw [exec, execEnc, toNat_symbolOperand, validSymbol_symbolOperand, hcoded,
    runDataPath_effect herr (by simp [permittedIn, hphase]) rfl]

theorem exec_decbit {s : State} (herr : s.err = none) (hphase : s.phase ≠ .collect) (hwalk : walkable s = true)
    (b : Bool) : exec (.decbit (bitOperand b)) s = .next (decodeBit b s) := by
  rw [exec, execDecbit, bitOf_bitOperand, validBit_bitOperand, hwalk,
    runDataPath_effect herr (by simp [permittedIn, hphase]) rfl]

theorem exec_decend {s : State} (herr : s.err = none) (hphase : s.phase ≠ .collect) (hcur : s.cur = s.root) :
    exec .decend s = .next s :=
  congrArg Host.Outcome.next
    (runDataPath_effect herr (by simp [permittedIn, hphase]) (by simp [atBoundary, hcur]) id)

theorem exec_decrst {s : State} (herr : s.err = none) (hphase : s.phase ≠ .collect) :
    exec .decrst s = .next (cursorToRoot s) :=
  congrArg Host.Outcome.next (runDataPath_effect herr (by simp [permittedIn, hphase]) rfl _)

/-! ### Counting a text -/

/-- The state after `COUNT` of each symbol of a text (41_count.md R91). -/
def countText (text : List Symbol) (s : State) : State := text.foldl (fun s c => countSymbol c.toNat s) s

/-- The state is in phase `COLLECT` without a fault, and there is room to count `n` symbols more. -/
structure Counting (n : Nat) (s : State) : Prop where
  inv   : Inv s
  err   : s.err = none
  phase : s.phase = .collect
  room  : s.total.toNat + n ≤ Config.totalMax

theorem counting_applyReset (s : State) {n : Nat} (hn : n ≤ Config.totalMax) : Counting n (applyReset s) where
  inv := inv_applyReset s
  err := rfl
  phase := rfl
  room := (Nat.zero_add n).symm ▸ hn

section Counting

variable {n : Nat} {s : State}

theorem Counting.total_lt (h : Counting (n + 1) s) : s.total.toNat < Config.totalMax :=
  Nat.lt_of_lt_of_le (Nat.lt_add_of_pos_right n.succ_pos) h.room

theorem Counting.countSymbol (h : Counting (n + 1) s) (c : Symbol) : Counting n (countSymbol c.toNat s) := by
  have hlt := h.total_lt
  have hsucc : (s.total + 1#32).toNat = s.total.toNat + 1 :=
    BitVec.toNat_add_of_lt (Nat.lt_of_le_of_lt (Nat.succ_le_of_lt hlt) (by decide))
  have hroom := h.room
  exact
  { inv := h.inv.countSymbol h.phase c.isLt (Nat.ne_of_lt hlt)
    err := h.err
    phase := h.phase
    room := by
      rw [countSymbol_total, hsucc]
      omega }

/-- A symbol present stays present, and the symbol counted is present then. -/
theorem Counting.freqRead_countSymbol_ne_zero (h : Counting (n + 1) s) (c : Symbol) {k : Nat}
    (hk : freqRead s.freq k ≠ 0#32 ∨ k = c.toNat) : freqRead (Machine.countSymbol c.toNat s).freq k ≠ 0#32 := by
  rw [countSymbol_freq, freqRead_freqWrite]
  split
  · have hle : (freqRead s.freq c.toNat).toNat ≤ s.total.toNat := h.inv.totalSum ▸ freqRead_le_freqSum s.freq c.isLt
    have hlt : s.total.toNat < 4294967294 := h.total_lt
    bv_omega
  · next hne => exact hk.resolve_right hne

/-- Counting a text with room for all of it: the run has no fault, and then the text's symbols are present. -/
theorem Counting.countText {text : List Symbol} (h : Counting text.length s) :
    runCommands ((symbolOperands text).map .count) s = .next (countText text s) ∧
      Counting 0 (Machine.countText text s) ∧
      ∀ k, (freqRead s.freq k ≠ 0#32 ∨ ∃ c ∈ text, k = c.toNat) →
        freqRead (Machine.countText text s).freq k ≠ 0#32 := by
  induction text generalizing s with
  | nil => exact ⟨rfl, h, fun k hk => by simpa [Machine.countText] using hk⟩
  | cons c text ih =>
    obtain ⟨hrun, hcounting, hpresent⟩ := ih (h.countSymbol c)
    have hexec := exec_count h.err h.phase (Nat.ne_of_lt h.total_lt) c
    refine ⟨(runCommands_cons_of_exec hexec _).trans hrun, hcounting, fun k hk => hpresent k ?_⟩
    rcases hk with hk | ⟨d, hd, rfl⟩
    · exact .inl (h.freqRead_countSymbol_ne_zero c (.inl hk))
    · rcases List.mem_cons.1 hd with rfl | hd
      · exact .inl (h.freqRead_countSymbol_ne_zero d (.inr rfl))
      · exact .inr ⟨d, hd, rfl⟩

end Counting

theorem countText_bitOut (text : List Symbol) (s : State) : (countText text s).bitOut = s.bitOut := by
  induction text generalizing s with
  | nil => rfl
  | cons c text ih => exact ih (countSymbol c.toNat s)

/-! ### The table of a built tree -/

/-- A symbol present has a code once the table is made: it has a leaf (42_build.md R103), and each leaf has an entry. -/
theorem Inv.symbolCoded_of_present {s : State} (h : Inv s) (hphase : s.phase = .ready) {c : Nat}
    (hc : c ∈ presentSymbols s.freq) : symbolCoded c s = true := by
  have hbuilt : s.phase ≠ .collect := by simp [hphase]
  obtain ⟨k, hk, rfl⟩ := List.getElem_of_mem hc
  obtain ⟨hsym, -⟩ := h.leavesOfFreq hbuilt k hk
  obtain ⟨hleaves, -⟩ := h.builtSizes hbuilt
  have hk' : k < s.nleaves.toNat := by
    rw [hleaves, leafCount]
    split <;> omega
  obtain ⟨hentry, -⟩ := h.table.2 hphase
  rw [← getD_of_lt hk, ← hsym]
  exact hentry k hk'

/-- A symbol's code leads to the symbol's leaf, which is not the root. -/
theorem Inv.leadsToLeaf_codePath {s : State} (h : Inv s) (hphase : s.phase = .ready) {c : Nat}
    (hc : symbolCoded c s = true) : LeadsToLeaf s (codePath c s) c ∧ codePath c s ≠ [] := by
  obtain ⟨p, hp⟩ := Option.isSome_iff_exists.1 hc
  have hpath : codePath c s = p := by rw [codePath, hp, Option.getD_some]
  obtain ⟨-, hroutes⟩ := h.table.2 hphase
  obtain ⟨l, hl, hroute, hsym⟩ := hroutes (c, p) (tableFind_mem hp)
  have hroot : s.root ≠ Config.nil := fun hroot => by
    have := h.sizes_of_no_root (by simp [hphase]) hroot
    omega
  obtain ⟨hlast, hsize⟩ := h.root_toNat hroot
  have hleaf : isLeaf s.node l = true := (h.isLeaf_iff (by omega)).2 hl
  rw [hpath]
  refine ⟨⟨hroot, l, hroute, hleaf, hsym⟩, fun hnil => ?_⟩
  cases hnil
  cases hroute
  exact absurd hleaf (by simp [h.rootInternal hroot])

theorem Inv.cursorToRoot_eq {s : State} (h : Inv s) (hcur : s.cur = s.root) : Machine.cursorToRoot s = s := by
  rcases h.cursor with ⟨-, hdepth⟩ | ⟨-, hne, -⟩
  · exact (congr (congrArg (fun cur depth => { s with cur := cur, depth := depth }) hcur) hdepth).symm
  · exact absurd hcur hne

/-! ### Decoding a path -/

/-- Fed a path from the cursor to a leaf, the decoder emits the leaf's symbol and returns to the root
(45_decode.md R141). -/
theorem runCommands_path {s : State} (herr : s.err = none) (hphase : s.phase ≠ .collect) (hwalk : walkable s = true)
    {p : BitPath} {l : Nat} (hp : p ≠ []) (hroute : route s.node s.cur.toNat p = some l)
    (hl : isLeaf s.node l = true) :
    runCommands ((bitOperands p).map .decbit) s = .next (cursorToRoot (emitSym (nodeRead s.node l).sym s)) := by
  induction p generalizing s with
  | nil => exact absurd rfl hp
  | cons b p ih =>
    obtain ⟨-, hrest⟩ := route_cons_eq_some.1 hroute
    rw [bitOperands_cons, List.map_cons, runCommands_cons_of_exec (exec_decbit herr hphase hwalk b)]
    cases p with
    | nil =>
      cases hrest
      exact congrArg Host.Outcome.next (if_pos hl)
    | cons b' p =>
      obtain ⟨hinner, -⟩ := route_cons_eq_some.1 hrest
      rw [decodeBit, if_neg (by simp [nextNode, hinner])]
      exact ih (s := { s with cur := nextNode b s, depth := s.depth + 1#8 }) herr hphase hwalk (by simp) hrest hl

/-! ### Encoding and decoding a text -/

/-- The state is ready at a code boundary without a fault, and the text's symbols have codes. -/
structure Coding (text : List Symbol) (s : State) : Prop where
  inv      : Inv s
  err      : s.err = none
  phase    : s.phase = .ready
  boundary : s.cur = s.root
  coded    : ∀ c ∈ text, symbolCoded c.toNat s = true

/-- The codes of a text's symbols, one after another (44_encode.md R131). -/
def textCode (text : List Symbol) (s : State) : BitPath := text.flatMap fun c => codePath c.toNat s

theorem textCode_cons (c : Symbol) (text : List Symbol) (s : State) :
    textCode (c :: text) s = codePath c.toNat s ++ textCode text s :=
  List.flatMap_cons

theorem textCode_emitBits (text : List Symbol) (p : BitPath) (s : State) :
    textCode text (emitBits p s) = textCode text s := rfl

theorem emitBits_emitBits (p q : BitPath) (s : State) : emitBits q (emitBits p s) = emitBits (p ++ q) s := by
  simp [emitBits]

/-- The state after the decoder has emitted a text. -/
def emitText (text : List Symbol) (s : State) : State := { s with symOut := s.symOut ++ text }

section Coding

variable {text : List Symbol} {c : Symbol} {s : State}

theorem Coding.phase_ne (h : Coding text s) : s.phase ≠ .collect := by simp [h.phase]

theorem Coding.emitBits (h : Coding text s) (p : BitPath) : Coding text (emitBits p s) :=
  ⟨h.inv.of_block_eq rfl, h.err, h.phase, h.boundary, h.coded⟩

theorem Coding.emitSym (h : Coding text s) (v : Symbol) : Coding text (emitSym v s) :=
  ⟨h.inv.of_block_eq rfl, h.err, h.phase, h.boundary, h.coded⟩

theorem Coding.tail (h : Coding (c :: text) s) : Coding text s :=
  ⟨h.inv, h.err, h.phase, h.boundary, fun d hd => h.coded d (List.mem_cons_of_mem c hd)⟩

/-- `ENC` of each symbol of a text emits the text's code. -/
theorem Coding.encode_text (h : Coding text s) :
    runCommands ((symbolOperands text).map .enc) s = .next (Machine.emitBits (textCode text s) s) := by
  induction text generalizing s with
  | nil => simp [symbolOperands, textCode, runCommands, Machine.emitBits]
  | cons c text ih =>
    have hexec := exec_enc h.err h.phase (h.coded c (by simp))
    refine (runCommands_cons_of_exec hexec _).trans ((ih (h.tail.emitBits _)).trans ?_)
    rw [textCode_emitBits, emitBits_emitBits, textCode_cons]

/-- Fed one symbol's code at a boundary, the decoder emits the symbol and is at a boundary (45_decode.md R145). -/
theorem Coding.decode_symbol (h : Coding (c :: text) s) :
    runCommands ((bitOperands (codePath c.toNat s)).map .decbit) s = .next (Machine.emitSym c s) := by
  obtain ⟨⟨hroot, l, hroute, hleaf, hsym⟩, hne⟩ := h.inv.leadsToLeaf_codePath h.phase (h.coded c (by simp))
  have hwalk : walkable s = true := (walkable_iff s).2 ⟨hroot, h.inv.rootInternal hroot⟩
  have hnext := (h.emitSym c).inv.cursorToRoot_eq h.boundary
  rw [runCommands_path h.err h.phase_ne hwalk hne (by rwa [h.boundary]) hleaf, BitVec.eq_of_toNat_eq hsym, hnext]

theorem Coding.decode_text (h : Coding text s) :
    runCommands ((bitOperands (textCode text s)).map .decbit) s = .next (emitText text s) := by
  induction text generalizing s with
  | nil => simp [bitOperands, textCode, runCommands, emitText]
  | cons c text ih =>
    have hsplit : (bitOperands (textCode (c :: text) s)).map Instr.decbit =
        (bitOperands (codePath c.toNat s)).map .decbit ++ (bitOperands (textCode text s)).map .decbit := by
      simp [textCode_cons, bitOperands]
    have hrest := ih (h.tail.emitSym c)
    rw [hsplit, runCommands_append h.decode_symbol]
    refine hrest.trans ?_
    simp [emitText]

/-- `DECOMPRESS` of a text's code emits the text (30_encoding.md R70). -/
theorem Coding.decompress (h : Coding text s) :
    runCommands (decompressMacro (bitOperands (textCode text s))) s = .next (emitText text s) := by
  have hdecrst := exec_decrst h.err h.phase_ne
  rw [h.inv.cursorToRoot_eq h.boundary] at hdecrst
  have hdecend : exec .decend (emitText text s) = .next (emitText text s) :=
    exec_decend h.err h.phase_ne h.boundary
  rw [decompressMacro, List.cons_append, runCommands_cons_of_exec hdecrst, runCommands_append h.decode_text,
    runCommands_cons_of_exec hdecend, runCommands]

end Coding

/-! ### Compressing a text -/

/-- The state in which `COMPRESS` has counted a text and made its tree and table. -/
def tabled (text : List Symbol) (s : State) : State := mktabEffect (buildEffect (countText text (applyReset s)))

theorem coding_tabled {text : List Symbol} (htext : text.length ≤ Config.totalMax) (s : State) :
    Coding text (tabled text s) := by
  obtain ⟨-, hcounting, hpresent⟩ := (counting_applyReset s htext).countText
  have hinv : Inv (tabled text s) := (hcounting.inv.buildEffect hcounting.phase).mktabEffect (by simp)
  refine ⟨hinv, hcounting.err, rfl, rfl, fun c hc => hinv.symbolCoded_of_present rfl ?_⟩
  exact mem_presentSymbols.2 ⟨c.isLt, hpresent c.toNat (.inr ⟨c, hc, rfl⟩)⟩

/-- `COMPRESS` emits the text's code (30_encoding.md R70). -/
theorem runCommands_compress {text : List Symbol} (htext : text.length ≤ Config.totalMax) (s : State) :
    runCommands (compressMacro (symbolOperands text)) s =
      .next (emitBits (textCode text (tabled text s)) (tabled text s)) := by
  obtain ⟨hcount, hcounting, -⟩ := (counting_applyReset s htext).countText
  have hclear : exec .clear s = .next (applyReset s) := rfl
  have hbuild := exec_build hcounting.err hcounting.phase
  have hmktab : exec .mktab (buildEffect (countText text (applyReset s))) = .next (tabled text s) :=
    exec_mktab hcounting.err (by simp)
  rw [compressMacro, List.cons_append, List.cons_append, List.append_assoc, runCommands_cons_of_exec hclear,
    runCommands_append hcount, List.cons_append, runCommands_cons_of_exec hbuild, List.cons_append,
    runCommands_cons_of_exec hmktab]
  exact (coding_tabled htext s).encode_text

/-- Settles O46: the bits `COMPRESS` emits are the text's code (`runCommands_compress`), of which `DECOMPRESS` makes the
text (`Coding.decompress`), on a tree and a table that meet the invariant. -/
theorem decompressOfCompressIsTheText : Obligations.DecompressOfCompressIsTheText := by
  intro s text htext
  have hcoding := (coding_tabled htext s).emitBits (textCode text (tabled text s))
  have hbits : (tabled text s).bitOut = s.bitOut := by simp [tabled, countText_bitOut]
  have hdecompress := hcoding.decompress
  rw [textCode_emitBits] at hdecompress
  refine ⟨_, _, textCode text (tabled text s), runCommands_compress htext s, hcoding.err, ?_, hdecompress,
    hcoding.err, rfl⟩
  rw [emitBits_bitOut, hbits]

end Sys2Proof.Machine
end

section
/-! Control (40_control.md R80 to R83): `NOP` leaves the state, `CLRERR` clears the latch, `CLEAR` does what `rst`
does. -/

namespace Sys2Proof.Machine

theorem exec_nop (s : State) : exec .nop s = .next s := rfl

theorem exec_clrerr (s : State) : exec .clrerr s = .next (clearLatch s) := rfl

theorem exec_clear (s : State) : exec .clear s = .next (applyReset s) := rfl

/-! ### NOP -/

/-- An operand alone, with the opcode 0, is a legal word only if it is 0 (R64 condition 3). -/
theorem legal_operand_iff (x : Operand) (nnodes : BitVec 10) : legal (x.setWidth 32) nnodes = true ↔ x = 0#16 := by
  obtain ⟨hop, hrsv, hx⟩ := fields_operand x
  rw [legal_iff_fields, hop, hrsv, hx]
  simp [opcodes, bareOpcodes]

/-- Settles O18: an operand makes `NOP`'s word illegal (`legal_operand_iff`). -/
theorem nopChangesNothing : Obligations.NopChangesNothing :=
  ⟨rfl, exec_nop, fun x nnodes hx => Bool.eq_false_iff.2 fun h => hx ((legal_operand_iff x nnodes).1 h)⟩

/-! ### CLRERR -/

theorem errLine_of_err_eq_none {s : State} (h : s.err = none) : errLine s = false := by
  simp [errLine, errCode, h]

/-- The return from a fault changes nothing where none is latched. -/
theorem clearLatch_of_unlatched {s : State} (herr : s.err = none) (hinfo : s.errinfo = 0#32) : clearLatch s = s := by
  rw [clearLatch, ← herr, ← hinfo]

/-- The return from a fault gives back all that the fault overwrote, which is the latch alone (R171, R172). -/
theorem clearLatch_raise (e : ErrorKind) (w : Word) (s : State) : clearLatch (raise e w s) = clearLatch s := rfl

/-- A command that passes its checks latches nothing. -/
theorem Effect.err_eq_none {s t : State} {i : Instr} (h : Effect s i t) (hs : s.err = none) : t.err = none := by
  cases h with
  | clear | clrerr => rfl
  | count | build | mktab | enc | decbitLeaf | decbitInner | decrst | read => exact hs

/-- A command that latches a fault does nothing but raise it (R172). -/
theorem exec_raises {s t : State} {i : Instr} (h : exec i s = .next t) (hs : s.err = none) (ht : t.err ≠ none) :
    ∃ e, t = raise e (encode i) s := by
  rcases exec_outcomes h with rfl | ⟨e, -, -, he⟩ | heff
  · exact absurd hs ht
  · exact ⟨e, he⟩
  · exact absurd (heff.err_eq_none hs) ht

/-- Settles O19: a faulting command only raises (`exec_raises`), so clearing the latch gives back the state before it
(`clearLatch_raise`). -/
theorem clrerrClearsOnlyTheLatch : Obligations.ClrerrClearsOnlyTheLatch := by
  refine ⟨rfl, exec_clrerr, fun s herr hinfo => ?_, fun s t h => ?_, fun s t u i herr hinfo h ht hu => ?_⟩
  · rw [exec_clrerr, clearLatch_of_unlatched herr hinfo]
  · cases h
    have hline : errLine (clearLatch s) = false := errLine_of_err_eq_none (clearLatch_err s)
    exact ⟨hline, (statusWord_getLsbD (clearLatch s) 4).trans hline⟩
  · cases hu
    obtain ⟨e, rfl⟩ := exec_raises h herr ht
    rw [clearLatch_raise, clearLatch_of_unlatched herr hinfo]

/-! ### CLEAR -/

theorem step_of_rst {s : State} {rest : List HostEvent} (hs : s.hostIn = .rst :: rest) :
    step s = .next (applyReset { s with hostIn := rest }) := by
  simp only [step, takeEvent, hs]

/-- Settles O20: a reset and `CLEAR`, presented as a word or run, all apply `applyReset` to the same state. -/
theorem clearAndResetAgree : Obligations.ClearAndResetAgree := by
  intro s rest
  have hrst : step { s with hostIn := .rst :: rest } = .next (applyReset { s with hostIn := rest }) := step_of_rst rfl
  have hclear : exec .clear { s with hostIn := rest } = .next (applyReset { s with hostIn := rest }) := exec_clear _
  have hword : step { s with hostIn := .cmd (encode .clear) :: rest } = exec .clear { s with hostIn := rest } :=
    step_cmd_of_decode rfl (decode_encode rfl)
  exact ⟨hclear.trans hrst.symm, hword.trans (hclear.trans hrst.symm)⟩

theorem statusWord_applyReset (s : State) : statusWord (applyReset s) = 0#32 :=
  have hreset : statusWord State.reset = 0#32 := by decide
  hreset

theorem applyReset_applyReset (s : State) : applyReset (applyReset s) = applyReset s := rfl

/-- Settles O21: `CLEAR` applies `applyReset`, whose registers are those of the reset state and whose tables read as
there (`resetStateHoldsTheListedValues`). -/
theorem clearWritesTheListedState : Obligations.ClearWritesTheListedState := by
  obtain ⟨-, -, -, hline, hfreq, hcode, -⟩ := resetStateHoldsTheListedValues
  refine ⟨rfl, fun s => ⟨applyReset s, exec_clear s, rfl, hfreq, rfl, rfl, rfl, rfl, rfl, rfl, rfl, rfl, hcode, rfl,
    rfl, rfl, rfl, rfl, rfl, statusWord_applyReset s, hline, ?_, ?_⟩⟩
  · rintro rfl
    rfl
  · rw [exec_clear, applyReset_applyReset]

end Sys2Proof.Machine
end

section
/-! `COUNT` (41_count.md R90 to R92): its checks and its effect, and what counting a whole text leaves. -/

namespace Sys2Proof.Machine

/-! ### One count -/

theorem encode_count (x : Operand) : encode (.count x) = 0x10000000#32 ||| x.setWidth 32 := by
  have hop : (0x10#8).setWidth 32 <<< 24 = 0x10000000#32 := by decide
  rw [encode_eq_shifted_or, ← hop, Instr.opcode, Instr.operand]

theorem exec_count_raises {s : State} {x : Operand} {e : ErrorKind} (herr : s.err = none)
    (hfail : firstFailure [(permittedIn s.phase (.count x), .sequenceError), (validSymbol x, .alphabetOverflow),
      (countRoom s, .countOverflow)] = some e) :
    exec (.count x) s = .next (raise e (encode (.count x)) s) :=
  congrArg Host.Outcome.next (runDataPath_raises herr hfail _)

theorem exec_count_effect {s : State} {x : Operand} (herr : s.err = none) (hphase : s.phase = .collect)
    (hx : x.toNat < Config.alphabetSize) (hroom : s.total.toNat ≠ Config.totalMax) :
    exec (.count x) s = .next (countSymbol x.toNat s) := by
  have hvalid : validSymbol x = true := (validSymbol_iff x).2 hx
  have hcount : countRoom s = true := decide_eq_true hroom
  exact congrArg Host.Outcome.next
    (runDataPath_effect herr (by simp [permittedIn, hphase]) (by rw [hvalid, hcount]; rfl) _)

theorem freqRead_countSymbol (s : State) (c k : Nat) :
    freqRead (countSymbol c s).freq k = if k = c then freqRead s.freq c + 1#32 else freqRead s.freq k := by
  rw [countSymbol_freq, freqRead_freqWrite]

/-- Settles O23: the first failing check raises (`exec_count_raises`); with none failing `countSymbol` is the effect. -/
theorem countFollowsItsRule : Obligations.CountFollowsItsRule := by
  intro s x
  refine ⟨encode_count x, exec_dataPath_dropped rfl, fun herr hphase => ?_,
    fun herr hphase hx => ?_, fun herr hphase hx htotal => ?_, fun herr hphase hx htotal => ?_⟩
  · have hseq : permittedIn s.phase (.count x) = false := beq_eq_false_iff_ne.2 hphase
    exact exec_count_raises herr (by rw [hseq]; rfl)
  · have hseq : permittedIn s.phase (.count x) = true := beq_iff_eq.2 hphase
    have hvalid : validSymbol x = false := decide_eq_false (Nat.not_le.2 hx)
    exact exec_count_raises herr (by rw [hseq, hvalid]; rfl)
  · have hseq : permittedIn s.phase (.count x) = true := beq_iff_eq.2 hphase
    have hvalid : validSymbol x = true := decide_eq_true hx
    have hroom : countRoom s = false := decide_eq_false (not_not_intro htotal)
    exact exec_count_raises herr (by rw [hseq, hvalid, hroom]; rfl)
  · refine ⟨(countSymbol x.toNat s).freq, exec_count_effect herr hphase (Nat.lt_succ_of_le hx) htotal, ?_, ?_⟩
    · rw [freqRead_countSymbol, if_pos rfl]
    · intro c hc
      rw [freqRead_countSymbol, if_neg hc]

/-! ### The additions are exact -/

/-- A `COUNT` that neither is dropped nor raises has passed its checks. -/
theorem exec_count_inv {s t : State} {x : Operand} (h : exec (.count x) s = .next t) (hs : s.err = none)
    (ht : t.err = none) : s.phase = .collect ∧ x.toNat < Config.alphabetSize ∧ s.total.toNat ≠ Config.totalMax ∧
      t = countSymbol x.toNat s := by
  cases h
  rcases runDataPath_cases (.count x) [(validSymbol x, .alphabetOverflow), (countRoom s, .countOverflow)]
    (countSymbol x.toNat) s with ⟨hlatched, -⟩ | ⟨e, -, -, he⟩ | ⟨-, hphase, hchecks, he⟩
  · exact absurd hs hlatched
  · rw [he] at ht
    exact absurd ht nofun
  · have hx := (validSymbol_iff x).1 (hchecks (validSymbol x, .alphabetOverflow) (by simp))
    have hroom : countRoom s = true := hchecks (countRoom s, .countOverflow) (by simp)
    exact ⟨eq_of_beq hphase, hx, of_decide_eq_true hroom, he⟩

/-- Adding 1 to a weight below `TOTAL_MAX` does not wrap. -/
theorem toNat_add_one {w : Weight} (h : w.toNat < 4294967294) : (w + 1#32).toNat = w.toNat + 1 :=
  BitVec.toNat_add_of_lt (Nat.lt_of_le_of_lt (Nat.succ_le_of_lt h) (by decide))

theorem Inv.freqRead_le_total {s : State} (h : Inv s) {c : Nat} (hc : c < Config.alphabetSize) :
    (freqRead s.freq c).toNat ≤ s.total.toNat :=
  h.totalSum ▸ freqRead_le_freqSum s.freq hc

/-- Settles O24: the guard keeps `TOTAL` below its maximum, and a count is at most `TOTAL` (R32 invariant 8), so
neither sum reaches `2^32`. -/
theorem countAdditionsAreExact : Obligations.CountAdditionsAreExact := by
  intro s t x hinv hs hexec ht
  obtain ⟨hphase, hx, hroom, rfl⟩ := exec_count_inv hexec hs ht
  have htotal : s.total.toNat < 4294967294 := Nat.lt_of_le_of_ne hinv.totalMax hroom
  have hfreq := Nat.lt_of_le_of_lt (hinv.freqRead_le_total hx) htotal
  refine ⟨?_, toNat_add_one htotal, (hinv.countSymbol hphase hx hroom).totalMax⟩
  rw [freqRead_countSymbol, if_pos rfl, toNat_add_one hfreq]

/-! ### Counting a text -/

theorem countText_cons (c : Symbol) (text : List Symbol) (s : State) :
    countText (c :: text) s = countText text (countSymbol c.toNat s) := rfl

/-- Counting writes `FREQ` and `TOTAL` and nothing else. -/
theorem countText_frame (text : List Symbol) (s : State) :
    countText text s = { s with freq := (countText text s).freq, total := (countText text s).total } := by
  induction text generalizing s with
  | nil => rfl
  | cons c text ih => exact ih (countSymbol c.toNat s)

theorem countText_total (text : List Symbol) (s : State) :
    (countText text s).total = s.total + BitVec.ofNat 32 text.length := by
  induction text generalizing s with
  | nil => exact (BitVec.add_zero _).symm
  | cons c text ih =>
    rw [countText_cons, ih, countSymbol_total, List.length_cons, Nat.add_comm, BitVec.ofNat_add, BitVec.add_assoc]

/-- The index is any natural number, so that it also says that the entries above the alphabet stay. -/
theorem freqRead_countText (text : List Symbol) (s : State) (k : Nat) :
    freqRead (countText text s).freq k = freqRead s.freq k + BitVec.ofNat 32 ((text.map BitVec.toNat).count k) := by
  induction text generalizing s with
  | nil => exact (BitVec.add_zero _).symm
  | cons c text ih =>
    rw [countText_cons, ih, freqRead_countSymbol, List.map_cons]
    by_cases hk : k = c.toNat
    · rw [if_pos hk, ← hk, List.count_cons_self, Nat.add_comm _ 1, BitVec.ofNat_add, BitVec.add_assoc]
    · rw [if_neg hk, List.count_cons_of_ne (Ne.symm hk)]

theorem countText_freqWf (text : List Symbol) {s : State} (h : freqWf s.freq) : freqWf (countText text s).freq := by
  induction text generalizing s with
  | nil => exact h
  | cons c text ih => exact ih (freqWrite_wf h c.isLt _)

/-- Texts that differ in their order only give the same state: their symbols occur equally often, and a table in
canonical form is its counts (`freq_ext`). -/
theorem countText_perm {text text' : List Symbol} (hperm : text'.Perm text) {s : State} (h : freqWf s.freq) :
    countText text' s = countText text s := by
  have hfreq : (countText text' s).freq = (countText text s).freq := by
    refine freq_ext (countText_freqWf text' h) (countText_freqWf text h) fun k => ?_
    rw [freqRead_countText, freqRead_countText, (hperm.map BitVec.toNat).count_eq]
  have htotal : (countText text' s).total = (countText text s).total := by
    rw [countText_total, countText_total, hperm.length_eq]
  rw [countText_frame text' s, countText_frame text s, hfreq, htotal]

/-- With room for the whole text none of its `COUNT`s faults. -/
theorem runCommands_count {text : List Symbol} {s : State} (herr : s.err = none) (hphase : s.phase = .collect)
    (hroom : s.total.toNat + text.length ≤ Config.totalMax) :
    runCommands ((symbolOperands text).map .count) s = .next (countText text s) := by
  induction text generalizing s with
  | nil => rfl
  | cons c text ih =>
    have hmax : s.total.toNat + (text.length + 1) ≤ 4294967294 := hroom
    have hlt : s.total.toNat < 4294967294 := by omega
    have hrest : (countSymbol c.toNat s).total.toNat + text.length ≤ 4294967294 := by
      rw [countSymbol_total, toNat_add_one hlt]
      omega
    exact (runCommands_cons_of_exec (exec_count herr hphase (Nat.ne_of_lt hlt) c) _).trans (ih herr hphase hrest)

/-- Distinct symbols are distinct indices, so a symbol occurs in a text as often as its index among the indices. -/
theorem count_map_toNat (text : List Symbol) (c : Symbol) : (text.map BitVec.toNat).count c.toNat = text.count c := by
  rw [List.count_eq_countP, List.countP_map, List.count_eq_countP]
  refine List.countP_congr fun d _ => ?_
  rw [Function.comp_apply, beq_iff_eq, beq_iff_eq, BitVec.toNat_inj]

section FromEmpty

variable {s : State} {text : List Symbol}

theorem toNat_freqRead_countText (hfreq : s.freq = []) (hlen : text.length < 2 ^ 32) (c : Symbol) :
    (freqRead (countText text s).freq c.toNat).toNat = text.count c := by
  have hempty : freqRead s.freq c.toNat = 0#32 := by rw [hfreq]; rfl
  rw [freqRead_countText, count_map_toNat, hempty, BitVec.zero_add,
    BitVec.toNat_ofNat, Nat.mod_eq_of_lt (Nat.lt_of_le_of_lt List.count_le_length hlen)]

theorem toNat_countText_total (htotal : s.total = 0#32) (hlen : text.length < 2 ^ 32) :
    (countText text s).total.toNat = text.length := by
  rw [countText_total, htotal, BitVec.zero_add, BitVec.toNat_ofNat, Nat.mod_eq_of_lt hlen]

end FromEmpty

/-- Settles O25: the run ends in `countText text s`, which holds the numbers of occurrences
(`toNat_freqRead_countText`) and does not depend on the text's order (`countText_perm`). -/
theorem countingATextGivesItsFrequencies : Obligations.CountingATextGivesItsFrequencies := by
  intro s text herr hphase hfreq htotal hlen
  have hlt : text.length < 2 ^ 32 := Nat.lt_of_le_of_lt hlen (by decide)
  have hcount := toNat_freqRead_countText hfreq hlt
  have hrun {text' : List Symbol} (hlen' : text'.length ≤ Config.totalMax) :
      runCommands ((symbolOperands text').map .count) s = .next (countText text' s) :=
    runCommands_count herr hphase (by rwa [htotal, BitVec.toNat_ofNat, Nat.zero_mod, Nat.zero_add])
  refine ⟨countText text s, hrun hlen, hcount, fun c => ?_, toNat_countText_total htotal hlt,
    countText_frame text s, fun text' hperm => ?_⟩
  · rw [← List.count_pos_iff, ← hcount c, Nat.pos_iff_ne_zero]
    exact not_congr (BitVec.toNat_inj (y := 0#32))
  · have hwf : freqWf s.freq := hfreq ▸ reset_memory_wf.1
    rw [hrun (Nat.le_trans (Nat.le_of_eq hperm.length_eq) hlen), countText_perm hperm hwf]

end Sys2Proof.Machine
end

section
/-! The order in which `BUILD` merges (42_build.md R106, R112): the keys taken from the queue never go down,
so the parents follow their children's order and a lighter leaf lies at least as deep as a heavier one. -/

namespace Sys2Proof.Machine

/-! ### Allocating a slot -/

section Append

variable {node : List NodeRec} (n : NodeRec)

theorem keyLt_append_of_lt {i j : Nat} (hi : i < node.length) (hj : j < node.length) :
    keyLt (node ++ [n]) i j = keyLt node i j := by
  unfold keyLt
  rw [nodeRead_append_of_lt hi, nodeRead_append_of_lt hj]

theorem child_append_of_lt {i : Nat} (hi : i < node.length) (b : Bool) :
    child (node ++ [n]) i b = child node i b := by
  unfold child
  rw [nodeRead_append_of_lt hi]

theorem keyLt_append_self {i : Nat} (hi : i < node.length)
    (hle : (nodeRead node i).weight.toNat ≤ n.weight.toNat) : keyLt (node ++ [n]) i node.length = true := by
  rw [keyLt_iff, nodeRead_append_of_lt hi, nodeRead_append_self]
  omega

end Append

theorem weight_le_of_keyLt {node : List NodeRec} {i j : Nat} (h : keyLt node i j = true) :
    (nodeRead node i).weight.toNat ≤ (nodeRead node j).weight.toNat := by
  rw [keyLt_iff] at h
  omega

theorem child_mergedNode {l r : Nat} (hl : l < Config.nodeSlots) (hr : r < Config.nodeSlots) (node : List NodeRec)
    (b : Bool) :
    (child (node ++ [mergedNode node l r]) node.length b).toNat = if b then r else l := by
  rw [child, nodeRead_append_self]
  cases b with
  | false => exact toNat_ofNat_index hl
  | true => exact toNat_ofNat_index hr

/-- A child of an internal node has a lesser index and has left the queue. -/
theorem Forest.child_taken {leaves : List NodeRec} {total : Nat} {b : Builder} (h : Forest leaves total b) {i : Nat}
    (hi : i < b.node.length) (hinner : isLeaf b.node i = false) (c : Bool) :
    (child b.node i c).toNat < i ∧ (child b.node i c).toNat ∉ b.pq := by
  have hge : leaves.length ≤ i := Nat.not_lt.1 fun hlt => by simp [h.leaf i hlt] at hinner
  obtain ⟨hleft, hright, -⟩ := h.inner i hge hi
  have hlt : (child b.node i c).toNat < i := by
    cases c with
    | false => exact hleft
    | true => exact hright
  refine ⟨hlt, fun hheld => ?_⟩
  have hnone := h.parents _ (Nat.lt_trans hlt hi)
  rw [if_pos hheld, List.length_eq_zero_iff] at hnone
  have hparent : i ∈ parentsIn b.node (child b.node i c).toNat := by
    cases c <;> simp [parentsIn, hasChild, hi, hinner, child]
  rw [hnone] at hparent
  exact absurd hparent List.not_mem_nil

/-! ### The keys taken so far -/

/-- What taking the two least keys gives between two merges (R106): every index taken has a lesser key than every index
held, and the children of an earlier node have lesser keys than those of a later one. -/
structure KeyOrdered (b : Builder) : Prop where
  taken    : ∀ i < b.node.length, i ∉ b.pq → ∀ j ∈ b.pq, keyLt b.node i j = true
  children : ∀ i j, i < j → j < b.node.length → isLeaf b.node i = false → isLeaf b.node j = false → ∀ c d,
    keyLt b.node (child b.node i c).toNat (child b.node j d).toNat = true

namespace KeyOrdered

section Merge

variable {leaves : List NodeRec} {total : Nat} {b : Builder} {l r : Nat} {rest : List Nat} (h : KeyOrdered b)
  (hf : Forest leaves total b) (hleaves : leaves.length ≤ 256) (htotal : total < 2 ^ 32)
  (hpq : b.pq.Perm (l :: r :: rest)) (hl : ∀ j ∈ b.pq, j = l ∨ keyLt b.node l j = true)
  (hr : ∀ j ∈ r :: rest, j = r ∨ keyLt b.node r j = true)

include h hf hpq

include htotal hl hr in
/-- An index no longer held after the merge has a lesser key than those still held and than the new node. -/
theorem merge_taken {i j : Nat} (hi : i < b.node.length + 1) (hi' : i ∉ rest ++ [b.node.length])
    (hj : j ∈ rest ++ [b.node.length]) : keyLt (b.node ++ [mergedNode b.node l r]) i j = true := by
  obtain ⟨hllt, hrlt, -, hlrest, hrrest, -, hrest, -⟩ := hf.merge_pair hpq
  have hweight := hf.merge_weight htotal hpq
  have hheld (k : Nat) : k ∈ b.pq ↔ k = l ∨ k = r ∨ k ∈ rest := by rw [hpq.mem_iff, List.mem_cons, List.mem_cons]
  simp only [List.mem_append, List.mem_singleton, not_or] at hi' hj
  obtain ⟨hirest, hine⟩ := hi'
  have hi : i < b.node.length := by omega
  have hcases : i = l ∨ i = r ∨ i ∉ b.pq := by
    by_cases hout : i ∈ b.pq
    · rcases (hheld i).1 hout with hil | hir | hheld'
      · exact .inl hil
      · exact .inr (.inl hir)
      · exact absurd hheld' hirest
    · exact .inr (.inr hout)
  rcases hj with hj | rfl
  · rw [keyLt_append_of_lt _ hi (hrest j hj)]
    rcases hcases with rfl | rfl | hout
    · exact (hl j ((hheld j).2 (.inr (.inr hj)))).resolve_left fun heq => hlrest (heq ▸ hj)
    · exact (hr j (List.mem_cons_of_mem _ hj)).resolve_left fun heq => hrrest (heq ▸ hj)
    · exact h.taken i hi hout j ((hheld j).2 (.inr (.inr hj)))
  · refine keyLt_append_self _ hi ?_
    rw [hweight]
    rcases hcases with rfl | rfl | hout
    · exact Nat.le_add_right _ _
    · exact Nat.le_add_left _ _
    · have hlt := weight_le_of_keyLt (h.taken i hi hout l ((hheld l).2 (.inl rfl)))
      omega

include hleaves in
/-- The two indices a merge takes have greater keys than the children of every earlier node. -/
theorem merge_children {i j : Nat} (hij : i < j) (hj : j < b.node.length + 1)
    (hi : isLeaf (b.node ++ [mergedNode b.node l r]) i = false)
    (hj' : isLeaf (b.node ++ [mergedNode b.node l r]) j = false) (c d : Bool) :
    keyLt (b.node ++ [mergedNode b.node l r]) (child (b.node ++ [mergedNode b.node l r]) i c).toNat
      (child (b.node ++ [mergedNode b.node l r]) j d).toNat = true := by
  obtain ⟨hllt, hrlt, -⟩ := hf.merge_pair hpq
  have hslots := hf.merge_slots hleaves hpq
  have hilt : i < b.node.length := by omega
  rw [isLeaf_append_of_lt _ hilt] at hi
  obtain ⟨hclt, hcout⟩ := hf.child_taken hilt hi c
  rw [child_append_of_lt _ hilt]
  rcases Nat.lt_succ_iff_lt_or_eq.1 hj with hold | rfl
  · rw [isLeaf_append_of_lt _ hold] at hj'
    have hdlt := (hf.child_taken hold hj' d).1
    rw [child_append_of_lt _ hold, keyLt_append_of_lt _ (Nat.lt_trans hclt hilt) (Nat.lt_trans hdlt hold)]
    exact h.children i j hij hold hi hj' c d
  · rw [child_mergedNode (Nat.lt_trans hllt hslots) (Nat.lt_trans hrlt hslots)]
    cases d with
    | false =>
      rw [if_neg Bool.false_ne_true, keyLt_append_of_lt _ (Nat.lt_trans hclt hilt) hllt]
      exact h.taken _ (Nat.lt_trans hclt hilt) hcout l (hpq.mem_iff.2 (by simp))
    | true =>
      rw [if_pos rfl, keyLt_append_of_lt _ (Nat.lt_trans hclt hilt) hrlt]
      exact h.taken _ (Nat.lt_trans hclt hilt) hcout r (hpq.mem_iff.2 (by simp))

include hleaves htotal hl hr in
theorem merge : KeyOrdered (allocate (mergedNode b.node l r) { b with pq := rest }) := by
  have hlen : (b.node ++ [mergedNode b.node l r]).length = b.node.length + 1 := List.length_append
  exact
  { taken := fun _ hi hi' _ hj => h.merge_taken hf htotal hpq hl hr (hlen ▸ hi) hi' hj
    children := fun _ _ hij hj hi hj' => h.merge_children hf hleaves hpq hij (hlen ▸ hj) hi hj' }

end Merge

theorem mergeLoop {leaves : List NodeRec} {total : Nat} {b : Builder} (h : KeyOrdered b)
    (hf : Forest leaves total b) (hleaves : leaves.length ≤ 256) (htotal : total < 2 ^ 32) (fuel : Nat) :
    KeyOrdered (mergeLoop fuel b) := by
  induction fuel generalizing b with
  | zero => exact h
  | succ fuel ih =>
    unfold Machine.mergeLoop
    split
    · next hgt =>
      refine ih ?_ (hf.mergeStep hleaves htotal hgt)
      obtain ⟨l, r, rest, hpq, hl, hr, he⟩ := mergeStep_cases b hgt
      rw [he]
      exact h.merge hf hleaves htotal hpq hl hr
    · exact h

end KeyOrdered

/-- Before the first merge every index is held and there is no internal node. -/
theorem IsLeaves.keyOrdered {freq : List (Nat × Weight)} {leaves : Builder} (h : IsLeaves freq leaves) :
    KeyOrdered leaves where
  taken := fun i hi hout => absurd (by rwa [h.pq, List.mem_range]) hout
  children := fun i j _ hj _ hinner => by
    rw [h.leaf j (h.length ▸ hj)] at hinner
    exact Bool.noConfusion hinner

theorem keyOrdered_buildTree {freq : List (Nat × Weight)} (htotal : builtWeight freq (buildLeaves freq) < 2 ^ 32) :
    KeyOrdered (buildTree freq) := by
  have h := isLeaves_buildLeaves freq
  exact h.keyOrdered.mergeLoop h.forest (h.length ▸ leafCount_le freq) htotal _

/-! ### The order of the keys in the built tree -/

/-- The counts that meet the invariant, the filler's weight included, fit 32 bits (R108). -/
theorem Inv.builtWeight_lt {s : State} (h : Inv s) : builtWeight s.freq (buildLeaves s.freq) < 2 ^ 32 := by
  have hmax : s.total.toNat ≤ 4294967294 := h.totalMax
  rw [builtWeight, ← h.totalSum]
  split <;> omega

/-- The order of the keys in a built tree: the root has the greatest, and the children of an earlier node have lesser
keys than those of a later one. -/
structure TreeOrdered (s : State) : Prop where
  root     : ∀ i < s.nnodes.toNat, i ≠ s.root.toNat → keyLt s.node i s.root.toNat = true
  children : ∀ i j, i < j → j < s.nnodes.toNat → isLeaf s.node i = false → isLeaf s.node j = false → ∀ c d,
    keyLt s.node (child s.node i c).toNat (child s.node j d).toNat = true

theorem IsBuilt.treeOrdered {s : State} {leaves tree : Builder} (h : IsBuilt s.freq leaves tree)
    (ho : KeyOrdered tree) : TreeOrdered (withTree s leaves tree) := by
  have hnnodes := h.nnodes_toNat
  refine ⟨fun i hi hne => ?_, fun i j hij hj => ho.children i j hij (hnnodes ▸ hj)⟩
  rw [hnnodes] at hi
  show keyLt tree.node i (builtRoot tree).toNat = true
  have hne : i ≠ (builtRoot tree).toNat := hne
  rcases h.root_cases with ⟨-, hnode, -⟩ | ⟨r, -, -, -, hpq, hr⟩
  · omega
  · rw [hr] at hne ⊢
    exact ho.taken i hi (by simpa [hpq] using hne) r (by simp [hpq])

theorem Inv.treeOrdered_buildEffect {s : State} (h : Inv s) : TreeOrdered (Machine.buildEffect s) := by
  rw [buildEffect_eq_withTree]
  exact (isBuilt_buildTree h.builtWeight_lt).treeOrdered (keyOrdered_buildTree h.builtWeight_lt)

/-- A route is empty, or its last choice leads from an internal node to a child. -/
theorem route_cases_snoc {node : List NodeRec} {i j : Nat} {p : BitPath} (h : route node i p = some j) :
    (p = [] ∧ i = j) ∨
    (∃ q b m, p = q ++ [b] ∧ route node i q = some m ∧ isLeaf node m = false ∧ (child node m b).toNat = j) := by
  rcases List.eq_nil_or_concat p with rfl | ⟨q, b, rfl⟩
  · exact .inl ⟨rfl, Option.some.inj h⟩
  · rw [List.concat_eq_append, route_append, Option.bind_eq_some_iff] at h
    obtain ⟨m, hm, hlast⟩ := h
    obtain ⟨hinner, hchild⟩ := route_cons_eq_some.1 hlast
    exact .inr ⟨q, b, m, List.concat_eq_append, hm, hinner, Option.some.inj hchild⟩

section Depth

variable {s : State} (h : Inv s) (ho : TreeOrdered s)

include h

/-- An internal node weighs as much as its two children together (R107). -/
theorem Inv.weight_inner {i : Nat} (hi : i < s.nnodes.toNat) (hinner : isLeaf s.node i = false) :
    (nodeRead s.node i).weight.toNat =
      (nodeRead s.node (child s.node i false).toNat).weight.toNat +
        (nodeRead s.node (child s.node i true).toNat).weight.toNat := by
  have hshape := h.nodeShape i hi
  rw [if_neg (Nat.not_lt.2 (h.le_of_not_leaf hi hinner))] at hshape
  obtain ⟨-, -, -, -, hweight⟩ := hshape
  exact hweight

include ho

/-- Internal nodes are made in the order of their keys, since their children were taken in it. -/
theorem TreeOrdered.inner_keyLt {i j : Nat} (hij : i < j) (hj : j < s.nnodes.toNat) (hi' : isLeaf s.node i = false)
    (hj' : isLeaf s.node j = false) : keyLt s.node i j = true := by
  have hchildren := ho.children i j hij hj hi' hj'
  have hleft := weight_le_of_keyLt (hchildren false false)
  have hright := weight_le_of_keyLt (hchildren true true)
  rw [keyLt_iff, h.weight_inner (Nat.lt_trans hij hj) hi', h.weight_inner hj hj']
  omega

/-- A node of lesser key lies at least as deep: of two nodes below the root, the parent of the lesser key is the same
node or has the lesser key itself. -/
theorem TreeOrdered.depth_le (hroot : s.root ≠ Config.nil) {p q : BitPath} {i j : Nat}
    (hp : route s.node s.root.toNat p = some i) (hq : route s.node s.root.toNat q = some j)
    (hkey : j = i ∨ keyLt s.node j i = true) : p.length ≤ q.length := by
  induction hn : p.length generalizing p q i j with
  | zero => exact Nat.zero_le _
  | succ n ih =>
    obtain ⟨rfl, -⟩ | ⟨p, b, m, rfl, hm, hminner, rfl⟩ := route_cases_snoc hp
    · exact absurd hn (Nat.succ_ne_zero n).symm
    have hmlt := (h.root_route_bounds hroot hm).1
    have hclt := h.child_lt hmlt hminner b
    obtain ⟨rfl, rfl⟩ | ⟨q, c, k, rfl, hk, hkinner, rfl⟩ := route_cases_snoc hq
    · obtain ⟨hlast, -⟩ := h.root_toNat hroot
      have hbelow := ho.root _ (Nat.lt_trans hclt hmlt) (by omega)
      rcases hkey with heq | hkey
      · omega
      · exact absurd (keyLt_trans hkey hbelow) (by simp [keyLt_irrefl])
    · have hklt := (h.root_route_bounds hroot hk).1
      have hparents : k = m ∨ keyLt s.node k m = true := by
        rcases Nat.lt_trichotomy k m with hlt | heq | hgt
        · exact .inr (ho.inner_keyLt h hlt hmlt hkinner hminner)
        · exact .inl heq
        · have hrev := ho.children m k hgt hklt hminner hkinner b c
          rcases hkey with heq | hkey
          · exact absurd hrev (by simp [heq, keyLt_irrefl])
          · exact absurd (keyLt_trans hrev hkey) (by simp [keyLt_irrefl])
      rw [List.length_append, List.length_singleton] at hn ⊢
      exact Nat.succ_le_succ (ih hm hk hparents (Nat.succ.inj hn))

end Depth

/-- The code of a leaf's symbol is the route to that leaf (43_codetable.md R121). -/
theorem Inv.exists_code {s : State} (h : Inv s) (hphase : s.phase = .ready) {i : Nat} (hi : i < s.nleaves.toNat) :
    s.root ≠ Config.nil ∧ ∃ p, codeRead s.code (nodeRead s.node i).sym.toNat = some p ∧
      route s.node s.root.toNat p = some i := by
  obtain ⟨hcoded, hroutes⟩ := h.table.2 hphase
  obtain ⟨p, hp⟩ := Option.isSome_iff_exists.1 (hcoded i hi)
  obtain ⟨l, hl, hroute, hsym⟩ := hroutes _ (tableFind_mem hp)
  obtain rfl : l = i := h.leafSymbols l hl i hi (BitVec.eq_of_toNat_eq hsym)
  refine ⟨fun hroot => ?_, p, hp, hroute⟩
  have := h.sizes_of_no_root (by simp [hphase]) hroot
  omega

/-- Settles O30, from the invariant, which `BUILD` keeps: a tree of one leaf would have a leaf as its root. -/
theorem buildFinishesWithOneRoot : Obligations.BuildFinishesWithOneRoot := by
  intro s t hs herr hphase hexec
  cases (exec_build herr hphase).symm.trans hexec
  have h := hs.buildEffect hphase
  have hcode (c : Nat) : codeRead (buildEffect s).code c = none := by
    rw [buildEffect_code, hs.code_of_collect hphase]
    rfl
  refine ⟨rfl, rfl, rfl, hcode, ?_⟩
  by_cases hroot : (buildEffect s).root = Config.nil
  · obtain ⟨hnnodes, hnleaves⟩ := h.sizes_of_no_root (by simp) hroot
    exact .inl ⟨hnleaves, hnnodes, hroot⟩
  · obtain ⟨hlast, hsize⟩ := h.root_toNat hroot
    have hinner := h.rootInternal hroot
    have hge := h.le_of_not_leaf (by omega) hinner
    refine .inr ⟨by omega, by omega, by omega, fun i hi => (h.isLeaf_iff (by omega)).2 hi, fun i hge hi => ?_,
      h.weights.2 hroot⟩
    exact Bool.eq_false_iff.2 fun hleaf => Nat.not_lt.2 hge ((h.isLeaf_iff hi).1 hleaf)

/-- Each code is the route to its leaf, so the codes of an ordered tree are as long as its leaves are deep. -/
theorem TreeOrdered.code_length_le {s : State} (ho : TreeOrdered s) (h : Inv s) (hphase : s.phase ≠ .collect)
    {i j : Nat} (hi : i < s.nleaves.toNat) (hj : j < s.nleaves.toNat) (hkey : keyLt s.node j i = true) :
    ∃ p q, codeRead (mktabEffect s).code (nodeRead s.node i).sym.toNat = some p ∧
      codeRead (mktabEffect s).code (nodeRead s.node j).sym.toNat = some q ∧ p.length ≤ q.length := by
  obtain ⟨hroot, p, hp, hproute⟩ := (h.mktabEffect hphase).exists_code rfl hi
  obtain ⟨-, q, hq, hqroute⟩ := (h.mktabEffect hphase).exists_code rfl hj
  exact ⟨p, q, hp, hq, ho.depth_le h hroot hproute hqroute (.inr hkey)⟩

/-- Settles O34: `BUILD` makes an ordered tree, in which a leaf of lesser key lies at least as deep
(`TreeOrdered.depth_le`). -/
theorem heavierSymbolsHaveNoLongerCodes : Obligations.HeavierSymbolsHaveNoLongerCodes := by
  intro s t u hs herr hphase hbuild hmktab i j hi hj hlt
  cases (exec_build herr hphase).symm.trans hbuild
  cases (exec_mktab (s := buildEffect s) herr (by simp)).symm.trans hmktab
  exact hs.treeOrdered_buildEffect.code_length_le (hs.buildEffect hphase) (by simp) hi hj ((keyLt_iff ..).2 (.inl hlt))

end Sys2Proof.Machine
end

section
/-! `BUILD` (42_build.md R100 to R113): what it writes, the leaves and the filler of any counts at all, one merge, and
the trees without a leaf and with two. -/

namespace Sys2Proof.Machine

/-! ### What `BUILD` writes -/

theorem encode_build : encode .build = 0x11000000#32 := by decide

theorem exec_build_raises {s : State} (herr : s.err = none) (hphase : s.phase ≠ .collect) :
    exec .build s = .next (raise .sequenceError (encode .build) s) := by
  have hseq : permittedIn s.phase .build = false := beq_eq_false_iff_ne.2 hphase
  exact congrArg Host.Outcome.next (runDataPath_raises herr (by rw [hseq]; rfl) _)

/-- Settles O26: `BUILD` is dropped, or raises (`exec_build_raises`), or has `buildEffect` as its effect. -/
theorem buildWritesOnlyTheTree : Obligations.BuildWritesOnlyTheTree := by
  refine ⟨encode_build, fun s => ⟨exec_dataPath_dropped rfl, fun herr hphase => ?_, fun herr hphase => ?_⟩⟩
  · rw [exec_build_raises herr hphase, encode_build]
    rfl
  · exact ⟨_, _, _, _, _, _, exec_build herr hphase⟩

/-! ### The leaves of the built tree -/

theorem leafCount_ne_one (freq : List (Nat × Weight)) : leafCount freq ≠ 1 := by
  unfold leafCount
  split <;> omega

theorem present_le_leafCount (freq : List (Nat × Weight)) : (presentSymbols freq).length ≤ leafCount freq := by
  unfold leafCount
  split <;> omega

theorem nodeRead_append_left {node : List NodeRec} {i : Nat} (h : i < node.length) (added : List NodeRec) :
    nodeRead (node ++ added) i = nodeRead node i := by
  rw [nodeRead, nodeRead, List.getElem?_append_left h]

/-- The merge loop keeps the slots allocated before it. -/
theorem mergeLoop_node_eq_append (fuel : Nat) (b : Builder) : ∃ added, (mergeLoop fuel b).node = b.node ++ added := by
  induction fuel generalizing b with
  | zero => exact ⟨[], (List.append_nil _).symm⟩
  | succ fuel ih =>
    unfold mergeLoop
    split
    · next hgt =>
      obtain ⟨l, r, rest, -, -, -, he⟩ := mergeStep_cases b hgt
      obtain ⟨added, hadded⟩ := ih (mergeStep b)
      have hstep : (mergeStep b).node = b.node ++ [mergedNode b.node l r] := by
        rw [he]
        rfl
      exact ⟨mergedNode b.node l r :: added, by rw [hadded, hstep, List.append_assoc]; rfl⟩
    · exact ⟨[], (List.append_nil _).symm⟩

/-- With one index held at most there is nothing to merge (R105). -/
theorem mergeLoop_of_length_le_one {b : Builder} (h : b.pq.length ≤ 1) (fuel : Nat) : mergeLoop fuel b = b := by
  cases fuel with
  | zero => rfl
  | succ fuel => exact if_neg (Nat.not_lt.2 h)

@[simp] theorem leafNode_weight (w : Weight) (c : Symbol) : (leafNode w c).weight = w := rfl
@[simp] theorem leafNode_sym (w : Weight) (c : Symbol) : (leafNode w c).sym = c := rfl

section Leaves

variable {freq : List (Nat × Weight)}

theorem nodeRead_buildTree {k : Nat} (hk : k < leafCount freq) :
    nodeRead (buildTree freq).node k = nodeRead (buildLeaves freq).node k := by
  obtain ⟨added, hadded⟩ := mergeLoop_node_eq_append Config.alphabetSize (buildLeaves freq)
  rw [buildTree, hadded, nodeRead_append_left ((buildLeaves_length freq).symm ▸ hk)]

theorem presentLeaf_eq {k c : Nat} (h : (presentSymbols freq)[k]? = some c) :
    presentLeaf freq k = leafNode (freqRead freq c) (BitVec.ofNat 8 c) := by
  rw [presentLeaf, List.getD_eq_getElem?_getD, h, Option.getD_some]

/-- The `k`-th symbol present has the `k`-th leaf (R103). -/
theorem nodeRead_buildTree_present {k c : Nat} (h : (presentSymbols freq)[k]? = some c) :
    nodeRead (buildTree freq).node k = leafNode (freqRead freq c) (BitVec.ofNat 8 c) := by
  have hk : k < (presentSymbols freq).length := (List.getElem?_eq_some_iff.1 h).1
  rw [nodeRead_buildTree (Nat.lt_of_lt_of_le hk (present_le_leafCount freq)), nodeRead_buildLeaves_present hk,
    presentLeaf_eq h]

theorem lt_of_presentSymbols_eq_singleton {r : Nat} (h : presentSymbols freq = [r]) : r < 256 :=
  (mem_presentSymbols.1 (h ▸ List.mem_singleton_self r)).1

/-- The filler's symbol as an index of the alphabet (R104). -/
theorem fillerSymbol_ofNat {r : Nat} (hr : r < 256) :
    fillerSymbol (BitVec.ofNat 8 r) = BitVec.ofNat 8 (if r = 0 then 1 else 0) := by
  have hzero : BitVec.ofNat 8 r = 0x00#8 ↔ r = 0 := by
    rw [← BitVec.toNat_inj, BitVec.toNat_ofNat, BitVec.toNat_ofNat, Nat.mod_eq_of_lt hr]
  rw [fillerSymbol, apply_ite (BitVec.ofNat 8)]
  exact ite_congr (propext hzero) (fun _ => rfl) fun _ => rfl

theorem fillerLeaf_eq {r : Nat} (h : presentSymbols freq = [r]) :
    fillerLeaf freq = leafNode 1#32 (BitVec.ofNat 8 (if r = 0 then 1 else 0)) := by
  have hfirst : (presentSymbols freq)[0]? = some r := by rw [h]; rfl
  rw [fillerLeaf, presentLeaf_eq hfirst, leafNode_sym, fillerSymbol_ofNat (lt_of_presentSymbols_eq_singleton h)]

theorem leafCount_of_singleton {r : Nat} (h : presentSymbols freq = [r]) : leafCount freq = 2 := by
  rw [leafCount, h]
  rfl

theorem nodeRead_buildTree_filler {r : Nat} (h : presentSymbols freq = [r]) :
    nodeRead (buildTree freq).node 1 = leafNode 1#32 (BitVec.ofNat 8 (if r = 0 then 1 else 0)) := by
  rw [nodeRead_buildTree (by rw [leafCount_of_singleton h]; decide),
    nodeRead_buildLeaves_filler (congrArg List.length h), fillerLeaf_eq h]

theorem buildTree_length : (buildTree freq).node.length = leafCount freq + (leafCount freq - 1) := by
  have hpq : (buildLeaves freq).pq.length = leafCount freq := by
    rw [buildLeaves_pq, List.length_range, buildLeaves_length]
  have hle : (buildLeaves freq).pq.length ≤ Config.alphabetSize + 1 :=
    hpq ▸ Nat.le_succ_of_le (leafCount_le freq)
  rw [buildTree, (mergeLoop_sizes _ _ hle).2, hpq, buildLeaves_length]

end Leaves

theorem buildEffect_nleaves_toNat (s : State) : (buildEffect s).nleaves.toNat = leafCount s.freq := by
  have hle := leafCount_le s.freq
  rw [buildEffect_nleaves, buildLeaves_length, BitVec.toNat_ofNat, Nat.mod_eq_of_lt (by omega)]

theorem buildEffect_nnodes_toNat (s : State) :
    (buildEffect s).nnodes.toNat = leafCount s.freq + (leafCount s.freq - 1) := by
  have hle := leafCount_le s.freq
  rw [buildEffect_nnodes, buildTree_length, BitVec.toNat_ofNat, Nat.mod_eq_of_lt (by omega)]

theorem presentSymbols_rising (freq : List (Nat × Weight)) : (presentSymbols freq).Pairwise (· < ·) :=
  List.pairwise_lt_range.filter _

/-- Settles O27: the scan's leaves stand first in the arena and the merges keep them
(`nodeRead_buildTree_present`). -/
theorem leafScanGoesInSymbolOrder : Obligations.LeafScanGoesInSymbolOrder := by
  intro s t herr hphase hexec
  cases (exec_build herr hphase).symm.trans hexec
  rw [buildEffect_node]
  refine ⟨fun k c => nodeRead_buildTree_present, fun hfiller => ?_, presentSymbols_rising s.freq,
    fun c => mem_presentSymbols⟩
  rw [buildEffect_filler, buildLeaves_filler, decide_eq_false_iff_not] at hfiller
  rw [buildEffect_nleaves_toNat, leafCount, if_neg hfiller]

/-- Settles O28: the filler's leaf follows a single scanned one (`nodeRead_buildTree_filler`), so there are never
leaves enough for one node only. -/
theorem fillerOnlyForOneDistinctSymbol : Obligations.FillerOnlyForOneDistinctSymbol := by
  intro s t herr hphase hexec
  cases (exec_build herr hphase).symm.trans hexec
  rw [buildEffect_node, buildEffect_filler]
  refine ⟨fun r hr => ?_, fun hne => ?_, ?_⟩
  · have hone : (presentSymbols s.freq).length = 1 := congrArg List.length hr
    have hfiller : (buildLeaves s.freq).filler = true := by rw [buildLeaves_filler, decide_eq_true hone]
    have hsym : BitVec.ofNat 8 (if r = 0 then 1 else 0) = if r = 0 then 0x01#8 else 0x00#8 := apply_ite _ _ _ _
    refine ⟨?_, hfiller, ?_, ?_⟩
    · rw [← hsym]
      exact nodeRead_buildTree_filler hr
    · rw [buildEffect_fillsym, buildLeaves_fillsym, if_pos hfiller, fillerLeaf_eq hr, ← hsym]
      rfl
    · rw [buildEffect_nleaves, buildLeaves_length, leafCount_of_singleton hr]
  · have hfiller : (buildLeaves s.freq).filler = false := by rw [buildLeaves_filler, decide_eq_false hne]
    refine ⟨hfiller, ?_⟩
    rw [buildEffect_fillsym, buildLeaves_fillsym, if_neg (by simp [hfiller])]
  · have hne := leafCount_ne_one s.freq
    rw [buildEffect_nnodes_toNat]
    omega

/-- Settles O29, from the two extractions of a merge (`mergeStep_cases`): no index is held twice, so the least key is
strictly less than the others. -/
theorem mergeJoinsTheTwoLeastKeys : Obligations.MergeJoinsTheTwoLeastKeys := by
  intro b hnodup hlen
  obtain ⟨l, r, rest, hpq, hl, hr, he⟩ := mergeStep_cases b hlen
  have hdistinct := hpq.nodup_iff.1 hnodup
  rw [List.nodup_cons, List.nodup_cons, List.mem_cons, not_or] at hdistinct
  obtain ⟨⟨hlr, -⟩, hrrest, -⟩ := hdistinct
  refine ⟨l, r, rest, hpq, (hl r (hpq.mem_iff.2 (by simp))).resolve_left (Ne.symm hlr), fun j hj => ?_, ?_, ?_⟩
  · exact (hr j (List.mem_cons_of_mem _ hj)).resolve_left fun heq => hrrest (heq ▸ hj)
  · rw [he]
    rfl
  · rw [he]
    exact List.perm_append_singleton _ _

/-! ### The counts alone -/

theorem foldl_scanSymbol_congr {freq freq' : List (Nat × Weight)} {cs : List Nat}
    (h : ∀ c ∈ cs, freqRead freq c = freqRead freq' c) (b : Builder) :
    cs.foldl (scanSymbol freq) b = cs.foldl (scanSymbol freq') b := by
  induction cs generalizing b with
  | nil => rfl
  | cons c cs ih =>
    obtain ⟨hc, hcs⟩ := List.forall_mem_cons.1 h
    have hscan : scanSymbol freq b c = scanSymbol freq' b c := by rw [scanSymbol, scanSymbol, hc]
    rw [List.foldl_cons, List.foldl_cons, hscan, ih hcs]

theorem leafScan_congr {freq freq' : List (Nat × Weight)} (h : ∀ c < 256, freqRead freq c = freqRead freq' c) :
    leafScan freq = leafScan freq' :=
  foldl_scanSymbol_congr (fun c hc => h c (List.mem_range.1 hc)) emptyBuilder

/-- Settles O33: the scan reads the counts and nothing else (`leafScan_congr`), and all that `BUILD` writes comes from
the leaves it makes. -/
theorem treeDependsOnlyOnTheCounts : Obligations.TreeDependsOnlyOnTheCounts := by
  intro s s' t t' herr hphase herr' hphase' hcounts hexec hexec'
  cases (exec_build herr hphase).symm.trans hexec
  cases (exec_build herr' hphase').symm.trans hexec'
  have hleaves : buildLeaves s.freq = buildLeaves s'.freq := congrArg addFiller (leafScan_congr hcounts)
  have htree : buildTree s.freq = buildTree s'.freq := congrArg (mergeLoop Config.alphabetSize) hleaves
  simp [hleaves, htree]

/-! ### The absent tree -/

section Absent

variable {freq : List (Nat × Weight)} (hnone : ∀ c < 256, freqRead freq c = 0#32)

include hnone

theorem buildLeaves_of_no_counts : buildLeaves freq = emptyBuilder := by
  have hpresent : (presentSymbols freq).length = 0 :=
    List.length_eq_zero_iff.2 (List.eq_nil_iff_forall_not_mem.2 fun c hc =>
      have ⟨hlt, hne⟩ := mem_presentSymbols.1 hc
      hne (hnone c hlt))
  rcases buildLeaves_cases freq with ⟨hone, -⟩ | ⟨-, he⟩
  · omega
  · rw [he, List.length_eq_zero_iff.1 ((scannedLeaves_length freq).trans hpresent)]
    rfl

theorem buildTree_of_no_counts : buildTree freq = emptyBuilder := by
  rw [buildTree, buildLeaves_of_no_counts hnone]
  exact mergeLoop_of_length_le_one (Nat.zero_le _) _

end Absent

/-- Settles O31: with no counts the builder stays empty (`buildTree_of_no_counts`), and the table of an absent tree
has no entry. -/
theorem emptyInputGivesTheAbsentTree : Obligations.EmptyInputGivesTheAbsentTree := by
  intro s herr hphase hnone
  have hleaves := buildLeaves_of_no_counts hnone
  have htree := buildTree_of_no_counts hnone
  have hroot : (buildEffect s).root = Config.nil := by rw [buildEffect_root, htree]; rfl
  refine ⟨buildEffect s, mktabEffect (buildEffect s), exec_build herr hphase, ?_, exec_mktab herr (by simp),
    fun c => ?_, rfl, exec_decend herr (by simp) rfl, exec_decend herr (by simp) rfl⟩
  · rw [buildEffect_eq_withTree, hleaves, htree]
    rfl
  · rw [mktabEffect_code, makeTable, if_pos hroot]
    rfl

/-! ### The two-leaf trees -/

/-- The codes of a tree of two leaves: the left leaf's symbol has the code 0, the right one's the code 1. -/
def OneBitCodes (code : List (Nat × BitPath)) (left right : Nat) : Prop :=
  codeRead code left = some [false] ∧ codeRead code right = some [true]

/-- The traversal of a node over two leaves (43_codetable.md R122). -/
theorem walkTree_two_leaves {node : List NodeRec} {i : Nat} (hi : isLeaf node i = false)
    (hchild : ∀ b, isLeaf node (child node i b).toNat = true) (fuel : Nat) (p : BitPath) (code : List (Nat × BitPath)) :
    walkTree node (fuel + 2) i p code =
      codeWrite (codeWrite code (nodeRead node (child node i false).toNat).sym.toNat (p ++ [false]))
        (nodeRead node (child node i true).toNat).sym.toNat (p ++ [true]) := by
  rw [walkTree, if_neg (by simp [hi]), walkTree, if_pos (hchild true), walkTree, if_pos (hchild false)]

/-- The table of a merge of two leaves with different symbols (43_codetable.md R121, R122). -/
theorem oneBitCodes_mergedNode {leaves : List NodeRec} {l r : Nat} (hslots : leaves.length < Config.nodeSlots)
    (hl : l < leaves.length) (hr : r < leaves.length) (hlleaf : isLeaf leaves l = true)
    (hrleaf : isLeaf leaves r = true) (hsym : (nodeRead leaves l).sym ≠ (nodeRead leaves r).sym) :
    OneBitCodes (makeTable (leaves ++ [mergedNode leaves l r]) (BitVec.ofNat 9 leaves.length))
      (nodeRead leaves l).sym.toNat (nodeRead leaves r).sym.toNat := by
  have hchild := child_mergedNode (Nat.lt_trans hl hslots) (Nat.lt_trans hr hslots) leaves
  have htable : makeTable (leaves ++ [mergedNode leaves l r]) (BitVec.ofNat 9 leaves.length) =
      codeWrite (codeWrite [] (nodeRead leaves l).sym.toNat [false]) (nodeRead leaves r).sym.toNat [true] := by
    have hleaf (b : Bool) : isLeaf (leaves ++ [mergedNode leaves l r])
        (child (leaves ++ [mergedNode leaves l r]) leaves.length b).toNat = true := by
      rw [hchild]
      cases b with
      | false => exact (isLeaf_append_of_lt _ hl).trans hlleaf
      | true => exact (isLeaf_append_of_lt _ hr).trans hrleaf
    rw [makeTable, if_neg (ofNat_index_ne_nil hslots), toNat_ofNat_index hslots]
    refine (walkTree_two_leaves (isLeaf_mergedNode (Nat.lt_trans hl hslots)) hleaf 509 [] []).trans ?_
    rw [hchild, hchild, if_neg Bool.false_ne_true, if_pos rfl, nodeRead_append_of_lt hl, nodeRead_append_of_lt hr]
    rfl
  have hne : (nodeRead leaves l).sym.toNat ≠ (nodeRead leaves r).sym.toNat := mt BitVec.eq_of_toNat_eq hsym
  rw [htable, OneBitCodes, codeRead_codeWrite, codeRead_codeWrite, codeRead_codeWrite, if_neg hne, if_pos rfl,
    if_pos rfl]
  exact ⟨rfl, rfl⟩

/-- Of two leaves the lighter one becomes the left child, and the first one if they weigh the same (R106). -/
theorem mergeStep_two_leaves {b : Builder} (hpq : b.pq = [0, 1]) :
    mergeStep b =
      if (nodeRead b.node 0).weight.toNat ≤ (nodeRead b.node 1).weight.toNat
      then allocate (mergedNode b.node 0 1) { b with pq := [] }
      else allocate (mergedNode b.node 1 0) { b with pq := [] } := by
  split
  · next hle =>
    have hkey : keyLt b.node 1 0 = false := Bool.eq_false_iff.2 fun h => by
      rw [keyLt_iff] at h
      omega
    simp [mergeStep, hpq, pqExtractMin, leastKey, hkey]
  · next hgt =>
    have hkey : keyLt b.node 1 0 = true := (keyLt_iff ..).2 (.inl (Nat.not_le.1 hgt))
    simp [mergeStep, hpq, pqExtractMin, leastKey, hkey]

/-- With two indices held the loop merges once. -/
theorem mergeLoop_of_length_two {b : Builder} (h : b.pq.length = 2) (fuel : Nat) :
    mergeLoop (fuel + 1) b = mergeStep b := by
  have hone := mergeStep_pq_length b (by omega)
  rw [mergeLoop, if_pos (by omega), mergeLoop_of_length_le_one (by omega)]

/-- The codes of the tree over the leaves of two different symbols (R113). -/
theorem oneBitCodes_two_leaves {b tree : Builder} (hpq : b.pq = [0, 1]) (hlen : b.node.length = 2) {fuel : Nat}
    (htree : tree = mergeLoop (fuel + 1) b) {v w : Weight} {c d : Nat} (hc : c < 256) (hd : d < 256) (hne : c ≠ d)
    (hfirst : nodeRead b.node 0 = leafNode v (BitVec.ofNat 8 c))
    (hsecond : nodeRead b.node 1 = leafNode w (BitVec.ofNat 8 d)) :
    if v.toNat ≤ w.toNat then OneBitCodes (makeTable tree.node (builtRoot tree)) c d
    else OneBitCodes (makeTable tree.node (builtRoot tree)) d c := by
  have hslots : b.node.length < Config.nodeSlots := by rw [hlen]; decide
  have hleaf0 : isLeaf b.node 0 = true := by rw [isLeaf, hfirst]; rfl
  have hleaf1 : isLeaf b.node 1 = true := by rw [isLeaf, hsecond]; rfl
  have hsym0 : (nodeRead b.node 0).sym.toNat = c := by
    rw [hfirst, leafNode_sym, BitVec.toNat_ofNat, Nat.mod_eq_of_lt hc]
  have hsym1 : (nodeRead b.node 1).sym.toNat = d := by
    rw [hsecond, leafNode_sym, BitVec.toNat_ofNat, Nat.mod_eq_of_lt hd]
  have hsym : (nodeRead b.node 0).sym ≠ (nodeRead b.node 1).sym := fun heq => hne (by rw [← hsym0, heq, hsym1])
  rw [htree, mergeLoop_of_length_two (congrArg List.length hpq), mergeStep_two_leaves hpq, hfirst, hsecond,
    leafNode_weight, leafNode_weight]
  split
  · rw [builtRoot_of_pq_singleton (i := b.node.length) rfl]
    have hcodes := oneBitCodes_mergedNode hslots (by omega) (by omega) hleaf0 hleaf1 hsym
    rwa [hsym0, hsym1] at hcodes
  · rw [builtRoot_of_pq_singleton (i := b.node.length) rfl]
    have hcodes := oneBitCodes_mergedNode hslots (by omega) (by omega) hleaf1 hleaf0 hsym.symm
    rwa [hsym0, hsym1] at hcodes

/-- The codes after `BUILD` and `MKTAB` with two leaves, read off the leaves of the built tree. -/
theorem oneBitCodes_buildTree {freq : List (Nat × Weight)} (hcount : leafCount freq = 2) {v w : Weight} {c d : Nat}
    (hc : c < 256) (hd : d < 256) (hne : c ≠ d)
    (hfirst : nodeRead (buildTree freq).node 0 = leafNode v (BitVec.ofNat 8 c))
    (hsecond : nodeRead (buildTree freq).node 1 = leafNode w (BitVec.ofNat 8 d)) :
    if v.toNat ≤ w.toNat then OneBitCodes (makeTable (buildTree freq).node (builtRoot (buildTree freq))) c d
    else OneBitCodes (makeTable (buildTree freq).node (builtRoot (buildTree freq))) d c := by
  have hlen : (buildLeaves freq).node.length = 2 := (buildLeaves_length freq).trans hcount
  have hpq : (buildLeaves freq).pq = [0, 1] := by
    rw [buildLeaves_pq, hlen]
    rfl
  have htree : buildTree freq = mergeLoop (255 + 1) (buildLeaves freq) := rfl
  rw [nodeRead_buildTree (by omega)] at hfirst hsecond
  exact oneBitCodes_two_leaves hpq hlen htree hc hd hne hfirst hsecond

/-- Settles O32, from the codes of two leaves (`oneBitCodes_buildTree`): the filler, which weighs 1, is the second leaf
of one distinct symbol. -/
theorem twoLeafTreesHaveTheseCodes : Obligations.TwoLeafTreesHaveTheseCodes := by
  intro s t u herr hphase hbuild hmktab
  cases (exec_build herr hphase).symm.trans hbuild
  cases (exec_mktab (s := buildEffect s) herr (by simp)).symm.trans hmktab
  rw [mktabEffect_code, buildEffect_node, buildEffect_root]
  refine ⟨fun r hr => ?_, fun p q hpq => ?_⟩
  · have hfirst := nodeRead_buildTree_present (freq := s.freq) (k := 0) (c := r) (by rw [hr]; rfl)
    have hsecond := nodeRead_buildTree_filler hr
    have hcodes := oneBitCodes_buildTree (leafCount_of_singleton hr) (lt_of_presentSymbols_eq_singleton hr)
      (by split <;> decide) (by split <;> omega) hfirst hsecond
    refine ⟨hfirst, hsecond, fun hone => ?_, fun htwo => ?_⟩
    · have hle : (freqRead s.freq r).toNat ≤ (1#32).toNat := Nat.le_of_eq (congrArg BitVec.toNat hone)
      rwa [if_pos hle] at hcodes
    · have hgt : ¬ (freqRead s.freq r).toNat ≤ (1#32).toNat := Nat.not_le.2 htwo
      rwa [if_neg hgt] at hcodes
  · have hfirst := nodeRead_buildTree_present (freq := s.freq) (k := 0) (c := p) (by rw [hpq]; rfl)
    have hsecond := nodeRead_buildTree_present (freq := s.freq) (k := 1) (c := q) (by rw [hpq]; rfl)
    have hp := (mem_presentSymbols (freq := s.freq) (c := p)).1 (by simp [hpq])
    have hq := (mem_presentSymbols (freq := s.freq) (c := q)).1 (by simp [hpq])
    have hcount : leafCount s.freq = 2 := by rw [leafCount, hpq]; rfl
    have hne : p ≠ q := by simpa [hpq] using presentSymbols_nodup s.freq
    exact ⟨hfirst, hsecond, oneBitCodes_buildTree hcount hp.1 hq.1 hne hfirst hsecond⟩

end Sys2Proof.Machine
end

section
/-! `MKTAB` (43_codetable.md R120 to R126): what it writes, that the table holds the one route to each leaf, that no
code begins another and every bit sequence begins with one, and that the table stays as it is until `CLEAR`. -/

namespace Sys2Proof.Machine

/-! ### The routes from the root -/

/-- No route leaves a leaf. -/
theorem route_eq_some_of_leaf {node : List NodeRec} {i j : Nat} {p : BitPath} (hi : isLeaf node i = true)
    (hp : route node i p = some j) : p = [] ∧ i = j := by
  cases p with
  | nil => exact ⟨rfl, Option.some.inj hp⟩
  | cons b p => simp [(route_cons_eq_some.1 hp).1] at hi

/-- A route to a leaf cannot be continued. -/
theorem eq_of_prefix_of_leaf {node : List NodeRec} {i j l : Nat} {p q : BitPath} (hp : route node i p = some l)
    (hl : isLeaf node l = true) (hq : route node i q = some j) (hpq : p <+: q) : l = j := by
  obtain ⟨r, rfl⟩ := hpq
  rw [route_append, hp, Option.bind_some] at hq
  exact (route_eq_some_of_leaf hl hq).2

theorem mem_parents {s : State} {i j : Nat} :
    j ∈ parents s i ↔ j < s.nnodes.toNat ∧ isLeaf s.node j = false ∧ ∃ b, (child s.node j b).toNat = i := by
  simp [parents, child]

section Tree

variable {s : State} (h : Inv s)

include h

/-- A node is the child of one node only, on one side only (10_state.md R32 invariant 3). -/
theorem Inv.child_injective {j k : Nat} {b c : Bool} (hj : j < s.nnodes.toNat) (hjinner : isLeaf s.node j = false)
    (hk : k < s.nnodes.toNat) (hkinner : isLeaf s.node k = false)
    (heq : (child s.node j b).toNat = (child s.node k c).toNat) : j = k ∧ b = c := by
  have hlt := h.child_lt hj hjinner b
  have hone : (parents s (child s.node j b).toNat).length = 1 := by
    rw [h.oneParent _ (Nat.lt_trans hlt hj), if_pos (by omega)]
  obtain ⟨m, hm⟩ := List.length_eq_one_iff.1 hone
  have hjm : j = m := List.mem_singleton.1 (hm ▸ mem_parents.2 ⟨hj, hjinner, b, rfl⟩)
  have hkm : k = m := List.mem_singleton.1 (hm ▸ mem_parents.2 ⟨hk, hkinner, c, heq.symm⟩)
  obtain rfl : j = k := hjm.trans hkm.symm
  have hshape := h.nodeShape j hj
  rw [if_neg (Nat.not_lt.2 (h.le_of_not_leaf hj hjinner))] at hshape
  obtain ⟨-, -, hne, -⟩ := hshape
  refine ⟨rfl, ?_⟩
  cases b <;> cases c
  · rfl
  · exact absurd (BitVec.eq_of_toNat_eq heq) hne
  · exact absurd (BitVec.eq_of_toNat_eq heq).symm hne
  · rfl

/-- Only the empty path leads from the root back to it: the node before would have the greater index. -/
theorem Inv.eq_nil_of_route_root (hroot : s.root ≠ Config.nil) {p : BitPath}
    (hp : route s.node s.root.toNat p = some s.root.toNat) : p = [] := by
  rcases route_cases_snoc hp with ⟨hnil, -⟩ | ⟨q, b, m, -, hm, hinner, hchild⟩
  · exact hnil
  · obtain ⟨hlast, -⟩ := h.root_toNat hroot
    have hmlt := (h.root_route_bounds hroot hm).1
    have := h.child_lt hmlt hinner b
    omega

/-- The route from the root to a node is unique (43_codetable.md R121). -/
theorem Inv.route_unique (hroot : s.root ≠ Config.nil) {p q : BitPath} {i : Nat}
    (hp : route s.node s.root.toNat p = some i) (hq : route s.node s.root.toNat q = some i) : p = q := by
  induction hn : p.length generalizing p q i with
  | zero =>
    obtain rfl := List.length_eq_zero_iff.1 hn
    cases hp
    exact (h.eq_nil_of_route_root hroot hq).symm
  | succ n ih =>
    obtain ⟨rfl, -⟩ | ⟨p, b, m, rfl, hm, hminner, rfl⟩ := route_cases_snoc hp
    · exact absurd hn (Nat.succ_ne_zero n).symm
    obtain ⟨rfl, hroot_child⟩ | ⟨q, c, k, rfl, hk, hkinner, hchild⟩ := route_cases_snoc hq
    · exact h.eq_nil_of_route_root hroot (hroot_child ▸ hp)
    · obtain ⟨rfl, rfl⟩ := h.child_injective (h.root_route_bounds hroot hm).1 hminner
        (h.root_route_bounds hroot hk).1 hkinner hchild.symm
      rw [List.length_append, List.length_singleton] at hn
      rw [ih hm hk (Nat.succ.inj hn)]

/-- The code of a symbol is the route to a leaf that carries it (43_codetable.md R121). -/
theorem Inv.codeRead_eq_some_iff (hphase : s.phase = .ready) {c : Nat} {p : BitPath} :
    codeRead s.code c = some p ↔ LeadsToLeaf s p c := by
  constructor
  · intro hcode
    have hcoded : symbolCoded c s = true := by rw [symbolCoded, hcode]; rfl
    have hpath : codePath c s = p := by rw [codePath, hcode]; rfl
    exact hpath ▸ (h.leadsToLeaf_codePath hphase hcoded).1
  · rintro ⟨hroot, l, hp, hleaf, rfl⟩
    have hl : l < s.nleaves.toNat := (h.isLeaf_iff (h.root_route_bounds hroot hp).1).1 hleaf
    obtain ⟨-, q, hcode, hq⟩ := h.exists_code hphase hl
    rwa [h.route_unique hroot hp hq]

end Tree

/-- Settles O36: `MKTAB` keeps the invariant, in which the codes are the routes to the leaves
(`Inv.codeRead_eq_some_iff`). -/
theorem mktabStoresTheRoutesToTheLeaves : Obligations.MktabStoresTheRoutesToTheLeaves :=
  fun s hs herr hphase => ⟨mktabEffect s, exec_mktab herr hphase, fun _ _ =>
    (hs.mktabEffect hphase).codeRead_eq_some_iff rfl⟩

/-! ### No code begins another, and every bit sequence begins with one -/

/-- The first `n` bits of an infinite sequence. -/
def firstBits (bits : Nat → Bool) (n : Nat) : BitPath := (List.range n).map bits

theorem firstBits_succ (bits : Nat → Bool) (n : Nat) :
    firstBits bits (n + 1) = bits 0 :: firstBits (fun k => bits (k + 1)) n := by
  simp [firstBits, List.range_succ_eq_map]

theorem firstBits_length (bits : Nat → Bool) (n : Nat) : (firstBits bits n).length = n := by
  simp [firstBits]

theorem firstBits_prefix (bits : Nat → Bool) {m n : Nat} (hmn : m ≤ n) : firstBits bits m <+: firstBits bits n := by
  obtain ⟨k, rfl⟩ := Nat.exists_eq_add_of_le hmn
  rw [firstBits, firstBits, List.range_add, List.map_append]
  exact List.prefix_append _ _

/-- From every node each bit sequence leads to a leaf: a step goes to a lesser index (10_state.md R32). -/
theorem Inv.exists_leaf_on {s : State} (h : Inv s) {i : Nat} (hi : i < s.nnodes.toNat) (bits : Nat → Bool) :
    ∃ n l, route s.node i (firstBits bits n) = some l ∧ isLeaf s.node l = true := by
  induction i using Nat.strongRecOn generalizing bits with
  | ind i ih =>
    cases hinner : isLeaf s.node i with
    | true => exact ⟨0, i, rfl, hinner⟩
    | false =>
      have hlt := h.child_lt hi hinner (bits 0)
      obtain ⟨n, l, hroute, hl⟩ := ih _ hlt (Nat.lt_trans hlt hi) fun k => bits (k + 1)
      exact ⟨n + 1, l, firstBits_succ bits n ▸ route_cons_eq_some.2 ⟨hinner, hroute⟩, hl⟩

/-- A path to a leaf that begins another such path is the path of the same symbol (43_codetable.md R126). -/
theorem LeadsToLeaf.eq_of_prefix {s : State} {c d : Nat} {p q : BitPath} (hp : LeadsToLeaf s p c)
    (hq : LeadsToLeaf s q d) (hpq : p <+: q) : c = d := by
  obtain ⟨-, l, hpl, hleaf, rfl⟩ := hp
  obtain ⟨-, m, hqm, -, rfl⟩ := hq
  rw [eq_of_prefix_of_leaf hpl hleaf hqm hpq]

/-- Two codes that begin the same sequence are of the same symbol: the shorter one begins the longer one. -/
theorem LeadsToLeaf.eq_of_firstBits {s : State} {c d : Nat} {p q : BitPath} {bits : Nat → Bool}
    (hp : LeadsToLeaf s p c) (hq : LeadsToLeaf s q d) (hpbits : p = firstBits bits p.length)
    (hqbits : q = firstBits bits q.length) : d = c := by
  rcases Nat.le_total p.length q.length with hle | hle
  · exact (hp.eq_of_prefix hq (by rw [hpbits, hqbits]; exact firstBits_prefix bits hle)).symm
  · exact hq.eq_of_prefix hp (by rw [hpbits, hqbits]; exact firstBits_prefix bits hle)

/-- With a tree to walk a well-formed `DECBIT` latches nothing (45_decode.md R141). -/
theorem exec_decbit_err {s t : State} {x : Operand} (herr : s.err = none) (hphase : s.phase ≠ .collect)
    (hx : validBit x = true) (hwalk : walkable s = true) (hexec : exec (.decbit x) s = .next t) : t.err = none := by
  have heffect : exec (.decbit x) s = .next (decodeBit (bitOf x) s) :=
    congrArg Host.Outcome.next
      (runDataPath_effect herr (by simp [permittedIn, hphase]) (by rw [hx, hwalk]; rfl) _)
  cases heffect.symm.trans hexec
  exact (decodeBit_effect herr hphase hx hwalk).err_eq_none herr

/-- Settles O38: the codes are the routes to the leaves (`Inv.codeRead_eq_some_iff`), a route ends at its first leaf
(`LeadsToLeaf.eq_of_prefix`), and every bit sequence meets one (`Inv.exists_leaf_on`). -/
theorem codesArePrefixFreeAndComplete : Obligations.CodesArePrefixFreeAndComplete := by
  intro s hs hphase
  have hcode {c : Nat} {p : BitPath} := hs.codeRead_eq_some_iff hphase (c := c) (p := p)
  refine ⟨fun c d p q hp hq hne hpq => hne ((hcode.1 hp).eq_of_prefix (hcode.1 hq) hpq), fun hroot bits => ?_,
    fun hroot herr x t hx => ?_⟩
  · obtain ⟨hlast, -⟩ := hs.root_toNat hroot
    obtain ⟨n, l, hroute, hleaf⟩ := hs.exists_leaf_on (i := s.root.toNat) (by omega) bits
    have hl : LeadsToLeaf s (firstBits bits n) (nodeRead s.node l).sym.toNat := ⟨hroot, l, hroute, hleaf, rfl⟩
    have hbits : firstBits bits n = firstBits bits (firstBits bits n).length := by rw [firstBits_length]
    exact ⟨_, _, hcode.2 hl, hbits, fun d q hq hqbits => hl.eq_of_firstBits (hcode.1 hq) hbits hqbits⟩
  · exact exec_decbit_err herr (by simp [hphase]) (decide_eq_true hx)
      ((walkable_iff s).2 ⟨hroot, hs.rootInternal hroot⟩)

/-! ### What `MKTAB` writes -/

theorem encode_mktab : encode .mktab = 0x12000000#32 := by decide

theorem exec_mktab_raises {s : State} (herr : s.err = none) (hphase : s.phase = .collect) :
    exec .mktab s = .next (raise .sequenceError (encode .mktab) s) := by
  have hseq : permittedIn s.phase .mktab = false := by rw [hphase]; rfl
  exact congrArg Host.Outcome.next (runDataPath_raises herr (by rw [hseq]; rfl) _)

theorem makeTable_nil (node : List NodeRec) : makeTable node Config.nil = [] := if_pos rfl

/-- Settles O35: `MKTAB` is dropped, or raises (`exec_mktab_raises`), or has `mktabEffect` as its effect. -/
theorem mktabWritesOnlyTheTable : Obligations.MktabWritesOnlyTheTable := by
  refine ⟨encode_mktab, fun s => ⟨exec_dataPath_dropped rfl, fun herr hphase => ?_, fun herr hphase => ?_⟩⟩
  · rw [exec_mktab_raises herr hphase, encode_mktab]
    rfl
  · refine ⟨makeTable s.node s.root, exec_mktab herr hphase, fun hroot c => ?_⟩
    rw [hroot]
    exact congrArg (codeRead · c) (makeTable_nil s.node)

/-! ### The table until `CLEAR` -/

/-- The state is past phase `COLLECT`, and holds this tree with its table. -/
structure Tabled (arena : List NodeRec) (top : NodeIndex) (s : State) : Prop where
  node  : s.node = arena
  root  : s.root = top
  phase : s.phase ≠ .collect
  code  : s.code = makeTable arena top

theorem tabled_mktabEffect (s : State) : Tabled s.node s.root (mktabEffect s) := ⟨rfl, rfl, nofun, rfl⟩

section Tabled

variable {arena : List NodeRec} {top : NodeIndex} {s t : State} {i : Instr}

theorem Tabled.of_effect (h : Tabled arena top s) (hi : i ≠ .clear) (heff : Effect s i t) : Tabled arena top t := by
  cases heff with
  | clear => exact absurd rfl hi
  | build _ hcollect => exact absurd hcollect h.phase
  | mktab =>
    obtain ⟨rfl, rfl, -, -⟩ := h
    exact tabled_mktabEffect s
  | clrerr | count | enc | decbitLeaf | decbitInner | decrst | read => exact { h with }

/-- `CLEAR` alone takes the tree and its table away: past phase `COLLECT` no `BUILD` has an effect, and `MKTAB` writes
the same table again (20_memory.md R47). -/
theorem Tabled.of_exec (h : Tabled arena top s) (hi : i ≠ .clear) (hexec : exec i s = .next t) :
    Tabled arena top t := by
  rcases exec_outcomes hexec with rfl | ⟨e, -, -, rfl⟩ | heff
  · exact h
  · exact { h with }
  · exact h.of_effect hi heff

theorem Tabled.of_runCommands {is : List Instr} (h : Tabled arena top s) (his : .clear ∉ is)
    (hrun : runCommands is s = .next t) : Tabled arena top t := by
  induction is generalizing s with
  | nil =>
    cases hrun
    exact h
  | cons i is ih =>
    obtain ⟨hi, his⟩ := not_or.1 (mt List.mem_cons.2 his)
    rw [runCommands_cons] at hrun
    exact ih (h.of_exec (Ne.symm hi) (exec_eq_nextOf i s)) his hrun

end Tabled

/-- Settles O37: commands without `CLEAR`, `MKTAB` among them, keep the tree and its table (`Tabled.of_runCommands`),
and the table is made from `NODE` and `ROOT`. -/
theorem mktabIsIdempotent : Obligations.MktabIsIdempotent := by
  refine ⟨fun s t u v is herr hphase hmktab his hrun => ?_,
    fun s s' t t' herr hphase herr' hphase' hnode hroot hmktab hmktab' => ?_⟩
  · cases (exec_mktab herr hphase).symm.trans hmktab
    have hu := (tabled_mktabEffect s).of_runCommands his hrun
    exact ⟨hu.node, hu.root, fun hagain => (hu.of_exec (i := .mktab) nofun hagain).code⟩
  · cases (exec_mktab herr hphase).symm.trans hmktab
    cases (exec_mktab herr' hphase').symm.trans hmktab'
    rw [mktabEffect_code, mktabEffect_code, hnode, hroot]

end Sys2Proof.Machine
end

section
/-! `ENC` (44_encode.md R130 to R136): its checks and its effect, the codes it emits, the filler's code, and that it and
the decoder's commands may be taken in either order. -/

namespace Sys2Proof.Machine

/-! ### One `ENC` -/

theorem encode_enc (x : Operand) : encode (.enc x) = 0x20000000#32 ||| x.setWidth 32 := by
  have hop : (0x20#8).setWidth 32 <<< 24 = 0x20000000#32 := by decide
  rw [encode_eq_shifted_or, ← hop, Instr.opcode, Instr.operand]

theorem exec_enc_raises {s : State} {x : Operand} {e : ErrorKind} (herr : s.err = none)
    (hfail : firstFailure [(permittedIn s.phase (.enc x), .sequenceError), (validSymbol x, .alphabetOverflow),
      (symbolCoded x.toNat s, .symbolNotCoded)] = some e) :
    exec (.enc x) s = .next (raise e (encode (.enc x)) s) :=
  congrArg Host.Outcome.next (runDataPath_raises herr hfail _)

theorem symbolCoded_codePath_iff {s : State} {c : Nat} {p : BitPath} :
    symbolCoded c s = true ∧ codePath c s = p ↔ codeRead s.code c = some p := by
  rw [symbolCoded, codePath]
  cases codeRead s.code c <;> simp

theorem exec_enc_effect {s : State} {x : Operand} {p : BitPath} (herr : s.err = none) (hphase : s.phase = .ready)
    (hx : x.toNat ≤ 255) (hcode : codeRead s.code x.toNat = some p) : exec (.enc x) s = .next (emitBits p s) := by
  have hseq : permittedIn s.phase (.enc x) = true := beq_iff_eq.2 hphase
  have hvalid : validSymbol x = true := decide_eq_true hx
  obtain ⟨hcoded, hpath⟩ := symbolCoded_codePath_iff.2 hcode
  rw [exec, execEnc, hvalid, hcoded, hpath, runDataPath_effect herr hseq rfl]

/-- A data-path command after which no fault is latched has passed its checks (R66). -/
theorem runDataPath_inv {i : Instr} {checks : List (Bool × ErrorKind)} {effect : State → State} {s : State}
    (h : (runDataPath i checks effect s).err = none) :
    s.err = none ∧ permittedIn s.phase i = true ∧ (∀ c ∈ checks, c.1 = true) ∧
      runDataPath i checks effect s = effect s := by
  rcases runDataPath_cases i checks effect s with ⟨hlatched, he⟩ | ⟨e, -, -, he⟩ | hpassed
  · exact absurd (he ▸ h) hlatched
  · rw [he] at h
    exact absurd h nofun
  · exact hpassed

theorem exec_enc_inv {s t : State} {x : Operand} (hexec : exec (.enc x) s = .next t) (ht : t.err = none) :
    s.err = none ∧ s.phase = .ready ∧ x.toNat ≤ 255 ∧ ∃ p, codeRead s.code x.toNat = some p ∧ t = emitBits p s := by
  cases hexec
  obtain ⟨herr, hphase, hchecks, he⟩ := runDataPath_inv ht
  have hvalid : validSymbol x = true := hchecks (validSymbol x, .alphabetOverflow) (by simp)
  have hcoded : symbolCoded x.toNat s = true := hchecks (symbolCoded x.toNat s, .symbolNotCoded) (by simp)
  exact ⟨herr, eq_of_beq hphase, of_decide_eq_true hvalid, _, symbolCoded_codePath_iff.1 ⟨hcoded, rfl⟩, he⟩

/-! ### The codes of the invariant -/

section Codes

variable {s : State} (h : Inv s)

include h

/-- There are codes in phase `READY` only (10_state.md R32 invariants 1 and 6). -/
theorem Inv.ready_of_code {c : Nat} {p : BitPath} (hp : codeRead s.code c = some p) : s.phase = .ready := by
  have hne : s.code ≠ [] := fun hnil => by
    rw [hnil] at hp
    cases hp
  cases hphase : s.phase with
  | collect => exact absurd (h.code_of_collect hphase) hne
  | tree => exact absurd (h.table.1 hphase) hne
  | ready => rfl

theorem Inv.leadsToLeaf_of_code {c : Nat} {p : BitPath} (hp : codeRead s.code c = some p) : LeadsToLeaf s p c :=
  (h.codeRead_eq_some_iff (h.ready_of_code hp)).1 hp

/-- A code has a bit (`Inv.leadsToLeaf_codePath`), and fewer bits than there are leaves: its route meets each internal
node at most once (43_codetable.md R124). -/
theorem Inv.code_length_bounds {c : Nat} {p : BitPath} (hp : codeRead s.code c = some p) :
    1 ≤ p.length ∧ p.length < s.nleaves.toNat := by
  obtain ⟨hcoded, rfl⟩ := symbolCoded_codePath_iff.2 hp
  obtain ⟨⟨hroot, l, hroute, -⟩, hne⟩ := h.leadsToLeaf_codePath (h.ready_of_code hp) hcoded
  obtain ⟨hlast, hsize⟩ := h.root_toNat hroot
  obtain ⟨-, hlen⟩ := h.route_bounds (by omega) hroute
  exact ⟨List.length_pos_iff.2 hne, by omega⟩

theorem Inv.nleaves_le (hphase : s.phase ≠ .collect) : s.nleaves.toNat ≤ 256 := by
  obtain ⟨hleaves, -⟩ := h.builtSizes hphase
  exact hleaves ▸ leafCount_le s.freq

/-- The keys of the table are the symbols of the leaves (43_codetable.md R121). -/
theorem Inv.isSome_codeRead_iff (hphase : s.phase = .ready) {c : Nat} :
    (codeRead s.code c).isSome = true ↔ ∃ i < s.nleaves.toNat, (nodeRead s.node i).sym.toNat = c := by
  obtain ⟨hcoded, hroutes⟩ := h.table.2 hphase
  constructor
  · intro hc
    obtain ⟨p, hp⟩ := Option.isSome_iff_exists.1 hc
    obtain ⟨i, hi, -, hsym⟩ := hroutes (c, p) (tableFind_mem hp)
    exact ⟨i, hi, hsym⟩
  · rintro ⟨i, hi, rfl⟩
    exact hcoded i hi

/-- With `FILLER` set one symbol is counted, it has leaf 0, and the filler has leaf 1, the last (42_build.md R104). -/
theorem Inv.filler_leaves (hphase : s.phase ≠ .collect) (hfiller : s.filler = true) :
    s.nleaves.toNat = 2 ∧ presentSymbols s.freq = [(nodeRead s.node 0).sym.toNat] ∧
      s.fillsym = (nodeRead s.node 1).sym := by
  obtain ⟨hleaves, -, -, hone, hfillsym⟩ := h.builtSizes hphase
  rw [hfiller] at hone hfillsym
  obtain ⟨r, hr⟩ := List.length_eq_one_iff.1 (of_decide_eq_true hone.symm)
  obtain ⟨hsym, -⟩ := h.leavesOfFreq hphase 0 (by simp [hr])
  have hfirst : (presentSymbols s.freq).getD 0 0 = r := by rw [hr]; rfl
  exact ⟨hleaves.trans (leafCount_of_singleton hr), by rw [hsym, hfirst, hr], hfillsym⟩

theorem Inv.exists_filler_code (hphase : s.phase = .ready) (hfiller : s.filler = true) :
    ∃ p, codeRead s.code s.fillsym.toNat = some p := by
  obtain ⟨hleaves, -, hfillsym⟩ := h.filler_leaves (by simp [hphase]) hfiller
  exact Option.isSome_iff_exists.1 ((h.isSome_codeRead_iff hphase).2 ⟨1, by omega, by rw [hfillsym]⟩)

end Codes

/-- Settles O39: the first failing check raises (`exec_enc_raises`), else the code is emitted (`exec_enc_effect`); the
codes of the invariant are short routes to leaves (`Inv.code_length_bounds`, `Inv.leadsToLeaf_of_code`). -/
theorem encFollowsItsRule : Obligations.EncFollowsItsRule := by
  intro s x
  refine ⟨encode_enc x, exec_dataPath_dropped rfl, fun herr hphase => ?_, fun herr hphase hx => ?_,
    fun herr hphase hx hcode => ?_, fun p => exec_enc_effect, fun p hs hp => ?_, fun hs hroot => ?_,
    fun hs hphase hfiller => ?_⟩
  · have hseq : permittedIn s.phase (.enc x) = false := beq_eq_false_iff_ne.2 hphase
    exact exec_enc_raises herr (by rw [hseq]; rfl)
  · have hseq : permittedIn s.phase (.enc x) = true := beq_iff_eq.2 hphase
    have hvalid : validSymbol x = false := decide_eq_false (Nat.not_le.2 hx)
    exact exec_enc_raises herr (by rw [hseq, hvalid]; rfl)
  · have hseq : permittedIn s.phase (.enc x) = true := beq_iff_eq.2 hphase
    have hvalid : validSymbol x = true := decide_eq_true hx
    have hcoded : symbolCoded x.toNat s = false := by rw [symbolCoded, hcode, Option.isSome_none]
    exact exec_enc_raises herr (by rw [hseq, hvalid, hcoded]; rfl)
  · obtain ⟨hpos, hlt⟩ := hs.code_length_bounds hp
    have hle := hs.nleaves_le (by simp [hs.ready_of_code hp])
    exact ⟨hpos, by omega⟩
  · refine Option.eq_none_iff_forall_ne_some.2 fun p hp => ?_
    obtain ⟨hne, -⟩ := hs.leadsToLeaf_of_code hp
    exact hne hroot
  · obtain ⟨p, hp⟩ := hs.exists_filler_code hphase hfiller
    simp [hp]

/-- Settles O40: the keys are the symbols of the two leaves (`Inv.isSome_codeRead_iff`, `Inv.filler_leaves`), and a
code over two leaves has one bit (`Inv.code_length_bounds`). -/
theorem fillerSymbolIsEncodable : Obligations.FillerSymbolIsEncodable := by
  intro s hs herr hphase hfiller
  obtain ⟨hleaves, hpresent, hfillsym⟩ := hs.filler_leaves (by simp [hphase]) hfiller
  refine ⟨⟨_, hpresent, fun heq => ?_, fun c => ?_⟩, ?_⟩
  · rw [hfillsym] at heq
    exact absurd (hs.leafSymbols 0 (by omega) 1 (by omega) (BitVec.eq_of_toNat_eq heq)) Nat.zero_ne_one
  · rw [hs.isSome_codeRead_iff hphase, hleaves, hfillsym, Nat.exists_lt_succ_right, Nat.exists_lt_succ_right]
    simp [eq_comm]
  · obtain ⟨p, hp⟩ := hs.exists_filler_code hphase hfiller
    obtain ⟨hpos, hlt⟩ := hs.code_length_bounds hp
    obtain ⟨b, rfl⟩ := List.length_eq_one_iff.1 (by omega : p.length = 1)
    have hx := toNat_symbolOperand s.fillsym
    exact ⟨b, exec_enc_effect herr hphase (hx ▸ Nat.le_of_lt_succ s.fillsym.isLt) (hx ▸ hp)⟩

/-! ### Encoder and decoder -/

/-- The decoder's commands (45_decode.md). -/
def isDecoder (d : Instr) : Prop := d = .decend ∨ d = .decrst ∨ ∃ b, d = .decbit b

/-- A decoder command that does not fault writes the cursor and `sym_out` alone. -/
theorem exec_decoder_frame {s u : State} {d : Instr} (hd : isDecoder d) (hexec : exec d s = .next u)
    (hu : u.err = none) : ∃ cur depth syms, u = { s with cur := cur, depth := depth, symOut := syms } := by
  rcases exec_outcomes hexec with rfl | ⟨e, -, -, rfl⟩ | heff
  · exact ⟨_, _, _, rfl⟩
  · exact absurd hu nofun
  · cases heff with
    | decbitLeaf | decbitInner | decrst => exact ⟨_, _, _, rfl⟩
    | clear | clrerr | count | build | mktab | enc => simp [isDecoder] at hd
    | read _ _ hread =>
      obtain ⟨x, hx⟩ := hread
      rcases hd with rfl | rfl | ⟨b, rfl⟩ <;> simp at hx

/-- A command that emits no bit does the same after more bits, which stay: it runs on the block, not on what was
emitted (`nextOf_after`). -/
theorem nextOf_emitBits {i : Instr} {s : State} (hbits : (nextOf i s).bitOut = s.bitOut) (p : BitPath) :
    nextOf i (emitBits p s) = emitBits p (nextOf i s) := by
  have hs : nextOf i s = (nextOf i s.block).after s := by rw [← nextOf_after, block_after_self]
  have ht : nextOf i (emitBits p s) = (nextOf i s.block).after (emitBits p s) := by
    rw [← nextOf_after]
    exact congrArg (nextOf i) (block_after_self (emitBits p s)).symm
  rw [hs] at hbits
  have hnone : (nextOf i s.block).bitOut = [] := List.append_right_eq_self.1 hbits
  rw [ht, hs]
  simp [State.after, emitBits, hnone]

/-- Settles O47: the decoder command does not depend on the bits (`nextOf_emitBits`), nor `ENC` on the cursor or
`sym_out`, which is all the decoder command writes (`exec_decoder_frame`). -/
theorem encoderAndDecoderDoNotInterfere : Obligations.EncoderAndDecoderDoNotInterfere := by
  intro s t u x d hd henc ht hdec hu
  obtain ⟨herr, hphase, hx, p, hp, rfl⟩ := exec_enc_inv henc ht
  obtain ⟨cur, depth, syms, rfl⟩ := exec_decoder_frame hd hdec hu
  rw [exec_eq_nextOf] at hdec
  have hnext := Host.Outcome.next.inj hdec
  refine ⟨rfl, rfl, ?_, exec_enc_effect herr hphase hx hp⟩
  rw [exec_eq_nextOf, nextOf_emitBits (by rw [hnext]) p, hnext]
  rfl

end Sys2Proof.Machine
end

section
/-! The decoder (45_decode.md R140 to R145): decoding one code, the checks and the effect of `DECBIT`, where its cursor
can be, and `DECEND` and `DECRST`. -/

namespace Sys2Proof.Machine

/-! ### Decoding one code -/

/-- Settles O45: the state is ready for the text of that one symbol, whose code is a path from the cursor to its leaf
(`Coding.decode_symbol`, by induction on the path in `runCommands_path`). -/
theorem decodingACodeEmitsItsSymbol : Obligations.DecodingACodeEmitsItsSymbol := by
  intro s c p hs herr hphase hcur hp
  obtain ⟨hcoded, rfl⟩ := symbolCoded_codePath_iff.2 hp
  have hcoding : Coding [c] s := ⟨hs, herr, hphase, hcur, by simpa using hcoded⟩
  exact hcoding.decode_symbol

/-! ### One `DECBIT` -/

theorem encode_decbit (x : Operand) : encode (.decbit x) = 0x30000000#32 ||| x.setWidth 32 := by
  have hop : (0x30#8).setWidth 32 <<< 24 = 0x30000000#32 := by decide
  rw [encode_eq_shifted_or, ← hop, Instr.opcode, Instr.operand]

theorem exec_decbit_raises {s : State} {x : Operand} {e : ErrorKind} (herr : s.err = none)
    (hfail : firstFailure [(permittedIn s.phase (.decbit x), .sequenceError), (validBit x, .malformedBit),
      (walkable s, .noDecodePath)] = some e) :
    exec (.decbit x) s = .next (raise e (encode (.decbit x)) s) :=
  congrArg Host.Outcome.next (runDataPath_raises herr hfail _)

/-- The valid bit symbols are the operands of the two bits (30_encoding.md R61). -/
theorem exists_bitOperand {x : Operand} (hx : x.toNat ≤ 1) : ∃ b, x = bitOperand b := by
  rcases Nat.le_one_iff_eq_zero_or_eq_one.1 hx with h | h
  · exact ⟨false, BitVec.eq_of_toNat_eq h⟩
  · exact ⟨true, BitVec.eq_of_toNat_eq h⟩

theorem nextNode_bitOperand (b : Bool) (s : State) :
    nextNode b s = if bitOperand b = 0#16 then (nodeRead s.node s.cur.toNat).left
      else (nodeRead s.node s.cur.toNat).right := by
  cases b <;> rfl

/-! ### Where the cursor can be -/

section Cursor

variable {s : State} (h : Inv s)

include h

theorem Inv.ne_nil_of_lt {i : NodeIndex} (hi : i.toNat < s.nnodes.toNat) : i ≠ Config.nil := by
  have hle := h.nnodes_le
  rintro rfl
  rw [show Config.nil.toNat = 511 from rfl] at hi
  omega

theorem Inv.cur_lt (hroot : s.root ≠ Config.nil) : s.cur.toNat < s.nnodes.toNat := by
  obtain ⟨-, p, -, hp⟩ := h.exists_route_cur hroot
  exact (h.root_route_bounds hroot hp).1

/-- `DEPTH` is at most 254 (10_state.md R20): the cursor is at an internal node, so its route is one bit shorter than
one that `MAXLEN` bounds. -/
theorem Inv.depth_le (hroot : s.root ≠ Config.nil) : s.depth.toNat ≤ 254 := by
  obtain ⟨hinner, p, hlen, hp⟩ := h.exists_route_cur hroot
  obtain ⟨-, hbound⟩ := h.root_route_bounds hroot (route_snoc hp hinner false)
  rw [List.length_append, List.length_singleton, hlen] at hbound
  exact Nat.le_of_succ_le_succ hbound

/-- The absent tree has its cursor at a code boundary (10_state.md R18). -/
theorem Inv.cur_of_absent_tree (hroot : s.root = Config.nil) : s.cur = s.root := by
  rcases h.cursor with ⟨hcur, -⟩ | ⟨hne, -⟩
  · exact hcur
  · exact absurd hroot hne

end Cursor

/-- Settles O41: the first failing check raises (`exec_decbit_raises`), else the step is that of `decodeBit`
(`exec_decbit`); the invariant puts the cursor at an internal node (`Inv.exists_route_cur`), whose children are of
lesser index, and bounds `DEPTH` (`Inv.depth_le`). -/
theorem decbitFollowsItsRule : Obligations.DecbitFollowsItsRule := by
  intro s x
  refine ⟨encode_decbit x, exec_dataPath_dropped rfl, fun herr hphase => ?_, fun herr hphase hx => ?_,
    fun herr hphase hx hno => ?_, fun nxt herr hphase hx hroot hinternal hnxt => ?_, fun hs hroot => ?_⟩
  · exact exec_decbit_raises herr (by rw [hphase]; rfl)
  · have hseq : permittedIn s.phase (.decbit x) = true := bne_iff_ne.2 hphase
    have hvalid : validBit x = false := decide_eq_false (Nat.not_le.2 hx)
    exact exec_decbit_raises herr (by rw [hseq, hvalid]; rfl)
  · have hseq : permittedIn s.phase (.decbit x) = true := bne_iff_ne.2 hphase
    have hvalid : validBit x = true := decide_eq_true hx
    have hwalk : walkable s = false := by
      rw [Bool.eq_false_iff, ne_eq, walkable_iff]
      rintro ⟨hroot, hinternal⟩
      exact hno.elim hroot (by simp [hinternal])
    exact exec_decbit_raises herr (by rw [hseq, hvalid, hwalk]; rfl)
  · obtain ⟨b, rfl⟩ := exists_bitOperand hx
    rw [exec_decbit herr hphase ((walkable_iff s).2 ⟨hroot, hinternal⟩), decodeBit, hnxt, ← nextNode_bitOperand]
    rfl
  · obtain ⟨hinner, -⟩ := hs.exists_route_cur hroot
    have hlt := hs.cur_lt hroot
    exact ⟨hs.ne_nil_of_lt hlt, hinner, hs.depth_le hroot,
      fun b => hs.ne_nil_of_lt (Nat.lt_trans (hs.child_lt hlt hinner b) hlt)⟩

/-! ### `DECEND` -/

theorem encode_decend : encode .decend = 0x31000000#32 := by decide

theorem exec_decend_raises {s : State} {e : ErrorKind} (herr : s.err = none)
    (hfail : firstFailure [(permittedIn s.phase .decend, .sequenceError), (atBoundary s, .truncatedCode)] = some e) :
    exec .decend s = .next (raise e 0x31000000#32 s) :=
  encode_decend ▸ congrArg Host.Outcome.next (runDataPath_raises herr hfail _)

/-- `BUILD` and `DECRST` latch a fault or end at a code boundary, out of `COLLECT` (42_build.md R109,
45_decode.md R143). -/
theorem boundary_of_build_or_decrst {i : Instr} {s t : State} (hi : i = .build ∨ i = .decrst)
    (hexec : exec i s = .next t) (ht : t.err = none) : t.phase ≠ .collect ∧ t.cur = t.root := by
  rcases hi with rfl | rfl <;> cases hexec
  · obtain ⟨-, -, -, he⟩ := runDataPath_inv ht
    exact he ▸ ⟨nofun, rfl⟩
  · obtain ⟨-, hseq, -, he⟩ := runDataPath_inv ht
    exact he ▸ ⟨bne_iff_ne.1 hseq, rfl⟩

/-- Settles O42: the first failing check raises (`exec_decend_raises`), and at a code boundary nothing changes
(`exec_decend`); the absent tree (`Inv.cur_of_absent_tree`), `BUILD` and `DECRST`
(`boundary_of_build_or_decrst`) leave the cursor at one. -/
theorem decendFollowsItsRule : Obligations.DecendFollowsItsRule := by
  refine ⟨encode_decend, fun s => ⟨exec_dataPath_dropped rfl, fun herr hphase => ?_, fun herr hphase hcur => ?_,
    exec_decend, fun hs herr hphase hroot => ?_, fun i t hi hexec ht => ?_⟩⟩
  · exact exec_decend_raises herr (by rw [hphase]; rfl)
  · have hseq : permittedIn s.phase .decend = true := bne_iff_ne.2 hphase
    have hboundary : atBoundary s = false := beq_eq_false_iff_ne.2 hcur
    exact exec_decend_raises herr (by rw [hseq, hboundary]; rfl)
  · exact exec_decend herr hphase (hs.cur_of_absent_tree hroot)
  · obtain ⟨hphase, hcur⟩ := boundary_of_build_or_decrst hi hexec ht
    exact exec_decend ht hphase hcur

/-! ### `DECRST` -/

theorem encode_decrst : encode .decrst = 0x32000000#32 := by decide

theorem exec_decrst_raises {s : State} (herr : s.err = none) (hphase : s.phase = .collect) :
    exec .decrst s = .next (raise .sequenceError 0x32000000#32 s) :=
  encode_decrst ▸ congrArg Host.Outcome.next (runDataPath_raises herr (by rw [hphase]; rfl) _)

/-- `STATUS.MIDPATH` is 0 with the cursor at the root (10_state.md R24). -/
theorem midpath_cursorToRoot (s : State) : (statusWord (cursorToRoot s)).getLsbD 5 = false := by
  rw [statusWord_getLsbD]
  simp [midpathFlag]

/-- Settles O43: `DECRST` is dropped, or raises (`exec_decrst_raises`), or has `cursorToRoot` as its effect
(`exec_decrst`), which clears `MIDPATH` (`midpath_cursorToRoot`). -/
theorem decrstPutsTheCursorAtTheRoot : Obligations.DecrstPutsTheCursorAtTheRoot := by
  refine ⟨encode_decrst, fun s => ⟨exec_dataPath_dropped rfl, exec_decrst_raises, fun herr hphase => ?_⟩⟩
  have heffect := exec_decrst herr hphase
  refine ⟨heffect, fun t hexec => ?_⟩
  cases heffect.symm.trans hexec
  exact midpath_cursorToRoot s

end Sys2Proof.Machine
end

section
/-! The read-back commands (46_readback.md R160 to R164): each emits its one response, or its index is out of range and
its word is illegal. -/

namespace Sys2Proof.Machine

/-! ### What the five reads share -/

/-- The word of a command as the spec writes it, `op << 24 | x` (R60). -/
theorem encode_eq_or_operand {i : Instr} {op : BitVec 8} {w : Word} (hi : i.opcode = op)
    (hop : op.setWidth 32 <<< 24 = w) : encode i = w ||| i.operand.setWidth 32 := by
  rw [encode_eq_shifted_or, hi, hop]

/-- An illegal word, written as the next state's fields (30_encoding.md R66). -/
theorem illegalWord_eq_ite (w : Word) (s : State) :
    illegalWord w s = if s.err = none then { s with err := some .illegalCommand, errinfo := w } else s := by
  rcases illegalWord_cases w s with ⟨herr, he⟩ | ⟨herr, he⟩
  · rw [he, if_neg herr]
  · rw [he, if_pos herr]
    rfl

section Read

variable {i : Instr} {s : State} {response : Option Word}
  (hread : exec i s = .next (runRead i response s))

include hread

theorem exec_read_emits {v : Word} (hv : response = some v) :
    exec i s = .next { s with respOut := s.respOut ++ [v] } := by
  rw [hread, hv]
  rfl

theorem exec_read_illegal (hnone : response = none) :
    exec i s = .next (if s.err = none
      then { s with err := some .illegalCommand, errinfo := encode i } else s) := by
  rw [hread, hnone, ← illegalWord_eq_ite]
  rfl

end Read

theorem tableIndexOk_iff (x : Operand) : tableIndexOk x = true ↔ x.toNat ≤ 255 := decide_eq_true_iff

theorem nodeIndexOk_iff (x : Operand) (nnodes : BitVec 10) : nodeIndexOk x nnodes = true ↔ x.toNat < nnodes.toNat :=
  decide_eq_true_iff

/-! ### `RDREG` -/

theorem readRegister_eq_none {r : Nat} (hr : 10 < r) (s : State) : readRegister s r = none := by
  rw [← Option.isNone_iff_eq_none, ← Option.not_isSome, readRegister_isSome, decide_eq_false (Nat.not_le.2 hr)]
  rfl

/-- Settles O48: `readRegister` answers the listed register at each number, and none above 10. -/
theorem rdregEmitsTheNumberedRegister : Obligations.RdregEmitsTheNumberedRegister := by
  refine ⟨fun x => encode_eq_or_operand (i := .rdreg x) (op := 0x40#8) rfl (by decide), fun s =>
    ⟨fun e he => exec_read_emits rfl ?_, fun x hx => exec_read_illegal rfl (readRegister_eq_none hx s)⟩⟩
  simp only [List.mem_cons, List.not_mem_nil, or_false] at he
  rcases he with rfl | rfl | rfl | rfl | rfl | rfl | rfl | rfl | rfl | rfl | rfl <;> rfl

/-! ### `RDNODEL` -/

/-- Joined as R162 joins a node's links, five fields stand at bits 31:27, 26, 25:18, 17:9 and 8:0. -/
theorem append_links_fields (zeros : BitVec 5) (leaf : Bool) (sym : Symbol) (right left : NodeIndex) :
    (zeros ++ BitVec.ofBool leaf ++ sym ++ right ++ left).extractLsb' 0 9 = left ∧
      (zeros ++ BitVec.ofBool leaf ++ sym ++ right ++ left).extractLsb' 9 9 = right ∧
      (zeros ++ BitVec.ofBool leaf ++ sym ++ right ++ left).extractLsb' 18 8 = sym ∧
      (zeros ++ BitVec.ofBool leaf ++ sym ++ right ++ left).getLsbD 26 = leaf ∧
      (zeros ++ BitVec.ofBool leaf ++ sym ++ right ++ left).extractLsb' 27 5 = zeros := by
  -- the lemmas need the width as the sum it is written as, so `simp` must not add it up
  refine ⟨BitVec.extractLsb'_append_eq_right, ?_, ?_, ?_, ?_⟩
  · simp [-Nat.reduceAdd, BitVec.extractLsb'_append_eq_of_le, BitVec.extractLsb'_append_eq_right]
  · simp [-Nat.reduceAdd, BitVec.extractLsb'_append_eq_of_le, BitVec.extractLsb'_append_eq_right]
  · simp only [BitVec.getLsbD_append]
    simp
  · simp [-Nat.reduceAdd, BitVec.extractLsb'_append_eq_of_le]

theorem linkWord_fields (node : List NodeRec) (i : Nat) :
    (linkWord node i).extractLsb' 0 9 = (nodeRead node i).left ∧
      (linkWord node i).extractLsb' 9 9 = (nodeRead node i).right ∧
      (linkWord node i).extractLsb' 18 8 = (nodeRead node i).sym ∧
      (linkWord node i).getLsbD 26 = isLeaf node i ∧ (linkWord node i).extractLsb' 27 5 = 0#5 :=
  append_links_fields _ _ _ _ _

/-- A leaf is a node with both links absent (10_state.md R19). -/
theorem isLeaf_iff_links (node : List NodeRec) (i : Nat) :
    isLeaf node i = true ↔ (nodeRead node i).left = Config.nil ∧ (nodeRead node i).right = Config.nil := by
  simp [isLeaf]

/-- The links of a leaf are the leaf bit and the two absent children, with the symbol between them. -/
theorem append_links_of_leaf (sym : Symbol) :
    0#5 ++ BitVec.ofBool true ++ sym ++ Config.nil ++ Config.nil =
      0x04000000#32 ||| (sym.setWidth 32 <<< 18) ||| 0x3FFFF#32 := by
  have hparts : 0#5 ++ BitVec.ofBool true ++ sym ++ Config.nil ++ Config.nil = 1#6 ++ sym ++ 0x3FFFF#18 :=
    BitVec.append_assoc
  calc
    _ = (1#6 ++ sym ++ 0x3FFFF#18).setWidth 32 := hparts.trans (BitVec.setWidth_eq _).symm
    _ = _ := BitVec.setWidth_append_append_eq_shiftLeft_setWidth_or

theorem linkWord_of_leaf {node : List NodeRec} {i : Nat} (h : isLeaf node i = true) :
    linkWord node i = 0x04000000#32 ||| ((nodeRead node i).sym.setWidth 32 <<< 18) ||| 0x3FFFF#32 := by
  obtain ⟨hleft, hright⟩ := (isLeaf_iff_links node i).1 h
  rw [linkWord, h, hleft, hright, append_links_of_leaf]

theorem Inv.sym_of_inner {s : State} (h : Inv s) {i : Nat} (hi : i < s.nnodes.toNat)
    (hinner : isLeaf s.node i = false) : (nodeRead s.node i).sym = 0x00#8 := by
  have hshape := h.nodeShape i hi
  rw [if_neg (Nat.not_lt.2 (h.le_of_not_leaf hi hinner))] at hshape
  obtain ⟨-, -, -, hsym, -⟩ := hshape
  exact hsym

theorem linkResponse_eq_some {x : Operand} {s : State} (hx : x.toNat < s.nnodes.toNat) :
    linkResponse x s = some (linkWord s.node x.toNat) :=
  if_pos ((nodeIndexOk_iff x s.nnodes).2 hx)

/-- Settles O51: `RDNODEL` emits `linkWord`, whose fields are `linkWord_fields`, or the index is out of range; the
invariant gives an internal node no symbol (`Inv.sym_of_inner`). -/
theorem rdnodelEmitsTheLinks : Obligations.RdnodelEmitsTheLinks := by
  intro s x
  refine ⟨encode_eq_or_operand (i := .rdnodel x) (op := 0x42#8) rfl (by decide), fun hx => ?_, fun hx => ?_,
    fun hx hleaf => ?_, fun hs hx => hs.sym_of_inner hx⟩
  · exact ⟨_, exec_read_emits rfl (linkResponse_eq_some hx), linkWord_fields s.node x.toNat⟩
  · exact exec_read_illegal rfl (if_neg (mt (nodeIndexOk_iff x s.nnodes).1 (Nat.not_lt.2 hx)))
  · exact exec_read_emits rfl ((linkResponse_eq_some hx).trans (congrArg some (linkWord_of_leaf hleaf)))

/-! ### `RDLEN` -/

/-- Joined as R164 joins them, `valid` stands at bit 8 and `len` at bits 7:0, below 23 other bits. -/
theorem append_len_fields (zeros : BitVec 23) (valid : Bool) (len : BitVec 8) :
    (zeros ++ BitVec.ofBool valid ++ len).extractLsb' 9 23 = zeros ∧
      (zeros ++ BitVec.ofBool valid ++ len).getLsbD 8 = valid ∧
      (zeros ++ BitVec.ofBool valid ++ len).extractLsb' 0 8 = len := by
  refine ⟨?_, ?_, BitVec.extractLsb'_append_eq_right⟩
  · simp [-Nat.reduceAdd, BitVec.extractLsb'_append_eq_of_le]
  · simp only [BitVec.getLsbD_append]
    simp

theorem lenWord_fields (entry : Option BitPath) :
    (lenWord entry).extractLsb' 9 23 = 0#23 ∧ (lenWord entry).getLsbD 8 = entry.isSome ∧
      (lenWord entry).extractLsb' 0 8 = BitVec.ofNat 8 (entry.getD []).length :=
  append_len_fields _ _ _

theorem lenWord_none : lenWord none = 0#32 := rfl

/-- A code's length fits the 8 bits of `len` (10_state.md R28). -/
theorem lenWord_some_len {p : BitPath} (hp : p.length < 256) :
    ((lenWord (some p)).extractLsb' 0 8).toNat = p.length := by
  obtain ⟨-, -, hlen⟩ := lenWord_fields (some p)
  rw [hlen]
  exact Nat.mod_eq_of_lt hp

theorem Inv.code_length_lt {s : State} (h : Inv s) {c : Nat} {p : BitPath} (hp : codeRead s.code c = some p) :
    p.length < 256 := by
  obtain ⟨-, hlt⟩ := h.code_length_bounds hp
  exact Nat.lt_of_lt_of_le hlt (h.nleaves_le (by simp [h.ready_of_code hp]))

theorem Inv.codeRead_of_not_ready {s : State} (h : Inv s) (hphase : s.phase ≠ .ready) (c : Nat) :
    codeRead s.code c = none :=
  Option.eq_none_iff_forall_ne_some.2 fun _ hp => hphase (h.ready_of_code hp)

/-- Settles O53: `RDLEN` emits `lenWord` of the entry, or the index is out of range; by the invariant there are entries
in phase `READY` only and their lengths fit. -/
theorem rdlenEmitsValidAndLen : Obligations.RdlenEmitsValidAndLen := by
  intro s x
  refine ⟨encode_eq_or_operand (i := .rdlen x) (op := 0x44#8) rfl (by decide), fun hx => ?_, fun hx => ?_⟩
  · obtain ⟨hzero, hvalid, -⟩ := lenWord_fields (codeRead s.code x.toNat)
    have hnone (h : codeRead s.code x.toNat = none) : lenWord (codeRead s.code x.toNat) = 0#32 :=
      (congrArg lenWord h).trans lenWord_none
    refine ⟨_, exec_read_emits rfl (if_pos ((tableIndexOk_iff x).2 hx)), hzero, hvalid, hnone, fun hs p hp => ?_,
      fun hs hphase => hnone (hs.codeRead_of_not_ready hphase _)⟩
    rw [hp, lenWord_some_len (hs.code_length_lt hp)]
  · exact exec_read_illegal rfl (if_neg (mt (tableIndexOk_iff x).1 (Nat.not_le.2 hx)))

/-! ### `RDFREQ` and `RDNODEW` -/

/-- `COUNT` and `CLEAR` are the only writers of the counts (`eachStateHasItsWriters`). -/
theorem freqRead_of_build {s t : State} (hexec : exec .build s = .next t) (c : Nat) :
    freqRead t.freq c = freqRead s.freq c := by
  obtain ⟨-, -, -, -, -, hwriters, -⟩ := eachStateHasItsWriters .build s t hexec
  refine Decidable.byContradiction fun hne => ?_
  rcases hwriters c hne with h | ⟨x, h, -⟩
  · exact Instr.noConfusion h
  · exact Instr.noConfusion h

/-- Settles O50: `RDFREQ` emits the count, or the index is out of range; `BUILD` writes no count
(`freqRead_of_build`). -/
theorem rdfreqEmitsTheCount : Obligations.RdfreqEmitsTheCount := by
  intro s x
  refine ⟨encode_eq_or_operand (i := .rdfreq x) (op := 0x41#8) rfl (by decide), fun hx => ?_, fun hx => ?_,
    fun t hexec => freqRead_of_build hexec x.toNat⟩
  · exact exec_read_emits rfl (if_pos ((tableIndexOk_iff x).2 hx))
  · exact exec_read_illegal rfl (if_neg (mt (tableIndexOk_iff x).1 (Nat.not_le.2 hx)))

/-- Settles O52: `RDNODEW` emits the weight, or the index is out of range. -/
theorem rdnodewEmitsTheWeight : Obligations.RdnodewEmitsTheWeight := by
  intro s x
  refine ⟨encode_eq_or_operand (i := .rdnodew x) (op := 0x43#8) rfl (by decide), fun hx => ?_, fun hx => ?_⟩
  · exact exec_read_emits rfl (if_pos ((nodeIndexOk_iff x s.nnodes).2 hx))
  · exact exec_read_illegal rfl (if_neg (mt (nodeIndexOk_iff x s.nnodes).1 (Nat.not_lt.2 hx)))

end Sys2Proof.Machine
end

section
/-! The checks of a command in their order (60_exceptions.md R177): with no fault latched the first failing one is the
error reported. From it the causes of the errors (R170) and the phase table (R178). -/

namespace Sys2Proof.Machine

/-! ### The checks of a command -/

/-- The part of `legal(w)` that a command's word can fail: R64 conditions 4 to 6, on its operand. -/
def operandLegal (s : State) (i : Instr) : Bool := i.wellFormed && stateLegal s.nnodes i

/-- A command's own checks: the operand's valid range, then its remaining condition (R177 items 4 and 5). -/
def ownChecks (s : State) : Instr → List (Bool × ErrorKind)
  | .count x => [(validSymbol x, .alphabetOverflow), (countRoom s, .countOverflow)]
  | .enc x => [(validSymbol x, .alphabetOverflow), (symbolCoded x.toNat s, .symbolNotCoded)]
  | .decbit x => [(validBit x, .malformedBit), (walkable s, .noDecodePath)]
  | .decend => [(atBoundary s, .truncatedCode)]
  | .nop | .clear | .clrerr | .build | .mktab | .decrst => []
  | .rdreg _ | .rdfreq _ | .rdnodel _ | .rdnodew _ | .rdlen _ => []

/-- All the checks of a command, in the order of R177. -/
def checks (s : State) (i : Instr) : List (Bool × ErrorKind) :=
  (operandLegal s i, .illegalCommand) :: (permittedIn s.phase i, .sequenceError) :: ownChecks s i

theorem firstFailure_cons_eq_some_iff {ok : Bool} {e e' : ErrorKind} {cs : List (Bool × ErrorKind)} :
    firstFailure ((ok, e') :: cs) = some e ↔ (ok = false ∧ e' = e) ∨ (ok = true ∧ firstFailure cs = some e) := by
  cases ok <;> simp

/-- A check of `¬ p` first: its error if `p`, else what the rest reports. -/
theorem firstFailure_cons_eq_ite {ok : Bool} {p : Prop} [Decidable p] {e : ErrorKind} {cs : List (Bool × ErrorKind)}
    {r : Option ErrorKind} (h : ok = true ↔ ¬ p) (hr : firstFailure cs = r) :
    firstFailure ((ok, e) :: cs) = if p then some e else r := by
  by_cases hp : p
  · rw [if_pos hp, Bool.eq_false_iff.2 fun hok => h.1 hok hp, firstFailure_fail]
  · rw [if_neg hp, h.2 hp, firstFailure_pass, hr]

theorem sequenceError_not_mem_ownChecks (ok : Bool) (s : State) (i : Instr) :
    (ok, ErrorKind.sequenceError) ∉ ownChecks s i := by
  cases i <;> simp [ownChecks]

/-! ### What a command's own checks report -/

theorem walkable_iff_not (s : State) :
    walkable s = true ↔ ¬ (s.root = Config.nil ∨ isLeaf s.node s.root.toNat = true) := by
  rw [walkable_iff, not_or, Bool.not_eq_true]

theorem validSymbol_iff_not (x : Operand) : validSymbol x = true ↔ ¬ 255 < x.toNat :=
  decide_eq_true_iff.trans Nat.not_lt.symm

theorem validBit_iff_not (x : Operand) : validBit x = true ↔ ¬ 1 < x.toNat :=
  decide_eq_true_iff.trans Nat.not_lt.symm

theorem symbolCoded_iff_not (c : Nat) (s : State) : symbolCoded c s = true ↔ ¬ codeRead s.code c = none :=
  Option.isSome_iff_ne_none

theorem ownChecks_count (s : State) (x : Operand) :
    firstFailure (ownChecks s (.count x)) =
      if 255 < x.toNat then some .alphabetOverflow
      else if s.total.toNat = 4294967294 then some .countOverflow else none :=
  firstFailure_cons_eq_ite (validSymbol_iff_not x) (firstFailure_cons_eq_ite decide_eq_true_iff rfl)

theorem ownChecks_enc (s : State) (x : Operand) :
    firstFailure (ownChecks s (.enc x)) =
      if 255 < x.toNat then some .alphabetOverflow
      else if codeRead s.code x.toNat = none then some .symbolNotCoded else none :=
  firstFailure_cons_eq_ite (validSymbol_iff_not x) (firstFailure_cons_eq_ite (symbolCoded_iff_not x.toNat s) rfl)

theorem ownChecks_decbit (s : State) (x : Operand) :
    firstFailure (ownChecks s (.decbit x)) =
      if 1 < x.toNat then some .malformedBit
      else if s.root = 0x1FF#9 ∨ isLeaf s.node s.root.toNat = true then some .noDecodePath else none :=
  firstFailure_cons_eq_ite (validBit_iff_not x) (firstFailure_cons_eq_ite (walkable_iff_not s) rfl)

theorem ownChecks_decend (s : State) :
    firstFailure (ownChecks s .decend) = if s.cur ≠ s.root then some .truncatedCode else none :=
  firstFailure_cons_eq_ite (beq_iff_eq.trans Decidable.not_not.symm) rfl

theorem operandLegal_of_dataPath {i : Instr} (hi : isDataPath i = true) (s : State) : operandLegal s i = true := by
  cases i with
  | count | build | mktab | enc | decbit | decend | decrst => rfl
  | _ => exact absurd hi nofun

/-- Always-commands run in every phase (30_encoding.md R65). -/
theorem dataPath_of_not_permitted {p : Phase} {i : Instr} (h : permittedIn p i = false) : isDataPath i = true := by
  cases i with
  | count | build | mktab | enc | decbit | decend | decrst => rfl
  | _ => exact absurd h nofun

/-! ### The data-path commands and their first failing check -/

theorem decodeBit_err (b : Bool) (s : State) : (decodeBit b s).err = s.err := by
  unfold decodeBit
  split <;> rfl

/-- A data-path command is its phase check and its own checks, before an effect that leaves the latch (R66). -/
theorem exec_dataPath {i : Instr} (hi : isDataPath i = true) (s : State) :
    ∃ effect : State → State, (effect s).err = s.err ∧
      exec i s = .next (runDataPath i (ownChecks s i) effect s) := by
  cases i with
  | count x => exact ⟨countSymbol x.toNat, rfl, rfl⟩
  | build => exact ⟨buildEffect, rfl, rfl⟩
  | mktab => exact ⟨mktabEffect, rfl, rfl⟩
  | enc x => exact ⟨emitBits (codePath x.toNat s), rfl, rfl⟩
  | decbit x => exact ⟨decodeBit (bitOf x), decodeBit_err _ s, rfl⟩
  | decend => exact ⟨id, rfl, rfl⟩
  | decrst => exact ⟨cursorToRoot, rfl, rfl⟩
  | _ => exact absurd hi nofun

theorem runDataPath_err {s : State} (herr : s.err = none) {effect : State → State} (heffect : (effect s).err = s.err)
    (i : Instr) (own : List (Bool × ErrorKind)) :
    (runDataPath i own effect s).err = firstFailure ((permittedIn s.phase i, .sequenceError) :: own) := by
  unfold runDataPath
  rw [if_neg (by simp [herr])]
  cases firstFailure ((permittedIn s.phase i, .sequenceError) :: own) with
  | some e => rfl
  | none => exact heffect.trans herr

theorem exec_dataPath_err {i : Instr} {s t : State} (hi : isDataPath i = true) (herr : s.err = none)
    (hexec : exec i s = .next t) :
    t.err = firstFailure ((permittedIn s.phase i, .sequenceError) :: ownChecks s i) := by
  obtain ⟨effect, heffect, he⟩ := exec_dataPath hi s
  cases he.symm.trans hexec
  exact runDataPath_err herr heffect i _

/-! ### The read-back commands and their legality -/

/-- The always-commands are the reads and the three control commands (30_encoding.md R65). -/
theorem isRead_iff (i : Instr) : isRead i ↔ isDataPath i = false ∧ i ∉ [.nop, .clrerr, .clear] := by
  cases i <;> simp [isRead, isDataPath]

theorem isSome_ite_some (ok : Bool) (v : Word) : (if ok then some v else none).isSome = ok := by
  cases ok <;> rfl

/-- A read has a response exactly if its operand is in range (46_readback.md, 30_encoding.md R64). -/
theorem exec_isRead {i : Instr} (hi : isRead i) (s : State) :
    ∃ response : Option Word, response.isSome = operandLegal s i ∧ exec i s = .next (runRead i response s) := by
  obtain ⟨x, hx⟩ := hi
  simp only [List.mem_cons, List.not_mem_nil, or_false] at hx
  rcases hx with rfl | rfl | rfl | rfl | rfl
  · exact ⟨_, (readRegister_isSome s x.toNat).trans (Bool.and_true _).symm, rfl⟩
  · exact ⟨_, (isSome_ite_some (tableIndexOk x) _).trans (Bool.and_true _).symm, rfl⟩
  · exact ⟨_, isSome_ite_some (nodeIndexOk x s.nnodes) _, rfl⟩
  · exact ⟨_, isSome_ite_some (nodeIndexOk x s.nnodes) _, rfl⟩
  · exact ⟨_, (isSome_ite_some (tableIndexOk x) _).trans (Bool.and_true _).symm, rfl⟩

theorem exec_isRead_emits {i : Instr} {s : State} (hi : isRead i) (hlegal : operandLegal s i = true) :
    ∃ v, exec i s = .next { s with respOut := s.respOut ++ [v] } := by
  obtain ⟨response, hsome, he⟩ := exec_isRead hi s
  obtain ⟨v, hv⟩ := Option.isSome_iff_exists.1 (hsome.trans hlegal)
  exact ⟨v, exec_read_emits he hv⟩

theorem exec_isRead_err {i : Instr} {s t : State} (hi : isRead i) (herr : s.err = none) (hexec : exec i s = .next t) :
    t.err = firstFailure [(operandLegal s i, .illegalCommand)] := by
  obtain ⟨response, hsome, he⟩ := exec_isRead hi s
  cases he.symm.trans hexec
  rw [← hsome]
  cases response with
  | some v => exact herr
  | none => rw [runRead, illegalWord_eq_ite, if_pos herr]; rfl

/-! ### The first failing check is reported (R177) -/

/-- With no fault latched the error after a command is that of its first failing check. -/
theorem exec_err {i : Instr} {s t : State} (herr : s.err = none) (hexec : exec i s = .next t) :
    t.err = firstFailure (checks s i) := by
  by_cases hi : isDataPath i = true
  · rw [checks, operandLegal_of_dataPath hi, firstFailure_pass]
    exact exec_dataPath_err hi herr hexec
  · cases i with
    | nop =>
      cases hexec
      exact herr
    | clear | clrerr =>
      cases hexec
      rfl
    | rdreg x | rdfreq x | rdnodel x | rdnodew x | rdlen x =>
      rw [exec_isRead_err ⟨x, by simp⟩ herr hexec]
      rfl
    | _ => exact absurd rfl hi

theorem illegalWord_err (w : Word) (s : State) : (illegalWord w s).err = some (s.err.getD .illegalCommand) := by
  rw [illegalWord_eq_ite]
  cases herr : s.err <;> simp [herr]

/-- Settles O15: an illegal word is `illegalWord` (`step_of_not_legal`), a latched fault drops the command, and else the
first failing check is reported (`exec_dataPath_err`, `exec_isRead_err`), each check being the stated condition. -/
theorem firstFailingCheckIsReported : Obligations.FirstFailingCheckIsReported := by
  refine ⟨fun s t w rest hin hlegal hstep => ?_, fun i s t herr hi hexec => ?_, fun i s t herr hexec => ?_⟩
  · cases (step_of_not_legal hin hlegal).symm.trans hstep
    exact illegalWord_err w _
  · cases (exec_dataPath_dropped hi herr).symm.trans hexec
    rfl
  · cases i with
    | nop | clear | clrerr => exact exec_err herr hexec
    | count x =>
      exact (exec_dataPath_err rfl herr hexec).trans
        (firstFailure_cons_eq_ite (by simp [permittedIn]) (ownChecks_count s x))
    | enc x =>
      exact (exec_dataPath_err rfl herr hexec).trans
        (firstFailure_cons_eq_ite (by simp [permittedIn]) (ownChecks_enc s x))
    | decbit x =>
      exact (exec_dataPath_err rfl herr hexec).trans
        (firstFailure_cons_eq_ite (by simp [permittedIn]) (ownChecks_decbit s x))
    | decend =>
      exact (exec_dataPath_err rfl herr hexec).trans
        (firstFailure_cons_eq_ite (by simp [permittedIn]) (ownChecks_decend s))
    | build | mktab | decrst =>
      exact (exec_dataPath_err rfl herr hexec).trans (firstFailure_cons_eq_ite (by simp [permittedIn]) rfl)
    | rdreg x | rdfreq x | rdnodel x | rdnodew x | rdlen x =>
      refine (exec_isRead_err ⟨x, by simp⟩ herr hexec).trans (firstFailure_cons_eq_ite ?_ rfl)
      simp [operandLegal, Instr.wellFormed, stateLegal, registerNumberOk, tableIndexOk, nodeIndexOk]

/-! ### The phase check (R178) -/

theorem exec_raises_sequenceError {i : Instr} {s : State} (herr : s.err = none)
    (hseq : permittedIn s.phase i = false) : exec i s = .next (raise .sequenceError (encode i) s) := by
  obtain ⟨effect, -, he⟩ := exec_dataPath (dataPath_of_not_permitted hseq) s
  rw [he, runDataPath_raises herr (by rw [hseq]; rfl)]

theorem exec_err_ne_sequenceError {i : Instr} {s t : State} (herr : s.err = none) (hi : isDataPath i = true)
    (hseq : permittedIn s.phase i = true) (hexec : exec i s = .next t) : t.err ≠ some .sequenceError := by
  rw [exec_dataPath_err hi herr hexec, hseq, firstFailure_pass]
  exact fun h => sequenceError_not_mem_ownChecks false s i (firstFailure_mem h)

/-- Settles O16: the table is `permittedIn` on the data path; out of it the phase check raises
(`exec_raises_sequenceError`), and in it no other check reports `SequenceError` (`exec_err_ne_sequenceError`). -/
theorem sequenceErrorByThePhaseTable : Obligations.SequenceErrorByThePhaseTable := by
  intro i s herr hi
  refine (if_congr (Q := permittedIn s.phase i = true) ?_ rfl rfl).mpr ?_
  · cases i with
    | count | build | mktab | enc | decbit | decend | decrst => cases s.phase <;> exact Iff.rfl
    | _ => exact absurd hi nofun
  · split
    · next hseq => exact fun t => exec_err_ne_sequenceError herr hi hseq
    · next hseq => exact exec_raises_sequenceError herr (Bool.eq_false_iff.2 hseq)

end Sys2Proof.Machine
end

section
/-! The fault latch (60_exceptions.md R170 to R174, R181): what a step latches, and what clears it. -/

namespace Sys2Proof.Machine

/-! ### Steps without a command word -/

theorem step_of_idle {s : State} (hin : s.hostIn = []) : step s = .next s := by
  simp only [step, takeEvent, hin]

/-- Settles O8 (`step_of_idle`, `step_of_rst`). -/
theorem stepWithoutACommandHoldsOrResets : Obligations.StepWithoutACommandHoldsOrResets :=
  ⟨fun _ => step_of_idle, fun _ _ => step_of_rst⟩

/-! ### A step that latches a fault (R170 to R172) -/

/-- Such a step took a word and only raised. -/
theorem step_raises {s t : State} (hstep : step s = .next t) (hs : s.err = none) (ht : t.err ≠ none) :
    ∃ w rest e, s.hostIn = .cmd w :: rest ∧ t = raise e w { s with hostIn := rest } := by
  rcases step_cases s with ⟨-, he⟩ | ⟨w, rest, i, hin, hd, he⟩ | ⟨w, rest, why, hin, -, he⟩ | ⟨rest, -, he⟩
  · cases he.symm.trans hstep
    exact absurd hs ht
  · obtain ⟨e, rfl⟩ := exec_raises (he.symm.trans hstep) hs ht
    exact ⟨w, rest, e, hin, by rw [(decode_eq_ok_iff.1 hd).1]⟩
  · cases he.symm.trans hstep
    refine ⟨w, rest, .illegalCommand, hin, ?_⟩
    rw [illegalWord_eq_ite, if_pos hs]
    rfl
  · cases he.symm.trans hstep
    exact absurd rfl ht

/-- Settles O12 (`step_raises`): raising writes the latch and nothing else. -/
theorem faultsArePrecise : Obligations.FaultsArePrecise :=
  fun _ _ => step_raises

theorem errCode_eq_zero_iff (s : State) : errCode s = 0#4 ↔ s.err = none := by
  unfold errCode
  rcases s.err with _ | e
  · simp
  · cases e <;> simp [ErrorKind.code]

theorem errCode_le (s : State) : (errCode s).toNat ≤ 8 := by
  unfold errCode
  rcases s.err with _ | e
  · decide
  · cases e <;> decide

/-- The dangling bits: `DEPTH` counts the path to a cursor off the root (R32 invariant 7). -/
theorem Inv.exists_dangling_path {s : State} (h : Inv s) (hcur : s.cur ≠ s.root) :
    ∃ p : BitPath, p.length = s.depth.toNat ∧ route s.node s.root.toNat p = some s.cur.toNat := by
  obtain ⟨-, hpath⟩ := h.exists_route_cur (mt h.cur_of_absent_tree hcur)
  exact hpath

/-- The error after a word taken with no fault latched (R66, R177): that of an illegal word, or of the first failing
check of the command it spells. -/
theorem step_cmd_err {s t : State} {w : Word} {rest : List HostEvent} (hin : s.hostIn = .cmd w :: rest)
    (herr : s.err = none) (hstep : step s = .next t) :
    (legal w s.nnodes = false ∧ t.err = some .illegalCommand) ∨
      ∃ i, decode w = .ok i ∧ t.err = firstFailure ((permittedIn s.phase i, .sequenceError) :: ownChecks s i) := by
  cases hlegal : legal w s.nnodes with
  | false =>
    cases (step_of_not_legal hin hlegal).symm.trans hstep
    refine .inl ⟨rfl, ?_⟩
    rw [illegalWord_err, herr]
    rfl
  | true =>
    obtain ⟨i, hd, hstate⟩ := (legal_iff_exists w s.nnodes).1 hlegal
    obtain ⟨-, hwf⟩ := decode_eq_ok_iff.1 hd
    have hoperand : operandLegal { s with hostIn := rest } i = true := by rw [operandLegal, hwf, hstate]; rfl
    have hchecks := exec_err (s := { s with hostIn := rest }) herr ((step_cmd_of_decode hin hd).symm.trans hstep)
    rw [checks, hoperand, firstFailure_pass] at hchecks
    exact .inr ⟨i, hd, hchecks⟩

/-- Settles O11: `ERRINFO` is the word taken (`step_raises`). The kind is that of an illegal word, or of the command's
first failing check (`exec_err`), the checks before which have passed. -/
theorem eachErrorHasItsCodeAndCause : Obligations.EachErrorHasItsCodeAndCause := by
  refine ⟨rfl, fun s => ⟨(errCode_eq_zero_iff s).symm, errCode_le s⟩, fun s t w rest e hin herr hstep ht => ?_⟩
  obtain ⟨w', rest', e', hin', hraise⟩ := step_raises hstep herr (by simp [ht])
  cases hin'.symm.trans hin
  refine ⟨by rw [hraise, raise_errinfo], ?_⟩
  rcases step_cmd_err hin herr hstep with ⟨hlegal, he⟩ | ⟨i, hd, he⟩
  · cases he.symm.trans ht
    exact hlegal
  rcases firstFailure_cons_eq_some_iff.1 (he.symm.trans ht) with ⟨hseq, rfl⟩ | ⟨-, hown⟩
  · exact ⟨i, hd, dataPath_of_not_permitted hseq, hseq⟩
  cases i with
  | count x =>
    rw [ownChecks_count] at hown
    split_ifs at hown with hx htotal <;> cases hown
    · exact ⟨x, hx, .inl hd⟩
    · exact ⟨x, hd, htotal⟩
  | enc x =>
    rw [ownChecks_enc] at hown
    split_ifs at hown with hx hcode <;> cases hown
    · exact ⟨x, hx, .inr hd⟩
    · exact ⟨x, Nat.le_of_not_lt hx, hcode, hd⟩
  | decbit x =>
    rw [ownChecks_decbit] at hown
    split_ifs at hown with hx hroot <;> cases hown
    · exact ⟨x, hx, hd⟩
    · exact ⟨x, Nat.le_of_not_lt hx, hd, hroot⟩
  | decend =>
    rw [ownChecks_decend] at hown
    split_ifs at hown with hcur
    cases hown
    have hw : w = 0x31000000#32 := (decode_eq_ok_iff.1 hd).1.symm.trans encode_decend
    exact ⟨hw, hcur, fun hs => hraise ▸ hs.exists_dangling_path hcur⟩
  | _ => cases hown

/-! ### A step from a latched fault (R173, R174) -/

/-- The host presents `CLRERR`, `CLEAR` or a reset next. -/
def PresentsUnlatch (s : State) : Prop :=
  ∃ rest, s.hostIn = .cmd 0x02000000#32 :: rest ∨ s.hostIn = .cmd 0x01000000#32 :: rest ∨ s.hostIn = .rst :: rest

theorem exec_of_latched {i : Instr} {s t : State} (hs : s.err ≠ none) (hexec : exec i s = .next t) :
    (t.err = s.err ∧ t.errinfo = s.errinfo) ∨ ((i = .clrerr ∨ i = .clear) ∧ t.err = none) := by
  rcases exec_outcomes hexec with rfl | ⟨e, herr, -, -⟩ | heff
  · exact .inl ⟨rfl, rfl⟩
  · exact absurd herr hs
  · cases heff with
    | clear => exact .inr ⟨.inr rfl, rfl⟩
    | clrerr => exact .inr ⟨.inl rfl, rfl⟩
    | read => exact .inl ⟨rfl, rfl⟩
    | count _ herr | build herr | mktab herr | enc _ herr | decbitLeaf _ herr | decbitInner _ herr | decrst herr =>
      exact absurd herr hs

/-- A latched fault stays the first one recorded, or the host has it cleared. -/
theorem step_of_latched {s t : State} (hs : s.err ≠ none) (hstep : step s = .next t) :
    (t.err = s.err ∧ t.errinfo = s.errinfo) ∨ (PresentsUnlatch s ∧ t.err = none) := by
  rcases step_cases s with ⟨-, he⟩ | ⟨w, rest, i, hin, hd, he⟩ | ⟨w, rest, why, -, -, he⟩ | ⟨rest, hin, he⟩
  · cases he.symm.trans hstep
    exact .inl ⟨rfl, rfl⟩
  · refine (exec_of_latched (s := { s with hostIn := rest }) hs (he.symm.trans hstep)).imp id ?_
    obtain ⟨rfl, -⟩ := decode_eq_ok_iff.1 hd
    rintro ⟨rfl | rfl, ht⟩
    · exact ⟨⟨rest, .inl hin⟩, ht⟩
    · exact ⟨⟨rest, .inr (.inl hin)⟩, ht⟩
  · cases he.symm.trans hstep
    rw [illegalWord_eq_ite, if_neg hs]
    exact .inl ⟨rfl, rfl⟩
  · cases he.symm.trans hstep
    exact .inr ⟨⟨rest, .inr (.inr hin)⟩, rfl⟩

theorem step_of_presentsUnlatch {s t : State} (h : PresentsUnlatch s) (hstep : step s = .next t) : t.err = none := by
  obtain ⟨rest, hin | hin | hin⟩ := h
  · have hd : decode 0x02000000#32 = .ok .clrerr := decode_encode (i := .clrerr) rfl
    cases (step_cmd_of_decode hin hd).symm.trans hstep
    rfl
  · have hd : decode 0x01000000#32 = .ok .clear := decode_encode (i := .clear) rfl
    cases (step_cmd_of_decode hin hd).symm.trans hstep
    rfl
  · cases (step_of_rst hin).symm.trans hstep
    rfl

/-- Settles O13: drops are `exec_dataPath_dropped` and `step_of_not_legal`, the legal reads answer
(`exec_isRead_emits`), and a step keeps the error recorded or clears it (`step_of_latched`). -/
theorem latchedFaultDropsAllButAlwaysCommands : Obligations.LatchedFaultDropsAllButAlwaysCommands := by
  intro s e he
  have hs : s.err ≠ none := by simp [he]
  refine ⟨fun i hi => exec_dataPath_dropped hi hs, fun w rest hin hlegal => ?_, exec_nop s, exec_clrerr s,
    exec_clear s, fun i hwf hlegal hi hcontrol => ?_, fun t hstep => ?_⟩
  · rw [step_of_not_legal hin hlegal, illegalWord_eq_ite, if_neg hs]
  · exact exec_isRead_emits ((isRead_iff i).2 ⟨hi, hcontrol⟩) (by rw [operandLegal, hwf, hlegal]; rfl)
  · rw [← he]
    exact (step_of_latched hs hstep).imp id And.right

/-- Settles O14: a step from a latched fault clears it exactly if the host presents one of the three
(`step_of_latched`, `step_of_presentsUnlatch`); clearing gives back all that the fault overwrote
(`clearLatch_raise`). -/
theorem onlyClrerrClearAndResetUnlatch : Obligations.OnlyClrerrClearAndResetUnlatch := by
  refine ⟨fun s t e he hstep => ⟨fun ht => ?_, fun h => step_of_presentsUnlatch h hstep⟩,
    fun s e w herr hinfo => ?_, exec_clear, fun s t x hexec => ?_⟩
  · rcases step_of_latched (by simp [he]) hstep with ⟨hsame, -⟩ | ⟨h, -⟩
    · exact absurd (he.symm.trans (hsame.symm.trans ht)) nofun
    · exact h
  · exact congrArg Host.Outcome.next ((clearLatch_raise e w s).trans (clearLatch_of_unlatched herr hinfo))
  · by_cases hs : s.err = none
    · exact .inr hs
    · rcases exec_of_latched hs hexec with ⟨hsame, -⟩ | ⟨hi, -⟩
      · exact .inl hsame
      · exact absurd hi nofun

/-! ### The `err` output (R181) -/

theorem errWord_code (s : State) : (errWord s).extractLsb' 0 4 = errCode s := by
  rw [errWord, BitVec.extractLsb'_setWidth_of_le (by decide)]
  exact BitVec.extractLsb'_eq_self

theorem errLine_eq_true_iff (s : State) : errLine s = true ↔ s.err ≠ none := by
  rw [errLine, bne_iff_ne, ne_eq, errCode_eq_zero_iff]

theorem errLine_eq_false_iff (s : State) : errLine s = false ↔ s.err = none := by
  rw [errLine, bne_eq_false_iff_eq, errCode_eq_zero_iff]

/-- Settles O17: the line is the latch (`errLine_eq_true_iff`), which rises with a step that raises (`step_raises`) and
falls with one of the three that clear (`step_of_latched`). -/
theorem errLineFollowsTheLatch : Obligations.ErrLineFollowsTheLatch := by
  refine ⟨fun s => ?_, fun s t hstep => ⟨fun hs ht => ?_, fun hs ht => ?_⟩⟩
  · rw [errWord_code, errLine, bne_iff_ne]
  · have ht : t.err ≠ none := (errLine_eq_true_iff t).1 ht
    obtain ⟨w, rest, e, hin, he⟩ := step_raises hstep ((errLine_eq_false_iff s).1 hs) ht
    exact ⟨w, rest, hin, by rw [he, raise_errinfo], ht⟩
  · rw [errLine_eq_true_iff] at hs
    rw [errLine_eq_false_iff] at ht
    rcases step_of_latched hs hstep with ⟨hsame, -⟩ | ⟨h, -⟩
    · exact absurd (hsame.symm.trans ht) hs
    · exact h

end Sys2Proof.Machine
end
